-- ==== Sys2Proof/Word.lean ====
section
/-!
DEFINITION. The two bit-vector types the spec's registers and memory are made of.
-/
namespace Sys2Proof

/-- A 32-bit register or memory word (R11, R21). -/
abbrev Word := BitVec 32

/-- One byte of physical memory (R60). -/
abbrev Byte := BitVec 8

end Sys2Proof
end

