-- ==== Sys2Proof/Config.lean ====
section
/-!
DEFINITION. What an implementation fixes (the parameters of R9 and the platform's layout of R75), and the
one source of free values: the choice of the agent that moves next with everything it draws (R14, R16).
-/
namespace Sys2Proof

/-- A run of `size` byte addresses from `base` (R72). -/
structure Region where
  base : Nat
  size : Nat
  deriving DecidableEq, Repr, Inhabited

/-- WIRE_ORDER: how the bytes of a sink word reach the wire (R189). -/
inductive WireOrder where
  | addressOrder
  | wordMsbFirst
  deriving DecidableEq, Repr, Inhabited

/-! ## Register layouts

The spec takes these from general knowledge and makes each a parameter with the default below
(spec/93_implementation_defined.md U37, G3 to G5, G9). -/

/-- `DMA_*` offsets: the channel's registers, in bytes from its base (R9, R171, G3). -/
structure DmaOffsets where
  cs : Nat := 0x00
  conblkAd : Nat := 0x04
  ti : Nat := 0x08
  sourceAd : Nat := 0x0C
  destAd : Nat := 0x10
  txfrLen : Nat := 0x14
  stride : Nat := 0x18
  nextConbk : Nat := 0x1C
  debug : Nat := 0x20
  deriving DecidableEq, Repr, Inhabited

/-- The offsets of the channel's registers, in the order of R171. -/
def DmaOffsets.list (o : DmaOffsets) : List Nat :=
  [o.cs, o.conblkAd, o.ti, o.sourceAd, o.destAd, o.txfrLen, o.stride, o.nextConbk, o.debug]

/-- The bits of CS (R172); a field of more than one bit is named bit by bit. -/
inductive CsBit where
  | active | ended | intr | dreq | paused | dreqStops | outstanding | error
  | priority (i : Fin 4)
  | panicPriority (i : Fin 4)
  | waitWrites | disDebug | abort | reset
  deriving DecidableEq, Repr

def CsBit.all : List CsBit :=
  [.active, .ended, .intr, .dreq, .paused, .dreqStops, .outstanding, .error,
   .priority 0, .priority 1, .priority 2, .priority 3,
   .panicPriority 0, .panicPriority 1, .panicPriority 2, .panicPriority 3,
   .waitWrites, .disDebug, .abort, .reset]

/-- `DMA_*` bits of CS: the position of each field's lowest bit (R9, R172, G4). -/
structure CsLayout where
  active : Nat := 0
  ended : Nat := 1
  intr : Nat := 2
  dreq : Nat := 3
  paused : Nat := 4
  dreqStops : Nat := 5
  outstanding : Nat := 6
  error : Nat := 8
  priority : Nat := 16
  panicPriority : Nat := 20
  waitWrites : Nat := 28
  disDebug : Nat := 29
  abort : Nat := 30
  reset : Nat := 31
  deriving DecidableEq, Repr, Inhabited

/-- The position of a bit of CS. -/
def CsLayout.pos (l : CsLayout) : CsBit → Nat
  | .active => l.active
  | .ended => l.ended
  | .intr => l.intr
  | .dreq => l.dreq
  | .paused => l.paused
  | .dreqStops => l.dreqStops
  | .outstanding => l.outstanding
  | .error => l.error
  | .priority i => l.priority + i
  | .panicPriority i => l.panicPriority + i
  | .waitWrites => l.waitWrites
  | .disDebug => l.disDebug
  | .abort => l.abort
  | .reset => l.reset

/-- `DMA_*` bits of DEBUG: the three error bits (R9, R173, G5). -/
structure DebugLayout where
  readLastNotSet : Nat := 0
  fifo : Nat := 1
  read : Nat := 2
  deriving DecidableEq, Repr, Inhabited

def DebugLayout.all : List (Fin 3) := [0, 1, 2]

/-- The position in DEBUG of error bit `i`: READ_LAST_NOT_SET_ERROR, FIFO_ERROR, READ_ERROR. -/
def DebugLayout.pos (l : DebugLayout) (i : Fin 3) : Nat :=
  match i with
  | 0 => l.readLastNotSet
  | 1 => l.fifo
  | 2 => l.read

/-- The bits of the clock's control word (R116). -/
inductive ClkCtlBit where
  | src (i : Fin 4)
  | enab | kill | busy | flip
  | mash (i : Fin 2)
  | password (i : Fin 8)
  deriving DecidableEq, Repr

def ClkCtlBit.all : List ClkCtlBit :=
  [.src 0, .src 1, .src 2, .src 3, .enab, .kill, .busy, .flip, .mash 0, .mash 1,
   .password 0, .password 1, .password 2, .password 3, .password 4, .password 5, .password 6, .password 7]

/-- The bits of the clock's divisor word (R116). -/
inductive ClkDivBit where
  | divf (i : Fin 12)
  | divi (i : Fin 12)
  | password (i : Fin 8)
  deriving DecidableEq, Repr

def ClkDivBit.all : List ClkDivBit :=
  (List.finRange 12).map .divf ++ (List.finRange 12).map .divi ++ (List.finRange 8).map .password

/-- The PWM clock's layout: the position of each field's lowest bit, the password of a write, the code of the
oscillator (R116, G9). -/
structure ClkLayout where
  src : Nat := 0
  enab : Nat := 4
  kill : Nat := 5
  busy : Nat := 7
  flip : Nat := 8
  mash : Nat := 9
  divf : Nat := 0
  divi : Nat := 12
  password : Nat := 24
  passwordValue : BitVec 8 := 0x5A
  osc : BitVec 4 := 1
  deriving DecidableEq, Repr, Inhabited

def ClkLayout.ctlPos (l : ClkLayout) : ClkCtlBit → Nat
  | .src i => l.src + i
  | .enab => l.enab
  | .kill => l.kill
  | .busy => l.busy
  | .flip => l.flip
  | .mash i => l.mash + i
  | .password i => l.password + i

def ClkLayout.divPos (l : ClkLayout) : ClkDivBit → Nat
  | .divf i => l.divf + i
  | .divi i => l.divi + i
  | .password i => l.password + i

/-! ## Parameters -/

/-- The parameters of R9, fixed for the life of a block. WORD, PA_BITS and BUF_ALIGN, to which R9 gives one value, are
the constants of `Config` (log entry 5). `ram`, `dmaRam`, `hostWindowPa`, `dmaPa` and `portRegions`
are the platform's memory layout, which R72, R75 and R76 leave to the platform. -/
structure Params where
  /-- K: symbol width in bits. -/
  k : Nat
  /-- A_HIGH: leading ones of the symbol of a 1. -/
  aHigh : Nat
  /-- A_LOW: leading ones of the symbol of a 0. -/
  aLow : Nat
  /-- C: colour bytes per pixel. -/
  c : Nat
  /-- R: reset padding bytes. -/
  r : Nat
  /-- MAX_BUF_BYTES: the largest render buffer. -/
  maxBufBytes : Nat
  /-- CB_BYTES: the size of the control block's region (R161, G1). -/
  cbBytes : Nat
  /-- CB_ALIGN: its alignment (R161, G1). -/
  cbAlign : Nat
  /-- PWM_FIFO_PA: the physical address of the sink register. -/
  pwmFifoPa : Word
  /-- TI_VALUE: the transfer-information word. -/
  tiValue : Word
  /-- PRIO_MAX: the largest value of the channel's two priority fields. -/
  prioMax : BitVec 4
  /-- `DMA_*` offsets. -/
  dmaOffsets : DmaOffsets
  /-- `DMA_*` bits of CS. -/
  csLayout : CsLayout
  /-- `DMA_*` bits of DEBUG. -/
  debugLayout : DebugLayout
  /-- CLK_DIVISOR: a positive integer that fits DIVI (R112, R116). -/
  clkDivisor : BitVec 12
  /-- CLK_KILL_ON_STOP. -/
  clkKillOnStop : Bool
  /-- The clock's layout (R116). -/
  clkLayout : ClkLayout
  /-- GPIO_FUNC_CODE for the FUNC indices 0 to 5 (R120). -/
  gpioFuncCode : Vector (BitVec 3) 6
  /-- GPIO_PINS. -/
  gpioPins : Nat
  /-- The number of pins of one function-select word (R121, G11). -/
  fselPerWord : Nat
  /-- FIFO_DEPTH. -/
  fifoDepth : Nat
  /-- WIRE_ORDER. -/
  wireOrder : WireOrder
  /-- The address ranges that hold RAM (R75, R76). -/
  ram : List Region
  /-- The address ranges the allocator hands out: contiguous memory the channel reaches (R72, R299). -/
  dmaRam : List Region
  /-- The base of the host register window (R75). -/
  hostWindowPa : Word
  /-- The base of the DMA channel's registers (R75). -/
  dmaPa : Word
  /-- The address ranges of the external port registers (R72, R75). -/
  portRegions : List Region
  deriving DecidableEq, Repr

namespace Config

/-- BUF_ALIGN (R9, R69). -/
def bufAlign : Nat := 4
/-- The number of physical byte addresses, `2 ^ PA_BITS` (R9, R60). -/
def paSpace : Nat := 4294967296

/-- The general-knowledge default of GPIO_FUNC_CODE (R120). -/
def defaultFuncCode : Vector (BitVec 3) 6 := #v[0b100, 0b101, 0b110, 0b111, 0b011, 0b010]

/-- The example parameters `EX` of spec/95_test_vectors.md section 0. The layout fields `ram`, `dmaRam`,
`hostWindowPa`, `dmaPa` and `portRegions` have no value in the spec: DESIGN CHOICE (log entry 2). -/
def ex : Params where
  k := 3
  aHigh := 2
  aLow := 1
  c := 3
  r := 4
  maxBufBytes := 0x10000
  cbBytes := 32
  cbAlign := 32
  pwmFifoPa := 0x7E20C018
  tiValue := 0x04050148
  prioMax := 15
  dmaOffsets := {}
  csLayout := {}
  debugLayout := {}
  clkDivisor := 5
  clkKillOnStop := false
  clkLayout := {}
  gpioFuncCode := defaultFuncCode
  gpioPins := 54
  fselPerWord := 10
  fifoDepth := 16
  wireOrder := .addressOrder
  ram := [⟨0, 0x20000000⟩]
  dmaRam := [⟨0x00100000, 0x00100000⟩]
  hostWindowPa := 0x7E300000
  dmaPa := 0x7E007000
  portRegions := [⟨0x7E101000, 0x1000⟩, ⟨0x7E200000, 0x1000⟩, ⟨0x7E20C000, 0x1000⟩]

end Config

/-- What one SEQ step draws (R14), used only by a step whose rule draws it. -/
structure Draw where
  /-- The allocator's answer: `none` is FAIL, `some base` proposes a region (R72). -/
  alloc : Option Nat := none
  /-- The unspecified first bytes of a freshly allocated region (R72); bytes beyond the list keep what memory held. -/
  fill : List Byte := []
  /-- The drawn bits of a channel register read (R171 to R173), and the error bits after a channel reset (R178). -/
  word : Word := 0
  deriving DecidableEq, Repr, Inhabited

/-- One agent's turn, with the choices its step makes (R16). -/
inductive Turn where
  /-- HOST performs its next access (R96). -/
  | host
  /-- SEQ takes its next step (R213). -/
  | seq (d : Draw)
  /-- The DMA agent takes its fetch, word-transfer or completion step (R182 to R184). -/
  | dma
  /-- The DMA agent takes an error step with the error bits `bits` and CS.ACTIVE left at `active` (R187). -/
  | dmaError (bits : BitVec 3) (active : Bool)
  /-- SINK drains one word (R186). -/
  | sink
  /-- ENV sets the clock's BUSY flag to `busy` (R114). -/
  | env (busy : Bool)
  /-- The reset input is asserted (R280 to R282). -/
  | blockReset
  /-- The platform takes back a region that a reset made the block forget (R282, U4). -/
  | reclaim (r : Region)
  deriving DecidableEq, Repr, Inhabited

/-- The free turn: which agent moves at the `n`-th step whose turn the state does not list, and what it draws.
It has no body, so that nothing can be proved of it (R16: any agent may take a step whenever it has one). -/
opaque Config.freeTurn : Nat → Turn

end Sys2Proof
end

