-- ==== Sys2Proof/Syntax.lean ====
section
/-!
DEFINITION. The instruction set: the four commands of the opcode map (R94, spec/opcode_table.json).
No command carries a field: every operand is read from a host register when the command is accepted (R93).
-/
namespace Sys2Proof

/-- The commands a host can submit by writing the CMD register (R3, R94). -/
inductive Instr where
  /-- R210: does nothing. -/
  | nop
  /-- R214: allocates and fills the control block, allocates the render buffer, sets up clock, PWM and GPIO. -/
  | init
  /-- R225: stops the channel, encodes the input, starts a fresh one-shot transfer. -/
  | render
  /-- R234: stops the channel and the clock and releases both regions; terminal. -/
  | cleanup
  deriving DecidableEq, Repr

end Sys2Proof
end

