-- ==== Sys2Proof/WellFormed.lean ====
section
/-!
DEFINITION. What makes an instruction and a parameter set well formed. A command has no field, so every command
is well formed; the checks of this hardware are those on the parameters, which a model makes before it runs (R10).
-/
namespace Sys2Proof

/-- Every command of the opcode map is well formed: it has no operand field (R93, R94). -/
def Instr.wf : Instr → Bool
  | .nop => true
  | .init => true
  | .render => true
  | .cleanup => true

/-- The parameter constraints of R10. (`R ≥ 0` holds of every natural number.) -/
def Params.constraintsOk (p : Params) : Bool :=
  (p.k == 3 || p.k == 4) &&
  decide (1 ≤ p.aLow) && decide (p.aLow < p.aHigh) && decide (p.aHigh ≤ p.k - 1) &&
  decide (1 ≤ p.c) &&
  p.maxBufBytes % 4 == 0 &&
  p.pwmFifoPa.toNat % 4 == 0

/-- The bounds that the value column of R9, and R112, give (log entry 23). -/
def Params.boundsOk (p : Params) : Bool :=
  decide (4 ≤ p.maxBufBytes) && decide (1 ≤ p.fifoDepth) && p.clkDivisor != 0

/-- Distinct positions inside a 32-bit word. -/
def positionsOk (l : List Nat) : Bool := l.all (fun i => decide (i < 32)) && decide l.Nodup

/-- What the general-knowledge layouts must meet to be layouts: the fields of a word do not share a bit, the channel's
registers are distinct aligned words, the control block has room for its eight words at aligned addresses, and a
function-select word for its pins (log entry 23). -/
def Params.layoutOk (p : Params) : Bool :=
  positionsOk (CsBit.all.map p.csLayout.pos) && positionsOk (DebugLayout.all.map p.debugLayout.pos) &&
  positionsOk (ClkCtlBit.all.map p.clkLayout.ctlPos) && positionsOk (ClkDivBit.all.map p.clkLayout.divPos) &&
  p.dmaOffsets.list.all (fun o => o % 4 == 0) && decide p.dmaOffsets.list.Nodup &&
  decide (32 ≤ p.cbBytes) && decide (0 < p.cbAlign) && p.cbAlign % 4 == 0 &&
  decide (1 ≤ p.fselPerWord) && decide (3 * p.fselPerWord ≤ 32)

/-- The parameter sets a model is built for (R9, R10). -/
def Params.ok (p : Params) : Bool := p.constraintsOk && p.boundsOk && p.layoutOk

end Sys2Proof
end

