-- ==== Sys2Proof/Decode.lean ====
section
/-!
DEFINITION. Decoding a command word (R91 to R95), total on every 32-bit word and rejecting by name, and the encoder
written from the same opcode map.
-/
namespace Sys2Proof

/-- What a command word decodes to: a command, or one of the two reserved forms of R95. -/
inductive Decoded where
  | command (i : Instr)
  /-- RSVD, `w[31:4]`, is not 0. -/
  | reservedBits
  /-- OP, `w[3:0]`, is 0x4 to 0xF. -/
  | reservedOp
  deriving DecidableEq, Repr

/-- OP, bits [3:0] (R91). -/
def cmdOp (w : Word) : BitVec 4 := w.extractLsb' 0 4

/-- RSVD, bits [31:4] (R91). -/
def cmdRsvd (w : Word) : BitVec 28 := w.extractLsb' 4 28

/-- R92, less its busy check, which the commands make themselves (R286). -/
def decode (w : Word) : Decoded :=
  if cmdRsvd w ≠ 0 then .reservedBits
  else if cmdOp w = 0x0 then .command .nop
  else if cmdOp w = 0x1 then .command .init
  else if cmdOp w = 0x2 then .command .render
  else if cmdOp w = 0x3 then .command .cleanup
  else .reservedOp

/-- The word that submits a command: the `match` column of R94. -/
def encode : Instr → Word
  | .nop => 0x00000000
  | .init => 0x00000001
  | .render => 0x00000002
  | .cleanup => 0x00000003

/-- The command the decoder reads from a row of the opcode table. A command is one 32-bit access, to which no byte
order applies (R91), so the word is the number itself; a longer row would be no command word (R90). -/
def decodeTableWord (nbits w : Nat) : Option Instr :=
  if nbits ≤ 32 then
    match decode (BitVec.ofNat 32 (w % 2 ^ nbits)) with
    | .command i => some i
    | .reservedBits => none
    | .reservedOp => none
  else none

end Sys2Proof
end

