-- ==== Sys2Proof/Machine/State.lean ====
section
/-!
DEFINITION. The state of a block and its surroundings (R20), as plain data: the host register window, the engine state,
the sequencer, the allocation state, physical memory, the DMA channel, the clock, GPIO and PWM ports, and the inputs
from outside (the host's remaining program and the list of turns). INVENTORY.md lists every piece with its rule.
-/
namespace Sys2Proof.Machine

/-- STATUS.STATE (R25, R42). -/
inductive EngineState where
  | uninit
  | idle
  | rendering
  | shutdown
  deriving DecidableEq, Repr

/-- The error codes 1 to 8 (R251). -/
inductive ErrCode where
  | rejectOversize
  | allocCb
  | allocBuf
  | dmaError
  | cmdReserved
  | cmdState
  | cmdArg
  | cmdBusy
  deriving DecidableEq, Repr

/-- The read/write and read-only registers of the host window (R21), less what other state already holds:
STATUS.STATE is `State.engine`, STATUS.BUSY is `State.busy`, PARAMS and RESET_PAD are hardwired to the parameters,
and CMD holds nothing. -/
structure HostRegs where
  /-- STATUS[3] REJECT (R27). -/
  reject : Bool
  /-- STATUS[4] ALLOCFAIL (R27). -/
  allocFail : Bool
  /-- STATUS[5] DMAERR (R27). -/
  dmaErr : Bool
  /-- STATUS[6] CMDERR (R27). -/
  cmdErr : Bool
  /-- STATUS[11:8] ERRCODE (R28). -/
  errCode : BitVec 4
  /-- PIXEL_COUNT (R30). -/
  pixelCount : Word
  /-- GPIO_SEL[15:0]; its upper half reads 0 (R31). -/
  gpioSel : BitVec 16
  /-- IN_ADDR (R32). -/
  inAddr : Word
  /-- IN_LEN (R33). -/
  inLen : Word
  /-- BUF_LEN (R34). -/
  bufLen : Word
  /-- BUF_PA (R35). -/
  bufPa : Word
  /-- CB_PA (R36). -/
  cbPa : Word
  /-- DMA_DEBUG_SNAP (R37). -/
  debugSnap : Word
  /-- CAPACITY (R38). -/
  capacity : Word
  deriving DecidableEq, Repr

/-- The steps S1 to S6 of DMA_STOP (R191). -/
inductive StopPc where
  | s1 | s2 | s3 | s4 | s5 | s6
  deriving DecidableEq, Repr

/-- The port operations of ClkStop (R113): the read, the write with the SRC and MASH it read, the wait. -/
inductive ClkStopPc where
  | read
  | write (src : BitVec 4) (mash : BitVec 2)
  | waitLow
  deriving DecidableEq, Repr

/-- The port operations of ClkConfigure (R111). -/
inductive ClkPc where
  | stop (c : ClkStopPc)
  | div
  | source
  | enable
  | waitHigh
  deriving DecidableEq, Repr

/-- The port operations of GpioSetFunction (R121): the read, the write of the word it computed. -/
inductive GpioPc where
  | read
  | write (w : Word)
  deriving DecidableEq, Repr

/-- The steps of ENCODE (R142, R143): an input read, a write of a byte of the expansion of `x`, a zero write. -/
inductive EncodePc where
  | read
  | write (x : Byte)
  | zero
  deriving DecidableEq, Repr

/-- The steps T1 to T3 of DMA_START (R201). -/
inductive StartPc where
  | t1 | t2 | t3
  deriving DecidableEq, Repr

/-- The sequencer's `cmd` and `pc` (R41): the step labels of INIT (`i…`, R218 to R222), RENDER (`p…`, R229) and CLEANUP
(`q…`, R237), with the local values the pseudocode holds at that label; `done` when no command runs. -/
inductive Pc where
  | done
  | i1
  | i2 (cb : Region) (i : Nat)
  | i3 (cb : Region)
  | i4 (cb : Region)
  | i5 (cb buf : Region) (i : Nat)
  | i6 (cb buf : Region) (c : ClkPc)
  | i7 (cb buf : Region)
  | i8 (cb buf : Region) (g : GpioPc)
  | i9 (cb buf : Region)
  | iF
  | p1 (t : StopPc)
  | p2 (e : EncodePc)
  | p3 (t : StartPc)
  | p4
  | q1 (t : StopPc)
  | q2 (c : ClkStopPc)
  | q3
  | q4
  deriving DecidableEq, Repr

/-- The operation being executed, `cmd` of R41. -/
inductive Cmd where
  | none
  | init
  | render
  | cleanup
  deriving DecidableEq, Repr

/-- The sequencer's hidden state (R41). `cmd` is the function `Pc.cmd` of `pc`. -/
structure Sequencer where
  pc : Pc
  /-- P, the latched pixel count. -/
  p : Word
  pin : BitVec 8
  func : BitVec 8
  inAddr : Word
  inLen : Word
  /-- The encoder's position. -/
  j : Nat
  deriving DecidableEq, Repr

/-- The allocation state (R44). -/
inductive AllocState where
  | none
  | cbOnly (cb : Region)
  | pair (cb buf : Region)
  deriving DecidableEq, Repr

/-- Physical memory (R60): (address, byte) pairs, addresses strictly rising, no byte equal to what an unlisted address
reads as. -/
abbrev Memory := List Host.Cell

/-- The DMA channel (R170 to R174). CS.ERROR is not stored (R174); the read-only copies and the other CS and DEBUG
bits are drawn at each read (R171 to R173). -/
structure Dma where
  /-- CS.ACTIVE. -/
  active : Bool
  /-- CS.END. -/
  ended : Bool
  /-- CS.INT. -/
  intr : Bool
  /-- CS.PRIORITY. -/
  priority : BitVec 4
  /-- CS.PANIC_PRIORITY. -/
  panicPriority : BitVec 4
  /-- CS.WAIT_FOR_OUTSTANDING_WRITES. -/
  waitWrites : Bool
  /-- CS.DISDEBUG. -/
  disDebug : Bool
  /-- CONBLK_AD. -/
  conblkAd : Word
  /-- CONBLK_AD has been written since the last channel reset. -/
  addrLatched : Bool
  /-- The three error bits of DEBUG (R173). -/
  debugErr : BitVec 3
  /-- The control block has been fetched for the current activation. -/
  loaded : Bool
  /-- The loaded control block. -/
  ti : Word
  src : Word
  dst : Word
  len : Word
  next : Word
  /-- Bytes transferred, `done` of R170. -/
  pos : Nat
  deriving DecidableEq, Repr

/-- The clock port (R110, R116): CLK.CTL and CLK.DIV by their fields. -/
structure Clk where
  src : BitVec 4
  mash : BitVec 2
  enab : Bool
  kill : Bool
  /-- FLIP (R116). -/
  flip : Bool
  /-- Read-only; changed by ENV alone (R114). -/
  busy : Bool
  /-- DIVI, the integer part of the divisor (R116). -/
  divi : BitVec 12
  /-- DIVF, its fraction (R116). -/
  divf : BitVec 12
  deriving DecidableEq, Repr

/-- The PWM port and its sink (R110, R186). -/
structure Pwm where
  armed : Bool
  /-- The sink's queue, oldest word first. -/
  fifo : List Word
  /-- WIRE, the bits serialised so far, oldest first. -/
  wire : List Bool
  deriving DecidableEq, Repr

/-- One statement of a host program (R96, R98). A window offset has 6 bits: an access at 0x40 or above is no access to
the window (R22). A field of POLL is given by its bits `hi` down to `lo`. -/
inductive HostStmt where
  /-- `WR`: a window write of `width` bits (32 unless a duty is broken, R66). -/
  | wr (off : BitVec 6) (width : Nat) (v : Word)
  /-- `RD`: a window read of `width` bits, the value recorded under `name`. -/
  | rd (off : BitVec 6) (width : Nat) (name : Nat)
  /-- `POLL`: repeats a 32-bit read until the field equals `v`. -/
  | poll (off : BitVec 6) (hi lo : Nat) (v : Word)
  /-- One byte write of `MEMW`. -/
  | memw (addr : Word) (b : Byte)
  /-- A host read of one byte of memory (R62, R143). -/
  | memr (addr : Word) (name : Nat)
  deriving DecidableEq, Repr

/-- The whole state (R20). `cfg` is the parameter set, which no step changes (R9, R20). -/
structure State where
  cfg : Params
  regs : HostRegs
  /-- STATE (R42). -/
  engine : EngineState
  sqr : Sequencer
  alloc : AllocState
  /-- The regions the allocator has given and that have not been released (R72). -/
  live : List Region
  mem : Memory
  dma : Dma
  clk : Clk
  /-- GPIO.FSEL[n] for every `n` an 8-bit PIN can name, whatever the pins a word covers (R110, R121). -/
  fsel : Vector Word 256
  pwm : Pwm
  /-- The host's remaining program (R96). -/
  host : List HostStmt
  /-- What the host's reads returned, oldest first. -/
  reads : List (Nat × Word)
  /-- The turns to come, with what they draw; when empty, turns are free values. The model's own field. -/
  turns : List Turn
  /-- The number of free turns taken. The model's own field. -/
  tick : Nat
  deriving DecidableEq, Repr

/-- The reasons a run has no meaning from a step (R255). Every one is safe: the model stops where hardware would go on. -/
inductive Fault where
  /-- R66: raised by HOST, on a window access that is not 32-bit and 4-aligned. Safe. -/
  | hostAccessWidth
  /-- R80: raised by HOST, on a write to an allocated region. Safe. -/
  | hostWritesBlockMemory
  /-- R76 extended to HOST: raised by a host memory access outside the mapped RAM (log entry 12). Safe. -/
  | hostUnmapped
  /-- R73: raised at RENDER acceptance. Safe. -/
  | inputOverlap
  /-- R76: raised at RENDER acceptance. Safe. -/
  | inputUnmapped
  /-- R76: raised by SEQ or DMA, on a memory access outside the mapped RAM (log entry 12); no run reaches it but one in
  which the platform reclaims a region that an active transfer reads (log entry 11). Safe. -/
  | busUnmapped
  /-- R121: raised by SEQ at INIT step I8. Safe. -/
  | gpioRange
  /-- R182: raised by a CS write that activates with no address latched. Safe. -/
  | dmaUndefinedCb
  /-- R182: raised by a CS write that activates with a misaligned CONBLK_AD. Safe. -/
  | dmaCbMisaligned
  /-- R164, R182: raised by the control block fetch. Safe. -/
  | dmaChain
  /-- R182: raised by the control block fetch. Safe. -/
  | dmaLenUnaligned
  /-- R175: raised by a CS write with ABORT. Safe. -/
  | dmaAbortUnmodelled
  /-- R175: raised by a CS write that clears ACTIVE while active. Safe. -/
  | dmaPauseUnmodelled
  /-- R176: raised by a CONBLK_AD write while active. Safe. -/
  | dmaCbWhileActive
  deriving DecidableEq, Repr

/-- The reasons the model gives no meaning. Every one is safe: the model stops. -/
inductive Refusal where
  /-- An instruction with no meaning yet; raised by no arm of this model. Safe. -/
  | notModelled (mnemonic : String)
  /-- R10: raised by `step`, when the parameter set is not one a model is built for. Safe. -/
  | badParameters
  /-- R182: raised by the control block fetch, when TI is not TI_VALUE. Safe. -/
  | dmaTiUnmodelled
  /-- R76, R183: raised by a word transfer whose DEST_AD is not the sink (log entry 13). Safe. -/
  | dmaDestUnmodelled
  deriving DecidableEq, Repr

/-- What a step answers. -/
abbrev Result := Host.Outcome State Fault Refusal

/-- The host registers after reset (R21, R24, R49). -/
def HostRegs.reset : HostRegs where
  reject := false
  allocFail := false
  dmaErr := false
  cmdErr := false
  errCode := 0
  pixelCount := 0
  gpioSel := 0
  inAddr := 0
  inLen := 0
  bufLen := 0
  bufPa := 0
  cbPa := 0
  debugSnap := 0
  capacity := 0

/-- The sequencer after reset (R41). R41 gives `pc` and the latched operands; that `j` is 0 is a DESIGN CHOICE
(log entry 24). -/
def Sequencer.reset : Sequencer where
  pc := .done
  p := 0
  pin := 0
  func := 0
  inAddr := 0
  inLen := 0
  j := 0

/-- The channel right after power-on. R179 gives ACTIVE = 0 and leaves the rest unspecified: zeros are a DESIGN CHOICE
(log entry 3). -/
def Dma.powerOn : Dma where
  active := false
  ended := false
  intr := false
  priority := 0
  panicPriority := 0
  waitWrites := false
  disDebug := false
  conblkAd := 0
  addrLatched := false
  debugErr := 0
  loaded := false
  ti := 0
  src := 0
  dst := 0
  len := 0
  next := 0
  pos := 0

/-- The clock right after power-on, unspecified by R110: zeros are a DESIGN CHOICE (log entry 3). -/
def Clk.powerOn : Clk where
  src := 0
  mash := 0
  enab := false
  kill := false
  flip := false
  busy := false
  divi := 0
  divf := 0

/-- The machine right after reset (R49, R280): the block's own state as the spec gives it, memory with nothing listed,
the ports at the values log entry 3 names, the parameters of log entry 2, no host program and no listed turn. -/
def State.reset : State where
  cfg := Config.ex
  regs := HostRegs.reset
  engine := .uninit
  sqr := Sequencer.reset
  alloc := .none
  live := []
  mem := []
  dma := Dma.powerOn
  clk := Clk.powerOn
  fsel := Vector.replicate 256 0
  pwm := ⟨false, [], []⟩
  host := []
  reads := []
  turns := []
  tick := 0

/-! The named updates of State, one per field. -/

def State.setRegs (s : State) (x : HostRegs) : State := { s with regs := x }
def State.setEngine (s : State) (x : EngineState) : State := { s with engine := x }
def State.setSqr (s : State) (x : Sequencer) : State := { s with sqr := x }
def State.setAlloc (s : State) (x : AllocState) : State := { s with alloc := x }
def State.setLive (s : State) (x : List Region) : State := { s with live := x }
def State.setMem (s : State) (x : Memory) : State := { s with mem := x }
def State.setDma (s : State) (x : Dma) : State := { s with dma := x }
def State.setClk (s : State) (x : Clk) : State := { s with clk := x }
def State.setFsel (s : State) (x : Vector Word 256) : State := { s with fsel := x }
def State.setPwm (s : State) (x : Pwm) : State := { s with pwm := x }
def State.setHost (s : State) (x : List HostStmt) : State := { s with host := x }
def State.setReads (s : State) (x : List (Nat × Word)) : State := { s with reads := x }
def State.setTurns (s : State) (x : List Turn) : State := { s with turns := x }
def State.setTick (s : State) (x : Nat) : State := { s with tick := x }

/-- `pc <- x` (R14). -/
def State.setPc (s : State) (x : Pc) : State := s.setSqr { s.sqr with pc := x }

end Sys2Proof.Machine
end

