-- ==== Sys2Proof/Machine/Flags.lean ====
section
/-!
DEFINITION. The STATUS register (R24 to R29): the codes of its fields, BUSY, the sticky bit of each error code, and the
word a read returns. STATUS is the only flag register of the block (R48).
-/
namespace Sys2Proof.Machine

/-- STATUS.STATE's code (R25). -/
def EngineState.code : EngineState → BitVec 2
  | .uninit => 0
  | .idle => 1
  | .rendering => 2
  | .shutdown => 3

/-- STATUS.ERRCODE's code (R251). -/
def ErrCode.code : ErrCode → BitVec 4
  | .rejectOversize => 1
  | .allocCb => 2
  | .allocBuf => 3
  | .dmaError => 4
  | .cmdReserved => 5
  | .cmdState => 6
  | .cmdArg => 7
  | .cmdBusy => 8

/-- The sticky bit an error sets (R27, R251). -/
def ErrCode.setSticky (c : ErrCode) (r : HostRegs) : HostRegs :=
  match c with
  | .rejectOversize => { r with reject := true }
  | .allocCb => { r with allocFail := true }
  | .allocBuf => { r with allocFail := true }
  | .dmaError => { r with dmaErr := true }
  | .cmdReserved => { r with cmdErr := true }
  | .cmdState => { r with cmdErr := true }
  | .cmdArg => { r with cmdErr := true }
  | .cmdBusy => { r with cmdErr := true }

/-- `cmd` of R41. -/
def Pc.cmd : Pc → Cmd
  | .done => .none
  | .i1 => .init
  | .i2 _ _ => .init
  | .i3 _ => .init
  | .i4 _ => .init
  | .i5 _ _ _ => .init
  | .i6 _ _ _ => .init
  | .i7 _ _ => .init
  | .i8 _ _ _ => .init
  | .i9 _ _ => .init
  | .iF => .init
  | .p1 _ => .render
  | .p2 _ => .render
  | .p3 _ => .render
  | .p4 => .render
  | .q1 _ => .cleanup
  | .q2 _ => .cleanup
  | .q3 => .cleanup
  | .q4 => .cleanup

/-- STATUS.BUSY (R26): 1 from the acceptance of a command with further steps until its last step completes. -/
def State.busy (s : State) : Bool := decide (s.sqr.pc ≠ .done)

/-- The number whose bit `i` below `n` is `f i`. -/
def bitsNat (f : Nat → Bool) : Nat → Nat
  | 0 => 0
  | n + 1 => (f 0).toNat + 2 * bitsNat (fun i => f (i + 1)) n

/-- The word whose bit `i` is `f i`. -/
def wordOfBits (f : Nat → Bool) : Word := BitVec.ofNat 32 (bitsNat f 32)

/-- The word of a layout: bit `pos b` is `v b` for each `b` of `fields`, any other bit `i` is `other i`. -/
def fieldWord {α : Type} (fields : List α) (pos : α → Nat) (v : α → Bool) (other : Nat → Bool) : Word :=
  wordOfBits fun i =>
    match fields.find? (fun b => pos b == i) with
    | some b => v b
    | none => other i

/-- One bit as a word with that bit in position 0. -/
def boolWord (b : Bool) : Word := if b then 1 else 0

/-- The word a host read of STATUS returns (R24). -/
def State.statusWord (s : State) : Word :=
  s.engine.code.zeroExtend 32
  ||| (boolWord s.busy <<< 2)
  ||| (boolWord s.regs.reject <<< 3)
  ||| (boolWord s.regs.allocFail <<< 4)
  ||| (boolWord s.regs.dmaErr <<< 5)
  ||| (boolWord s.regs.cmdErr <<< 6)
  ||| (s.regs.errCode.zeroExtend 32 <<< 8)

end Sys2Proof.Machine
end

