-- ==== Sys2Proof/Machine/Ops.lean ====
section
/-!
DEFINITION. The named operations every agent shares: recording an error and acknowledging it (R250, R259), physical
memory (R60 to R64), the allocator (R72).
-/
namespace Sys2Proof.Machine

/-! ## Errors -/

/-- `raise Error(code)` (R250): the block's whole exception entry (R258). It records the code and its sticky bit and
changes nothing else. -/
def raiseError (c : ErrCode) (s : State) : State :=
  s.setRegs { c.setSticky s.regs with errCode := c.code }

/-- A host write of `w` to STATUS (R29): the block's only acknowledgement of errors (R259). -/
def statusWrite (w : Word) (s : State) : State :=
  s.setRegs { s.regs with
    reject := s.regs.reject && !w.getLsbD 3
    allocFail := s.regs.allocFail && !w.getLsbD 4
    dmaErr := s.regs.dmaErr && !w.getLsbD 5
    cmdErr := s.regs.cmdErr && !w.getLsbD 6
    errCode := if w.getLsbD 31 then 0 else s.regs.errCode }

/-- A command word or command that is discarded with code `c` (R212). -/
def discardCommand (c : ErrCode) (s : State) : Result := .next (raiseError c s)

/-! ## Regions -/

def regionContains (r : Region) (a : Nat) : Bool :=
  decide (r.base ≤ a) && decide (a < r.base + r.size)

/-- Two regions share an address. -/
def regionsOverlap (r t : Region) : Bool :=
  decide (0 < r.size) && decide (0 < t.size) &&
  decide (r.base < t.base + t.size) && decide (t.base < r.base + r.size)

/-! ## Physical memory -/

/-- What an address that memory does not list reads as. R60 leaves the contents at reset unspecified: 0 is a
DESIGN CHOICE (log entry 4). -/
def unlistedByte : Byte := 0

/-- One byte of memory (R13). -/
def memRead : Memory → Nat → Byte
  | [], _ => unlistedByte
  | (x, c) :: m, a => if a = x then c else memRead m a

/-- Memory with one byte written, in canonical form (R13). -/
def memWrite : Memory → Nat → Byte → Memory
  | [], a, b => if b = unlistedByte then [] else [(a, b)]
  | (x, c) :: m, a, b =>
    if a < x then (if b = unlistedByte then (x, c) :: m else (a, b) :: (x, c) :: m)
    else if a = x then (if b = unlistedByte then m else (a, b) :: m)
    else (x, c) :: memWrite m a b

/-- Every address of `m` lies above `a`, rising, below the end of the address space, and no byte is the unlisted one. -/
def wfAbove : Nat → Memory → Bool
  | _, [] => true
  | lo, (x, c) :: m =>
    decide (lo ≤ x) && decide (x < Config.paSpace) && decide (c ≠ unlistedByte) && wfAbove (x + 1) m

/-- The canonical form of memory: addresses strictly rising and inside the address space (R60), no byte equal to what an
unlisted address reads as. -/
def Memory.wf (m : Memory) : Bool := wfAbove 0 m

/-- Byte `i` of a word, counted from the least significant (R64). -/
def wordByte (v : Word) (i : Nat) : Byte := v.extractLsb' (8 * i) 8

/-- `MemRead(a, 4)` (R64): the byte at `a` is least significant. -/
def memRead32 (m : Memory) (a : Nat) : Word :=
  memRead m (a + 3) ++ memRead m (a + 2) ++ memRead m (a + 1) ++ memRead m a

/-- `MemWrite(a, 4, v)` (R64). -/
def memWrite32 (m : Memory) (a : Nat) (v : Word) : Memory :=
  memWrite (memWrite (memWrite (memWrite m a (wordByte v 0)) (a + 1) (wordByte v 1)) (a + 2) (wordByte v 2))
    (a + 3) (wordByte v 3)

/-- The bytes of a list written at rising addresses from `a`. -/
def memWriteList (m : Memory) (a : Nat) : List Byte → Memory
  | [] => m
  | b :: bs => memWriteList (memWrite m a b) (a + 1) bs

/-- The device registers (R62), which an allocation must avoid (R72): the host window, the sink, the ports, the channel. -/
def deviceRegions (p : Params) : List Region :=
  ⟨p.hostWindowPa.toNat, 0x40⟩ :: ⟨p.pwmFifoPa.toNat, 4⟩ ::
    (p.portRegions ++ p.dmaOffsets.list.map (fun o => ⟨p.dmaPa.toNat + o, 4⟩))

/-- `a` is mapped RAM of the platform, inside the address space (R60, R76). A device register is not memory (R62, R63), even
where a RAM range of the platform covers it (DEDUCED, log entry 12). -/
def State.mapped (s : State) (a : Nat) : Bool :=
  decide (a < Config.paSpace) && s.cfg.ram.any (fun r => regionContains r a) &&
    (deviceRegions s.cfg).all (fun r => !regionContains r a)

/-- The `n` bytes from `a` are all mapped RAM. -/
def State.mappedRange (s : State) (a n : Nat) : Bool :=
  (List.range n).all (fun i => s.mapped (a + i))

/-- A byte write of SEQ, `none` outside the mapped RAM (R76). -/
def State.store8 (s : State) (a : Nat) (b : Byte) : Option State :=
  if s.mapped a then some (s.setMem (memWrite s.mem a b)) else none

/-- A word write of SEQ, `none` outside the mapped RAM (R76). -/
def State.store32 (s : State) (a : Nat) (v : Word) : Option State :=
  if s.mappedRange a 4 then some (s.setMem (memWrite32 s.mem a v)) else none

/-! ## Allocation -/

/-- `r` lies whole in one range of the memory the allocator hands out (R72). -/
def State.inDmaRam (s : State) (r : Region) : Bool :=
  s.cfg.dmaRam.any (fun t => decide (t.base ≤ r.base) && decide (r.base + r.size ≤ t.base + t.size))

/-- `r` is a region `Alloc(r.size, align)` may return (R72). That it is mapped RAM is DEDUCED from R76 (log entry 7). -/
def State.allocatable (s : State) (r : Region) (align : Nat) : Bool :=
  r.base % align == 0 && decide (r.base + r.size ≤ Config.paSpace) && s.mappedRange r.base r.size && s.inDmaRam r &&
  s.live.all (fun t => !regionsOverlap r t) && (deviceRegions s.cfg).all (fun t => !regionsOverlap r t)

/-- `Alloc(size, align)` (R72) with the drawn answer of `d`: `none` is FAIL, and so is an answer the rule does not allow.
The first bytes of the region take the drawn contents. -/
def allocate (d : Draw) (size align : Nat) (s : State) : Option (Region × State) :=
  match d.alloc with
  | none => none
  | some base =>
    if s.allocatable ⟨base, size⟩ align then
      some (⟨base, size⟩,
        (s.setLive (⟨base, size⟩ :: s.live)).setMem (memWriteList s.mem base (d.fill.take size)))
    else none

/-- `Release(region)` (R72): its bytes keep their values. -/
def release (r : Region) (s : State) : State := s.setLive (s.live.erase r)

/-- `a` lies in an allocated region: the host must not write it (R80). -/
def State.allocatedAt (s : State) (a : Nat) : Bool := s.live.any (fun r => regionContains r a)

end Sys2Proof.Machine
end

