-- ==== Sys2Proof/Machine/Operands.lean ====
section
/-!
DEFINITION. The operands of the commands (R93): read from host registers at acceptance and latched (R41).
-/
namespace Sys2Proof.Machine

/-- INIT's `pin`: GPIO_SEL[7:0] (R93). -/
def State.pinOperand (s : State) : BitVec 8 := s.regs.gpioSel.extractLsb' 0 8

/-- INIT's `func`: GPIO_SEL[15:8] (R93). -/
def State.funcOperand (s : State) : BitVec 8 := s.regs.gpioSel.extractLsb' 8 8

/-- Latches `P`, `pin` and `func` (R93, R216). -/
def latchInit (s : State) : State :=
  s.setSqr { s.sqr with p := s.regs.pixelCount, pin := s.pinOperand, func := s.funcOperand }

/-- Latches `inAddr` and `inLen` (R93, R228). -/
def latchRender (s : State) : State :=
  s.setSqr { s.sqr with inAddr := s.regs.inAddr, inLen := s.regs.inLen }

/-- The input region of the RENDER the operand registers describe (R73). -/
def State.inputRegion (s : State) : Region := ⟨s.regs.inAddr.toNat, s.regs.inLen.toNat⟩

/-- The regions of the allocation state (R44). -/
def AllocState.regions : AllocState → List Region
  | .none => []
  | .cbOnly cb => [cb]
  | .pair cb buf => [cb, buf]

/-- The regions a running INIT holds, which it may still release (R218). -/
def Pc.initRegions : Pc → List Region
  | .i2 cb _ => [cb]
  | .i3 cb => [cb]
  | .i4 cb => [cb]
  | .i5 cb buf _ => [cb, buf]
  | .i6 cb buf _ => [cb, buf]
  | .i7 cb buf => [cb, buf]
  | .i8 cb buf _ => [cb, buf]
  | .i9 cb buf => [cb, buf]
  | _ => []

/-- The regions the block holds, of its allocation state or of a running INIT. -/
def State.heldRegions (s : State) : List Region := s.alloc.regions ++ s.sqr.pc.initRegions

end Sys2Proof.Machine
end

