-- ==== Sys2Proof/Machine/Encoder.lean ====
section
/-!
DEFINITION. The pixel encoder (spec/41_pixel_encoder.md): symbols, the expansion of a byte, the buffer length and
capacity, and the steps of ENCODE.
-/
namespace Sys2Proof.Machine

/-! ## Symbols and expansion -/

/-- The symbol with `a` leading ones (R131). -/
def symbolOf (k a : Nat) : Nat := ((1 <<< a) - 1) <<< (k - a)

/-- `sym(bit)` (R131). -/
def sym (p : Params) (bit : Bool) : Nat := if bit then symbolOf p.k p.aHigh else symbolOf p.k p.aLow

/-- `E(x)`, the `8K`-bit expansion of a byte, the symbol of bit 7 most significant (R134). -/
def expand (p : Params) (x : Byte) : Nat :=
  [7, 6, 5, 4, 3, 2, 1, 0].foldl (fun e i => e * 2 ^ p.k + sym p (x.getLsbD i)) 0

/-- Output byte `n` of the group of `x`: `E(x)[8K − 1 − 8n : 8K − 8 − 8n]` (R134). -/
def expandByte (p : Params) (x : Byte) (n : Nat) : Byte :=
  BitVec.ofNat 8 (expand p x >>> (8 * p.k - 8 - 8 * n))

/-- The `K` output bytes of one input byte, in address order (R134, R135). -/
def expandBytes (p : Params) (x : Byte) : List Byte := (List.range p.k).map (expandByte p x)

/-- `Enc(bytes, L)` (R146): the expansions in order, padded with zeros or cut to `L` bytes. -/
def encodeBytes (p : Params) (bytes : List Byte) (len : Nat) : List Byte :=
  (bytes.flatMap (expandBytes p) ++ List.replicate len 0).take len

/-- A byte's bits from bit 7 down to bit 0 (R141). -/
def byteBits (b : Byte) : List Bool := [7, 6, 5, 4, 3, 2, 1, 0].map b.getLsbD

/-- The bits `1^a 0^(K − a)` of a symbol, the first bit on the wire first (R131). -/
def symbolBits (p : Params) (bit : Bool) : List Bool :=
  let a := if bit then p.aHigh else p.aLow
  List.replicate a true ++ List.replicate (p.k - a) false

/-- The logical waveform of `n` bytes of memory from `a` (R141). -/
def waveform (m : Memory) (a n : Nat) : List Bool :=
  (List.range n).flatMap (fun j => byteBits (memRead m (a + j)))

/-! ## Length and capacity -/

/-- `roundup4` (R15). -/
def roundup4 (n : Nat) : Nat := 4 * ((n + 3) / 4)

/-- `BufLen(P)` (R136), exact on natural numbers. -/
def bufLen (p : Params) (pixels : Nat) : Nat := roundup4 (pixels * p.c * p.k + p.r)

/-- `Cap(P)` (R138). -/
def cap (p : Params) (pixels : Nat) : Nat := pixels * p.c

/-! ## ENCODE -/

/-- The label after the encoder's position is set to `j`, `x` being the last input byte read (R142): the next byte of a
group, the next input read, the zero fill, or the end of ENCODE. -/
def encodePc (s : State) (x : Byte) : Pc :=
  if s.sqr.j < s.sqr.inLen.toNat * s.cfg.k then
    if s.sqr.j % s.cfg.k = 0 then .p2 .read else .p2 (.write x)
  else if s.sqr.j < s.regs.bufLen.toNat then .p2 .zero
  else .p3 .t1

/-- `j <- v`. -/
def State.setJ (s : State) (v : Nat) : State := s.setSqr { s.sqr with j := v }

/-- Entering ENCODE: `j <- 0` (R142). -/
def enterEncode (s : State) : State := (s.setJ 0).setPc (encodePc (s.setJ 0) 0)

/-- One byte write of ENCODE at the position `j`, then `j <- j + 1` (R142). -/
def encodeStore (x b : Byte) (s : State) : Result :=
  match s.store8 (s.regs.bufPa.toNat + s.sqr.j) b with
  | none => .fault .busUnmapped
  | some t => .next ((t.setJ (t.sqr.j + 1)).setPc (encodePc (t.setJ (t.sqr.j + 1)) x))

/-- The byte read of ENCODE: input byte `j / K` (R67, R142). -/
def encodeRead (s : State) : Result :=
  if s.mapped (s.sqr.inAddr.toNat + s.sqr.j / s.cfg.k) then
    .next (s.setPc (.p2 (.write (memRead s.mem (s.sqr.inAddr.toNat + s.sqr.j / s.cfg.k)))))
  else .fault .busUnmapped

/-- One step of ENCODE (R142, R143). -/
def encodeStep (e : EncodePc) (s : State) : Result :=
  match e with
  | .read => encodeRead s
  | .write x => encodeStore x (expandByte s.cfg x (s.sqr.j % s.cfg.k)) s
  | .zero => encodeStore 0 0 s

end Sys2Proof.Machine
end

