-- ==== Sys2Proof/Machine/Ports.lean ====
section
/-!
DEFINITION. The clock, GPIO and PWM ports (spec/40_clock_gpio_ports.md) with the sequences that drive them, the sink
(R186, R189) and ENV (R114).
-/
namespace Sys2Proof.Machine

/-! ## Clock -/

/-- ClkWriteCtl: writes the fields of CLK.CTL, FLIP to 0 (log entry 21); BUSY is read-only (R110, R111). -/
def clkWriteCtl (src : BitVec 4) (mash : BitVec 2) (enab kill : Bool) (c : Clk) : Clk :=
  { c with src := src, mash := mash, enab := enab, kill := kill, flip := false }

/-- ClkWriteDiv: a whole divisor (R111, R112, R116). -/
def clkWriteDiv (divisor : BitVec 12) (c : Clk) : Clk := { c with divi := divisor, divf := 0 }

/-- The word a write of `c`'s control fields puts on the bus: the password, and 0 for the read-only BUSY (R116) and
for the bits of no field (log entry 21). -/
def clkCtlWord (l : ClkLayout) (c : Clk) : Word :=
  fieldWord ClkCtlBit.all l.ctlPos
    (fun
      | .src i => c.src.getLsbD i
      | .enab => c.enab
      | .kill => c.kill
      | .busy => false
      | .flip => c.flip
      | .mash i => c.mash.getLsbD i
      | .password i => l.passwordValue.getLsbD i)
    (fun _ => false)

/-- A read of CLK.CTL (R116): the fields, and `draw` in the password's bits and in the bits of no field, of which no rule
says what they read as (log entry 21). -/
def clkCtlRead (l : ClkLayout) (c : Clk) (draw : Word) : Word :=
  fieldWord ClkCtlBit.all l.ctlPos
    (fun
      | .src i => c.src.getLsbD i
      | .enab => c.enab
      | .kill => c.kill
      | .busy => c.busy
      | .flip => c.flip
      | .mash i => c.mash.getLsbD i
      | .password i => draw.getLsbD (l.password + i))
    draw.getLsbD

/-- The word a write of `c`'s divisor puts on the bus (R116). -/
def clkDivWord (l : ClkLayout) (c : Clk) : Word :=
  fieldWord ClkDivBit.all l.divPos
    (fun
      | .divf i => c.divf.getLsbD i
      | .divi i => c.divi.getLsbD i
      | .password i => l.passwordValue.getLsbD i)
    (fun _ => false)

/-- One port operation of ClkStop (R113); `label` names the operations of the sequence, `exit` what follows it. -/
def clkStopStep (c : ClkStopPc) (label : ClkStopPc → Pc) (exit : Pc) (s : State) : State :=
  match c with
  | .read => s.setPc (if s.clk.enab then label (.write s.clk.src s.clk.mash) else label .waitLow)
  | .write src mash =>
    (s.setClk (clkWriteCtl src mash false s.cfg.clkKillOnStop s.clk)).setPc (label .waitLow)
  | .waitLow => if s.clk.busy then s else s.setPc exit

/-- One port operation of ClkConfigure (R111). -/
def clkConfigureStep (c : ClkPc) (label : ClkPc → Pc) (exit : Pc) (s : State) : State :=
  match c with
  | .stop c => clkStopStep c (fun c => label (.stop c)) (label .div) s
  | .div => (s.setClk (clkWriteDiv s.cfg.clkDivisor s.clk)).setPc (label .source)
  | .source => (s.setClk (clkWriteCtl s.cfg.clkLayout.osc 0 false false s.clk)).setPc (label .enable)
  | .enable => (s.setClk (clkWriteCtl s.cfg.clkLayout.osc 0 true false s.clk)).setPc (label .waitHigh)
  | .waitHigh => if s.clk.busy then s.setPc exit else s

/-- ENV changes BUSY to `b` where R114 lets it: up while ENAB is 1, down while ENAB is 0; else the turn does nothing. -/
def envStep (b : Bool) (s : State) : State :=
  if s.clk.enab = b then s.setClk { s.clk with busy := b } else s

/-! ## GPIO -/

/-- The function-select word of a pin (R121). -/
def fselIndex (p : Params) (pin : BitVec 8) : Fin 256 :=
  ⟨pin.toNat / p.fselPerWord, Nat.lt_of_le_of_lt (Nat.div_le_self _ _) pin.isLt⟩

/-- The position of a pin's field in its word (R121). -/
def fselShift (p : Params) (pin : BitVec 8) : Nat := 3 * (pin.toNat % p.fselPerWord)

/-- The word with the field at `sh` replaced by `code` (R121). -/
def fselInsert (w : Word) (sh : Nat) (code : BitVec 3) : Word :=
  (w &&& ~~~((0b111 : Word) <<< sh)) ||| (code.zeroExtend 32 <<< sh)

/-- GPIO_FUNC_CODE of a FUNC index; `none` for 6 or more (R120). -/
def funcCode (p : Params) (func : BitVec 8) : Option (BitVec 3) :=
  if h : func.toNat < 6 then some p.gpioFuncCode[func.toNat] else none

/-- One port operation of GpioSetFunction (R121). An out-of-range pin or function faults at the first. -/
def gpioStep (g : GpioPc) (label : GpioPc → Pc) (exit : Pc) (s : State) : Result :=
  match g with
  | .read =>
    match funcCode s.cfg s.sqr.func with
    | none => .fault .gpioRange
    | some code =>
      if s.sqr.pin.toNat < s.cfg.gpioPins then
        .next (s.setPc (label (.write
          (fselInsert s.fsel[fselIndex s.cfg s.sqr.pin] (fselShift s.cfg s.sqr.pin) code))))
      else .fault .gpioRange
  | .write w => .next ((s.setFsel (s.fsel.set (fselIndex s.cfg s.sqr.pin) w)).setPc exit)

/-! ## PWM and the sink -/

/-- PwmArm (R122): empties the sink's queue and arms the PWM. -/
def pwmArm (s : State) : State := s.setPwm { s.pwm with armed := true, fifo := [] }

/-- SinkAccept is enabled (R186). -/
def State.sinkReady (s : State) : Bool := s.pwm.armed && decide (s.pwm.fifo.length < s.cfg.fifoDepth)

/-- SinkAccept(w) (R186). -/
def sinkAccept (w : Word) (s : State) : State := s.setPwm { s.pwm with fifo := s.pwm.fifo ++ [w] }

/-- The bits a sink word becomes on the wire (R189). -/
def serialise (o : WireOrder) (w : Word) : List Bool :=
  match o with
  | .addressOrder => [0, 1, 2, 3].flatMap (fun i => byteBits (wordByte w i))
  | .wordMsbFirst => [3, 2, 1, 0].flatMap (fun i => byteBits (wordByte w i))

/-- A drain step of the sink is enabled (R186). -/
def State.sinkCanDrain (s : State) : Bool :=
  !s.pwm.fifo.isEmpty && s.pwm.armed && s.clk.enab && s.clk.busy

/-- A SINK turn: the head word leaves the queue for the wire (R186); nothing where no drain step is enabled. -/
def sinkStep (s : State) : State :=
  match s.pwm.fifo with
  | [] => s
  | w :: ws =>
    if s.sinkCanDrain then
      s.setPwm { s.pwm with fifo := ws, wire := s.pwm.wire ++ serialise s.cfg.wireOrder w }
    else s

end Sys2Proof.Machine
end

