-- ==== Sys2Proof/Machine/DmaChannel.lean ====
section
/-!
DEFINITION. The DMA channel (spec/42_dma_engine.md): its registers as SEQ reads and writes them, the DMA agent's steps,
and the block's two sequences DMA_STOP and DMA_START.
-/
namespace Sys2Proof.Machine

/-! ## Registers -/

/-- The channel's registers (R171). -/
inductive DmaReg where
  | cs | conblkAd | ti | sourceAd | destAd | txfrLen | stride | nextConbk | debug
  deriving DecidableEq, Repr

/-- Byte offset from the channel's base (R171). -/
def DmaReg.offset (o : DmaOffsets) : DmaReg → Nat
  | .cs => o.cs
  | .conblkAd => o.conblkAd
  | .ti => o.ti
  | .sourceAd => o.sourceAd
  | .destAd => o.destAd
  | .txfrLen => o.txfrLen
  | .stride => o.stride
  | .nextConbk => o.nextConbk
  | .debug => o.debug

/-- CS.ERROR (R174): no storage of its own. -/
def Dma.error (d : Dma) : Bool := decide (d.debugErr ≠ 0)

/-- A word of CS with these fields, its reserved bits 0 (R172). -/
def csWord (l : CsLayout) (v : CsBit → Bool) : Word := fieldWord CsBit.all l.pos v (fun _ => false)

/-- A read of CS (R172), `draw` giving the drawn bits; ABORT and RESET read 0. -/
def csRead (l : CsLayout) (d : Dma) (draw : Word) : Word :=
  csWord l fun
    | .active => d.active
    | .ended => d.ended
    | .intr => d.intr
    | .dreq => draw.getLsbD (l.pos .dreq)
    | .paused => draw.getLsbD (l.pos .paused)
    | .dreqStops => draw.getLsbD (l.pos .dreqStops)
    | .outstanding => draw.getLsbD (l.pos .outstanding)
    | .error => d.error
    | .priority i => d.priority.getLsbD i
    | .panicPriority i => d.panicPriority.getLsbD i
    | .waitWrites => d.waitWrites
    | .disDebug => d.disDebug
    | .abort => false
    | .reset => false

/-- The word with the error bits `e` at their places in DEBUG and 0 elsewhere (R173). -/
def debugErrWord (l : DebugLayout) (e : BitVec 3) : Word :=
  fieldWord DebugLayout.all l.pos (fun i => e.getLsbD i) (fun _ => false)

/-- DEBUG_ERR_MASK (R173). -/
def debugErrMask (l : DebugLayout) : Word := debugErrWord l 0b111

/-- A read of DEBUG (R173): the error bits, every other bit drawn. -/
def debugRead (l : DebugLayout) (d : Dma) (draw : Word) : Word :=
  fieldWord DebugLayout.all l.pos (fun i => d.debugErr.getLsbD i) draw.getLsbD

/-- The error bits of a word of DEBUG (R173). -/
def debugErrOf (l : DebugLayout) (v : Word) : BitVec 3 :=
  BitVec.ofBool (v.getLsbD (l.pos 2)) ++ BitVec.ofBool (v.getLsbD (l.pos 1)) ++ BitVec.ofBool (v.getLsbD (l.pos 0))

/-- `DmaRead` (R12, R171): the registers the block does not use read as a draw. -/
def dmaRead (r : DmaReg) (p : Params) (d : Dma) (draw : Word) : Word :=
  match r with
  | .cs => csRead p.csLayout d draw
  | .conblkAd => d.conblkAd
  | .ti => draw
  | .sourceAd => draw
  | .destAd => draw
  | .txfrLen => draw
  | .stride => draw
  | .nextConbk => draw
  | .debug => debugRead p.debugLayout d draw

/-- The module reset (R178); the error bits after it are drawn. -/
def channelReset (d : Dma) (err : BitVec 3) : Dma :=
  { d with
    active := false, ended := false, intr := false, priority := 0, panicPriority := 0, waitWrites := false
    disDebug := false, conblkAd := 0, addrLatched := false, loaded := false, pos := 0, debugErr := err }

/-- Activation (R182). -/
def activate (s : State) : Result :=
  if s.dma.addrLatched = false then .fault .dmaUndefinedCb
  else if s.dma.conblkAd.toNat % s.cfg.cbAlign ≠ 0 then .fault .dmaCbMisaligned
  else .next (s.setDma { s.dma with active := true, loaded := false, pos := 0 })

/-- The fields a write of `v` to CS leaves when it neither resets nor aborts (R175). -/
def csFields (l : CsLayout) (v : Word) (d : Dma) : Dma :=
  { d with
    ended := d.ended && !v.getLsbD (l.pos .ended)
    intr := d.intr && !v.getLsbD (l.pos .intr)
    priority := v.extractLsb' l.priority 4
    panicPriority := v.extractLsb' l.panicPriority 4
    waitWrites := v.getLsbD (l.pos .waitWrites)
    disDebug := v.getLsbD (l.pos .disDebug) }

/-- A write of `v` to CS (R175), `draw` giving the error bits a reset leaves. -/
def csWrite (v draw : Word) (s : State) : Result :=
  if v.getLsbD (s.cfg.csLayout.pos .reset) then .next (s.setDma (channelReset s.dma (draw.extractLsb' 0 3)))
  else if v.getLsbD (s.cfg.csLayout.pos .abort) then .fault .dmaAbortUnmodelled
  else if v.getLsbD (s.cfg.csLayout.pos .active) then
    if s.dma.active then .next (s.setDma (csFields s.cfg.csLayout v s.dma))
    else activate (s.setDma (csFields s.cfg.csLayout v s.dma))
  else if s.dma.active then .fault .dmaPauseUnmodelled
  else .next (s.setDma (csFields s.cfg.csLayout v s.dma))

/-- A write of `v` to CONBLK_AD (R176). -/
def conblkWrite (v : Word) (s : State) : Result :=
  if s.dma.active then .fault .dmaCbWhileActive
  else .next (s.setDma { s.dma with conblkAd := v, addrLatched := true })

/-- A write of `v` to DEBUG (R177). -/
def debugWrite (v : Word) (s : State) : State :=
  s.setDma { s.dma with debugErr := s.dma.debugErr &&& ~~~(debugErrOf s.cfg.debugLayout v) }

/-- The five DMA states of R180. -/
inductive DmaPhase where
  | errored | active | completed | armed | idle
  deriving DecidableEq, Repr

/-- R180: the first matching row decides. -/
def Dma.phase (d : Dma) : DmaPhase :=
  if d.error then .errored
  else if d.active then .active
  else if d.ended then .completed
  else if d.addrLatched then .armed
  else .idle

/-! ## The DMA agent -/

/-- The control block's word `i` as the channel reads it (R182). -/
def State.cbWord (s : State) (i : Nat) : Word := memRead32 s.mem (s.dma.conblkAd.toNat + 4 * i)

/-- The control block's eight words, in bytes (R161). -/
def cbWordBytes : Nat := 32

/-- The control block fetch (R182). -/
def dmaFetch (s : State) : Result :=
  if s.mappedRange s.dma.conblkAd.toNat cbWordBytes = false then .fault .busUnmapped
  else if s.cbWord 0 ≠ s.cfg.tiValue then .refused .dmaTiUnmodelled
  else if s.cbWord 5 ≠ 0 then .fault .dmaChain
  else if (s.cbWord 3).toNat % 4 ≠ 0 then .fault .dmaLenUnaligned
  else .next (s.setDma { s.dma with
    ti := s.cbWord 0, src := s.cbWord 1, dst := s.cbWord 2, len := s.cbWord 3, next := s.cbWord 5, loaded := true })

/-- A word transfer (R183), whose write is one to DEST_AD = PWM_FIFO_PA; no rule gives a write to another destination an
effect (log entry 13). -/
def dmaTransfer (s : State) : Result :=
  if s.mappedRange (s.dma.src.toNat + s.dma.pos) 4 = false then .fault .busUnmapped
  else if s.dma.dst ≠ s.cfg.pwmFifoPa then .refused .dmaDestUnmodelled
  else
    .next ((sinkAccept (memRead32 s.mem (s.dma.src.toNat + s.dma.pos)) s).setDma { s.dma with pos := s.dma.pos + 4 })

/-- Completion (R184). -/
def dmaComplete (s : State) : State := s.setDma { s.dma with ended := true, active := false }

/-- A turn of the DMA agent (R181 to R184): the fetch, a word transfer, or completion, whichever is enabled; nothing where
none is. -/
def dmaStep (s : State) : Result :=
  if s.dma.active = false ∨ s.dma.error then .next s
  else if s.dma.loaded = false then dmaFetch s
  else if s.dma.pos < s.dma.len.toNat then
    if s.sinkReady then dmaTransfer s else .next s
  else if s.dma.pos = s.dma.len.toNat then .next (dmaComplete s)
  else .next s

/-- An error step of the DMA agent (R187) with the drawn bits and the drawn ACTIVE; nothing where R187 allows none. -/
def dmaErrorStep (bits : BitVec 3) (active : Bool) (s : State) : State :=
  if s.dma.active = true ∧ s.dma.error = false ∧ bits ≠ 0 then
    s.setDma { s.dma with debugErr := s.dma.debugErr ||| bits, active := active }
  else s

/-! ## DMA_STOP and DMA_START -/

/-- Continues a register write with the next label. -/
def thenPc (r : Result) (pc : Pc) : Result :=
  match r with
  | .next s => .next (s.setPc pc)
  | .fault f => .fault f
  | .refused f => .refused f

/-- The CS word of S3, RESET alone: 0x80000000 in the default layout (R191, G8). -/
def stopResetWord (p : Params) : Word := csWord p.csLayout (fun b => b == .reset)

/-- The CS word of S5, END and INT: 0x00000006 in the default layout (R191, G8). -/
def stopClearWord (p : Params) : Word := csWord p.csLayout (fun b => b == .ended || b == .intr)

/-- One step of DMA_STOP (R191); `label` names its steps, `exit` is what follows S6. -/
def stopStep (t : StopPc) (label : StopPc → Pc) (exit : State → State) (d : Draw) (s : State) : Result :=
  match t with
  | .s1 =>
    if (dmaRead .cs s.cfg s.dma d.word).getLsbD (s.cfg.csLayout.pos .error) then .next (s.setPc (label .s2))
    else if (dmaRead .cs s.cfg s.dma d.word).getLsbD (s.cfg.csLayout.pos .active) then .next s
    else .next (s.setPc (label .s3))
  | .s2 =>
    .next ((raiseError .dmaError
      (s.setRegs { s.regs with debugSnap := dmaRead .debug s.cfg s.dma d.word &&& debugErrMask s.cfg.debugLayout })).setPc (label .s3))
  | .s3 => thenPc (csWrite (stopResetWord s.cfg) d.word s) (label .s4)
  | .s4 => .next (s.setPc (label .s5))
  | .s5 => thenPc (csWrite (stopClearWord s.cfg) d.word s) (label .s6)
  | .s6 => .next (exit (debugWrite (debugErrMask s.cfg.debugLayout) s))

/-- FLAGS with ACTIVE = `active` (R201): WAIT_FOR_OUTSTANDING_WRITES and PRIO_MAX in both priorities; 0x10FF0000 and
0x10FF0001 with the default layout and PRIO_MAX = 15 (G8). -/
def startFlags (p : Params) (active : Bool) : Word :=
  csWord p.csLayout fun
    | .active => active
    | .ended => false
    | .intr => false
    | .dreq => false
    | .paused => false
    | .dreqStops => false
    | .outstanding => false
    | .error => false
    | .priority i => p.prioMax.getLsbD i
    | .panicPriority i => p.prioMax.getLsbD i
    | .waitWrites => true
    | .disDebug => false
    | .abort => false
    | .reset => false

/-- One step of DMA_START (R201). -/
def startStep (t : StartPc) (label : StartPc → Pc) (exit : Pc) (d : Draw) (s : State) : Result :=
  match t with
  | .t1 => thenPc (conblkWrite s.regs.cbPa s) (label .t2)
  | .t2 => thenPc (csWrite (startFlags s.cfg false) d.word s) (label .t3)
  | .t3 => thenPc (csWrite (startFlags s.cfg true) d.word s) exit

end Sys2Proof.Machine
end

