-- ==== Sys2Proof/Machine/Cleanup.lean ====
section
/-!
DEFINITION. CLEANUP: its acceptance (R235, R236) and its steps Q1 to Q4 (R237).
-/
namespace Sys2Proof.Machine

/-- CLEANUP's acceptance step (R211): busy (R92), then by STATE: UNINIT completes at once, IDLE starts the sequence, any
other state is discarded (R94, R235, R236). With STATE no longer IDLE, CAPACITY is 0 (R38; log entry 10). -/
def execCleanup (s : State) : Result :=
  if s.busy then discardCommand .cmdBusy s
  else match s.engine with
    | .uninit => .next (s.setEngine .shutdown)
    | .idle => .next (((s.setRegs { s.regs with capacity := 0 }).setEngine .shutdown).setPc (.q1 .s1))
    | .rendering => discardCommand .cmdState s
    | .shutdown => discardCommand .cmdState s

/-- Q1 (R237). -/
def cleanupStop (t : StopPc) (d : Draw) (s : State) : Result :=
  stopStep t .q1 (fun u => u.setPc (.q2 .read)) d s

/-- Q2 (R237). -/
def cleanupClock (c : ClkStopPc) (s : State) : Result := .next (clkStopStep c .q2 .q3 s)

/-- Releases every region of the allocation state, the render buffer first (R237). -/
def releaseAll (s : State) : State := s.alloc.regions.foldr release s

/-- Q3 (R237). -/
def cleanupRelease (s : State) : Result := .next ((releaseAll s).setPc .q4)

/-- Q4 (R237). -/
def cleanupFinish (s : State) : Result :=
  .next ((((s.setRegs { s.regs with bufLen := 0, bufPa := 0, cbPa := 0, capacity := 0 }).setAlloc .none).setSqr
    { s.sqr with p := 0 }).setPc .done)

end Sys2Proof.Machine
end

