-- ==== Sys2Proof/Machine/Init.lean ====
section
/-!
DEFINITION. INIT: its acceptance (R215, R216) and its steps I1 to I9 and IF (R217 to R222).
-/
namespace Sys2Proof.Machine

/-- INIT's acceptance step (R211): busy (R92), state (R215), the zero count (R216), then the latching. -/
def execInit (s : State) : Result :=
  if s.busy then discardCommand .cmdBusy s
  else if s.engine ≠ .uninit then discardCommand .cmdState s
  else if s.regs.pixelCount = 0 then discardCommand .cmdArg s
  else .next ((latchInit s).setPc .i1)

/-- `L`, the buffer length of the latched pixel count (R218). -/
def State.initLen (s : State) : Nat := bufLen s.cfg s.sqr.p.toNat

/-- I1 (R218). -/
def initAllocCb (d : Draw) (s : State) : Result :=
  match allocate d s.cfg.cbBytes s.cfg.cbAlign s with
  | none => .next ((raiseError .allocCb s).setPc .iF)
  | some (cb, t) => .next ((t.setAlloc (.cbOnly cb)).setPc (.i2 cb 0))

/-- I2 (R218): word `i` of the control block is zeroed. -/
def initZeroCb (cb : Region) (i : Nat) (s : State) : Result :=
  match s.store32 (cb.base + 4 * i) 0 with
  | none => .fault .busUnmapped
  | some t => .next (t.setPc (if i + 1 < 8 then .i2 cb (i + 1) else .i3 cb))

/-- The exit of I3 and I4 that releases the control block (R218). -/
def initUnwind (cb : Region) (s : State) : State :=
  ((raiseError .allocBuf (release cb s)).setAlloc .none).setPc .iF

/-- I3 (R217, R218). -/
def initCheckLen (cb : Region) (s : State) : Result :=
  if s.cfg.maxBufBytes < s.initLen then .next (initUnwind cb s) else .next (s.setPc (.i4 cb))

/-- I4 (R218). -/
def initAllocBuf (cb : Region) (d : Draw) (s : State) : Result :=
  match allocate d s.initLen Config.bufAlign s with
  | none => .next (initUnwind cb s)
  | some (buf, t) => .next (t.setPc (.i5 cb buf 0))

/-- The word INIT writes at offset `4 i` of the control block (R161, R219). -/
def controlWord (s : State) (buf : Region) (i : Nat) : Word :=
  match i with
  | 0 => s.cfg.tiValue
  | 1 => BitVec.ofNat 32 buf.base
  | 2 => s.cfg.pwmFifoPa
  | 3 => BitVec.ofNat 32 s.initLen
  | _ => 0

/-- I5 (R219). -/
def initFillCb (cb buf : Region) (i : Nat) (s : State) : Result :=
  match s.store32 (cb.base + 4 * i) (controlWord s buf i) with
  | none => .fault .busUnmapped
  | some t => .next (t.setPc (if i + 1 < 4 then .i5 cb buf (i + 1) else .i6 cb buf (.stop .read)))

/-- I6 (R220). -/
def initClock (cb buf : Region) (c : ClkPc) (s : State) : Result :=
  .next (clkConfigureStep c (.i6 cb buf) (.i7 cb buf) s)

/-- I7 (R220). -/
def initPwm (cb buf : Region) (s : State) : Result := .next ((pwmArm s).setPc (.i8 cb buf .read))

/-- I8 (R220). -/
def initGpio (cb buf : Region) (g : GpioPc) (s : State) : Result := gpioStep g (.i8 cb buf) (.i9 cb buf) s

/-- I9, the success exit (R222). -/
def initSucceed (cb buf : Region) (s : State) : Result :=
  .next ((((s.setRegs { s.regs with
      bufLen := BitVec.ofNat 32 s.initLen
      bufPa := BitVec.ofNat 32 buf.base
      cbPa := BitVec.ofNat 32 cb.base
      capacity := BitVec.ofNat 32 (cap s.cfg s.sqr.p.toNat) }).setAlloc (.pair cb buf)).setEngine .idle).setPc .done)

/-- IF, the failure exit (R218). -/
def initFail (s : State) : Result := .next ((s.setSqr { s.sqr with p := 0 }).setPc .done)

end Sys2Proof.Machine
end

