-- ==== Sys2Proof/Machine/Nop.lean ====
section
/-!
DEFINITION. NOP (R210).
-/
namespace Sys2Proof.Machine

/-- NOP: the command completes in its acceptance step and changes nothing; written while BUSY it is discarded (R92). -/
def execNop (s : State) : Result :=
  if s.busy then discardCommand .cmdBusy s else .next s

end Sys2Proof.Machine
end

