-- ==== Sys2Proof/Machine/Render.lean ====
section
/-!
DEFINITION. RENDER: its acceptance (R226 to R228) and its steps P1 to P4 (R229).
-/
namespace Sys2Proof.Machine

/-- The input region overlaps the control block or the render buffer (R73, R227). -/
def State.inputOverlaps (s : State) : Bool := s.alloc.regions.any (fun r => regionsOverlap s.inputRegion r)

/-- RENDER's acceptance step (R211): busy (R92), state (R226), the wrap, the capacity, the host's duties (R227), then the
latching (R228). -/
def execRender (s : State) : Result :=
  if s.busy then discardCommand .cmdBusy s
  else if s.engine ≠ .idle then discardCommand .cmdState s
  else if Config.paSpace < s.regs.inAddr.toNat + s.regs.inLen.toNat then discardCommand .cmdArg s
  else if cap s.cfg s.sqr.p.toNat < s.regs.inLen.toNat then discardCommand .rejectOversize s
  else if s.inputOverlaps then .fault .inputOverlap
  else if s.mappedRange s.regs.inAddr.toNat s.regs.inLen.toNat = false then .fault .inputUnmapped
  else .next (((latchRender s).setEngine .rendering).setPc (.p1 .s1))

/-- P1 (R229). -/
def renderStop (t : StopPc) (d : Draw) (s : State) : Result := stopStep t .p1 enterEncode d s

/-- P2 (R229). -/
def renderEncode (e : EncodePc) (s : State) : Result := encodeStep e s

/-- P3 (R229). -/
def renderStart (t : StartPc) (d : Draw) (s : State) : Result := startStep t .p3 .p4 d s

/-- P4 (R229). -/
def renderFinish (s : State) : Result := .next ((s.setEngine .idle).setPc .done)

end Sys2Proof.Machine
end

