-- ==== Sys2Proof/Machine/Dispatch.lean ====
section
/-!
DEFINITION. The meaning of a command: its acceptance, performed in the step of the host's write to CMD (R211).
-/
namespace Sys2Proof.Machine

def exec (i : Instr) (s : State) : Host.Outcome State Fault Refusal :=
  match i with
  | .nop => Sys2Proof.Machine.execNop s
  | .init => Sys2Proof.Machine.execInit s
  | .render => Sys2Proof.Machine.execRender s
  | .cleanup => Sys2Proof.Machine.execCleanup s

end Sys2Proof.Machine
end

