-- ==== Sys2Proof/Machine/HostPort.lean ====
section
/-!
DEFINITION. The HOST agent: reads and writes of the register window (R21 to R40), command submission (R92), memory
accesses (R80), and the pseudo-instructions of R97.
-/
namespace Sys2Proof.Machine

/-- PARAMS (R39). -/
def paramsWord (p : Params) : Word :=
  (BitVec.ofNat 4 p.k).zeroExtend 32
  ||| ((BitVec.ofNat 4 p.aHigh).zeroExtend 32 <<< 4)
  ||| ((BitVec.ofNat 4 p.aLow).zeroExtend 32 <<< 8)
  ||| ((BitVec.ofNat 4 (if p.c ≤ 15 then p.c else 0)).zeroExtend 32 <<< 12)

/-- What a host read at a word offset returns (R21, R22). -/
def State.windowRead (s : State) (off : BitVec 6) : Word :=
  if off = 0x04 then s.statusWord
  else if off = 0x08 then s.regs.pixelCount
  else if off = 0x0C then s.regs.gpioSel.zeroExtend 32
  else if off = 0x10 then s.regs.inAddr
  else if off = 0x14 then s.regs.inLen
  else if off = 0x18 then s.regs.bufLen
  else if off = 0x1C then s.regs.bufPa
  else if off = 0x20 then s.regs.cbPa
  else if off = 0x24 then s.regs.debugSnap
  else if off = 0x28 then s.regs.capacity
  else if off = 0x2C then paramsWord s.cfg
  else if off = 0x30 then BitVec.ofNat 32 s.cfg.r
  else 0

/-- A host write of `w` to CMD (R92): BUSY before RSVD before OP. -/
def submit (w : Word) (s : State) : Result :=
  match decode w with
  | .command i => exec i s
  | .reservedBits => discardCommand (if s.busy then .cmdBusy else .cmdReserved) s
  | .reservedOp => discardCommand (if s.busy then .cmdBusy else .cmdReserved) s

/-- A host write at a word offset (R22): a reserved offset, a read-only register and reserved bits ignore it. -/
def windowWrite (off : BitVec 6) (v : Word) (s : State) : Result :=
  if off = 0x00 then submit v s
  else if off = 0x04 then .next (statusWrite v s)
  else if off = 0x08 then .next (s.setRegs { s.regs with pixelCount := v })
  else if off = 0x0C then .next (s.setRegs { s.regs with gpioSel := v.extractLsb' 0 16 })
  else if off = 0x10 then .next (s.setRegs { s.regs with inAddr := v })
  else if off = 0x14 then .next (s.setRegs { s.regs with inLen := v })
  else .next s

/-- A window access of `width` bits at `off` is one the window takes (R22, R66). -/
def windowAccessOk (off : BitVec 6) (width : Nat) : Bool := width == 32 && off.toNat % 4 == 0

/-- The value read is recorded under its name (R96). -/
def recordRead (name : Nat) (v : Word) (s : State) : State := s.setReads (s.reads ++ [(name, v)])

/-- Bits `hi` down to `lo` of a word, as a number (R11). -/
def wordField (w : Word) (hi lo : Nat) : Nat := (w.toNat >>> lo) % 2 ^ (hi + 1 - lo)

/-- One statement of the host program, performed with `rest` the program after it (R96). -/
def hostStmt (st : HostStmt) (rest : List HostStmt) (s : State) : Result :=
  match st with
  | .wr off width v =>
    if windowAccessOk off width then windowWrite off v (s.setHost rest) else .fault .hostAccessWidth
  | .rd off width name =>
    if windowAccessOk off width then .next (recordRead name (s.windowRead off) (s.setHost rest))
    else .fault .hostAccessWidth
  | .poll off hi lo v =>
    if windowAccessOk off 32 then
      .next (if wordField (s.windowRead off) hi lo = v.toNat then s.setHost rest else s)
    else .fault .hostAccessWidth
  | .memw addr b =>
    if s.mapped addr.toNat = false then .fault .hostUnmapped
    else if s.allocatedAt addr.toNat then .fault .hostWritesBlockMemory
    else .next ((s.setMem (memWrite s.mem addr.toNat b)).setHost rest)
  | .memr addr name =>
    if s.mapped addr.toNat = false then .fault .hostUnmapped
    else .next (recordRead name ((memRead s.mem addr.toNat).zeroExtend 32) (s.setHost rest))

/-- A HOST turn; nothing where the program has no further statement. -/
def hostStep (s : State) : Result :=
  match s.host with
  | [] => .next s
  | st :: rest => hostStmt st rest s

/-! ## Pseudo-instructions (R97) -/

/-- `CMD <MNEMONIC>` (R96). -/
def hostCmd (i : Instr) : List HostStmt := [.wr 0x00 32 (encode i)]

/-- `WAITIDLE` (R97). -/
def hostWaitIdle : List HostStmt := [.poll 0x04 2 2 0]

/-- `INIT p, pin, func` (R97). -/
def hostInit (p : Word) (pin func : BitVec 8) : List HostStmt :=
  [.wr 0x08 32 p, .wr 0x0C 32 ((func.zeroExtend 32 <<< 8) ||| pin.zeroExtend 32)] ++ hostCmd .init ++ hostWaitIdle

/-- `RENDER a, n` (R97). -/
def hostRender (a n : Word) : List HostStmt :=
  [.wr 0x10 32 a, .wr 0x14 32 n] ++ hostCmd .render ++ hostWaitIdle

/-- `CLEANUP` (R97). -/
def hostCleanup : List HostStmt := hostCmd .cleanup ++ hostWaitIdle

/-- `CLRSTATUS` (R97). -/
def hostClrStatus : List HostStmt := [.wr 0x04 32 0x80000078]

/-- `MEMW addr, b0, b1, …` (R96): one byte write each, at rising addresses. That a byte past 0xFFFFFFFF goes to address 0 is
a DESIGN CHOICE (log entry 25). -/
def hostMemW (addr : Word) : List Byte → List HostStmt
  | [] => []
  | b :: bs => .memw addr b :: hostMemW (addr + 1) bs

end Sys2Proof.Machine
end

