-- ==== Sys2Proof/Machine/Sequencer.lean ====
section
/-!
DEFINITION. The SEQ agent: the step of the running command at its label (R211, R213).
-/
namespace Sys2Proof.Machine

/-- One SEQ turn; nothing where no command runs. -/
def seqStep (d : Draw) (s : State) : Result :=
  match s.sqr.pc with
  | .done => .next s
  | .i1 => initAllocCb d s
  | .i2 cb i => initZeroCb cb i s
  | .i3 cb => initCheckLen cb s
  | .i4 cb => initAllocBuf cb d s
  | .i5 cb buf i => initFillCb cb buf i s
  | .i6 cb buf c => initClock cb buf c s
  | .i7 cb buf => initPwm cb buf s
  | .i8 cb buf g => initGpio cb buf g s
  | .i9 cb buf => initSucceed cb buf s
  | .iF => initFail s
  | .p1 t => renderStop t d s
  | .p2 e => renderEncode e s
  | .p3 t => renderStart t d s
  | .p4 => renderFinish s
  | .q1 t => cleanupStop t d s
  | .q2 c => cleanupClock c s
  | .q3 => cleanupRelease s
  | .q4 => cleanupFinish s

end Sys2Proof.Machine
end

