-- ==== Sys2Proof/Machine/Agents.lean ====
section
/-!
DEFINITION. One step of the whole: whose turn it is, and what that agent does (R16). A turn given to an agent that has no
step does nothing.
-/
namespace Sys2Proof.Machine

/-- The reset input (R280 to R282): the block's own state is reset, the allocation state is forgotten without a release,
and memory, the channel and the ports go on unchanged. -/
def blockReset (s : State) : State :=
  (((s.setRegs HostRegs.reset).setEngine .uninit).setSqr Sequencer.reset).setAlloc .none

/-- The platform takes back a live region the block does not hold, so one that a reset made it forget (R282, U4); a turn
that names any other region does nothing. -/
def platformReclaim (r : Region) (s : State) : State :=
  if r ∈ s.live ∧ r ∉ s.heldRegions then release r s else s

/-- One turn (R16). -/
def takeTurn (t : Turn) (s : State) : Result :=
  match t with
  | .host => hostStep s
  | .seq d => seqStep d s
  | .dma => dmaStep s
  | .dmaError bits active => .next (dmaErrorStep bits active s)
  | .sink => .next (sinkStep s)
  | .env busy => .next (envStep busy s)
  | .blockReset => .next (blockReset s)
  | .reclaim r => .next (platformReclaim r s)

/-- The turn the next step takes: the first listed one, or the free turn. -/
def State.nextTurn (s : State) : Turn :=
  match s.turns with
  | [] => Config.freeTurn s.tick
  | t :: _ => t

/-- The state with that turn used up. -/
def State.dropTurn (s : State) : State :=
  match s.turns with
  | [] => s.setTick (s.tick + 1)
  | _ :: ts => s.setTurns ts

/-- A step of a block whose parameters are those a model is built for (R10); any other is refused. -/
def stepTurn (s : State) : Result :=
  if s.cfg.ok then takeTurn s.nextTurn s.dropTurn else .refused .badParameters

/-- The turns of a list, one after another, stopping at the first fault or refusal. -/
def runTurns : List Turn → State → Result
  | [], s => .next s
  | t :: ts, s =>
    match takeTurn t s with
    | .next u => runTurns ts u
    | .fault f => .fault f
    | .refused r => .refused r

/-- The host writes the command word `w` to CMD at the very next step. -/
def placeCommand (w : Word) (s : State) : State :=
  (s.setTurns (.host :: s.turns)).setHost (.wr 0x00 32 w :: s.host)

end Sys2Proof.Machine
end

