-- ==== Sys2Proof/Machine/Step.lean ====
section
/-!
DEFINITION. The step function, and the placing of a command where the next step takes it.
-/
namespace Sys2Proof.Machine

/-- One step of one agent (R16). -/
def step (s : State) : Host.Outcome State Fault Refusal := stepTurn s

/-- `s` with the command word `w` as the host's next access, a write to CMD, and the next turn HOST's. A longer word is cut
to the 32 bits of a command (R90). -/
def State.withFetchWord (s : State) (nbits w : Nat) : State :=
  placeCommand (BitVec.ofNat 32 (w % 2 ^ nbits)) s

end Sys2Proof.Machine
end

