-- ==== Sys2Proof/Safety.lean ====
section
/-!
DEFINITION. What counts as a safe run: the invariant that rules out the states no run reaches, the faults a block's own
sequences can never raise (R255), the end of a run and the launch premise (R298, R299), fairness (R297).
-/
namespace Sys2Proof.Machine

/-! ## Regions and registers -/

/-- Every allocated region is a non-empty run of mapped RAM inside the address space, and no two share an address
(R72). -/
def LiveOk (s : State) : Prop :=
  (∀ r ∈ s.live, 0 < r.size ∧ r.base + r.size ≤ Config.paSpace ∧ s.mappedRange r.base r.size = true) ∧
  s.live.Pairwise (fun r t => regionsOverlap r t = false)

/-- BUF_LEN, BUF_PA and CB_PA hold 0 (R34 to R36). -/
def RegsEmpty (s : State) : Prop :=
  s.regs.bufLen = 0 ∧ s.regs.bufPa = 0 ∧ s.regs.cbPa = 0

/-- CAPACITY is `Cap(P)` while the engine is IDLE or RENDERING, and 0 otherwise (R38). -/
def CapacityOk (s : State) : Prop :=
  s.regs.capacity =
    if s.engine = .idle ∨ s.engine = .rendering then BitVec.ofNat 32 (cap s.cfg s.sqr.p.toNat) else 0

/-- BUF_LEN, BUF_PA and CB_PA describe `cb`, `buf` and the latched pixel count (R34 to R36). -/
def RegsHeld (s : State) (cb buf : Region) : Prop :=
  s.regs.bufLen = BitVec.ofNat 32 (bufLen s.cfg s.sqr.p.toNat) ∧ s.regs.bufPa = BitVec.ofNat 32 buf.base ∧
  s.regs.cbPa = BitVec.ofNat 32 cb.base

/-- `cb` is a live control block region (R69, R72). -/
def CbRegion (s : State) (cb : Region) : Prop :=
  cb ∈ s.live ∧ cb.size = s.cfg.cbBytes ∧ cb.base % s.cfg.cbAlign = 0

/-- `buf` is a live render buffer region of the latched pixel count (R44, R69, R72). -/
def BufRegion (s : State) (buf : Region) : Prop :=
  buf ∈ s.live ∧ buf.size = bufLen s.cfg s.sqr.p.toNat ∧ buf.base % Config.bufAlign = 0 ∧
  bufLen s.cfg s.sqr.p.toNat ≤ s.cfg.maxBufBytes

/-- The control block at `cb` holds what INIT writes into it (R161), for the render buffer `buf`. -/
def CbHolds (s : State) (cb buf : Region) : Prop :=
  memRead32 s.mem cb.base = s.cfg.tiValue ∧
  memRead32 s.mem (cb.base + 4) = BitVec.ofNat 32 buf.base ∧
  memRead32 s.mem (cb.base + 8) = s.cfg.pwmFifoPa ∧
  memRead32 s.mem (cb.base + 12) = BitVec.ofNat 32 buf.size ∧
  ∀ i, 4 ≤ i → i < 8 → memRead32 s.mem (cb.base + 4 * i) = 0

/-- The word at `4 i` of a control block that INIT has filled up to word `n` (R218, R219). -/
def CbFilled (s : State) (cb buf : Region) (n : Nat) : Prop :=
  (∀ i, i < n → memRead32 s.mem (cb.base + 4 * i) = controlWord s buf i) ∧
  ∀ i, n ≤ i → i < 8 → memRead32 s.mem (cb.base + 4 * i) = 0

/-- Nothing is allocated and the registers say so. -/
def Unallocated (s : State) : Prop := s.alloc = .none ∧ RegsEmpty s

/-- An INIT is running with the allocation state `a` (R44, R216). -/
def Building (s : State) (a : AllocState) : Prop :=
  s.engine = .uninit ∧ s.alloc = a ∧ RegsEmpty s ∧ s.sqr.p ≠ 0

/-- An INIT holds `cb` and `buf` (R44: the pair becomes the allocation state at I9). -/
def BuildingBoth (s : State) (cb buf : Region) : Prop :=
  Building s (.cbOnly cb) ∧ CbRegion s cb ∧ BufRegion s buf ∧ cb ≠ buf

/-- The block holds `cb` and `buf`, both live, the registers describe them and the control block is as INIT wrote it
(R44, R162). -/
def Held (s : State) (cb buf : Region) : Prop :=
  s.alloc = .pair cb buf ∧ RegsHeld s cb buf ∧ CbRegion s cb ∧ BufRegion s buf ∧ cb ≠ buf ∧ s.sqr.p ≠ 0 ∧
  CbHolds s cb buf

/-- The region of the latched input (R73). -/
def State.latchedInput (s : State) : Region := ⟨s.sqr.inAddr.toNat, s.sqr.inLen.toNat⟩

/-- The latched input's bytes in memory, in address order (R67). -/
def State.inputBytes (s : State) : List Byte :=
  (List.range s.sqr.inLen.toNat).map (fun i => memRead s.mem (s.sqr.inAddr.toNat + i))

/-- The latched input is one RENDER's checks let through (R227). -/
def InputOk (s : State) : Prop :=
  s.sqr.inLen.toNat ≤ cap s.cfg s.sqr.p.toNat ∧
  (∀ r ∈ s.alloc.regions, regionsOverlap s.latchedInput r = false) ∧
  s.mappedRange s.sqr.inAddr.toNat s.sqr.inLen.toNat = true

/-- The encoder's position fits its label (R142). -/
def EncodeOk (s : State) : EncodePc → Prop
  | .read => s.sqr.j < s.sqr.inLen.toNat * s.cfg.k
  | .write _ => s.sqr.j < s.sqr.inLen.toNat * s.cfg.k
  | .zero => s.sqr.j < s.regs.bufLen.toNat

/-- The engine state, the label, the allocation state and the registers agree (R34 to R44). -/
def BlockOk (s : State) : Prop :=
  match s.sqr.pc with
  | .done =>
    match s.engine with
    | .uninit => Unallocated s
    | .idle => ∃ cb buf, Held s cb buf
    | .rendering => False
    | .shutdown => Unallocated s
  | .i1 => Building s .none
  | .i2 cb i => Building s (.cbOnly cb) ∧ CbRegion s cb ∧ i < 8 ∧
      ∀ n, n < i → memRead32 s.mem (cb.base + 4 * n) = 0
  | .i3 cb => Building s (.cbOnly cb) ∧ CbRegion s cb ∧ ∀ n, n < 8 → memRead32 s.mem (cb.base + 4 * n) = 0
  | .i4 cb => Building s (.cbOnly cb) ∧ CbRegion s cb ∧ bufLen s.cfg s.sqr.p.toNat ≤ s.cfg.maxBufBytes ∧
      ∀ n, n < 8 → memRead32 s.mem (cb.base + 4 * n) = 0
  | .i5 cb buf i => BuildingBoth s cb buf ∧ i < 4 ∧ CbFilled s cb buf i
  | .i6 cb buf _ => BuildingBoth s cb buf ∧ CbFilled s cb buf 4
  | .i7 cb buf => BuildingBoth s cb buf ∧ CbFilled s cb buf 4
  | .i8 cb buf _ => BuildingBoth s cb buf ∧ CbFilled s cb buf 4
  | .i9 cb buf => BuildingBoth s cb buf ∧ CbFilled s cb buf 4
  | .iF => Building s .none
  | .p1 _ => s.engine = .rendering ∧ (∃ cb buf, Held s cb buf) ∧ InputOk s
  | .p2 e => s.engine = .rendering ∧ (∃ cb buf, Held s cb buf) ∧ InputOk s ∧ EncodeOk s e
  | .p3 _ => s.engine = .rendering ∧ ∃ cb buf, Held s cb buf
  | .p4 => s.engine = .rendering ∧ ∃ cb buf, Held s cb buf
  | .q1 _ => s.engine = .shutdown ∧ ∃ cb buf, Held s cb buf
  | .q2 _ => s.engine = .shutdown ∧ ∃ cb buf, Held s cb buf
  | .q3 => s.engine = .shutdown ∧ ∃ cb buf, Held s cb buf
  | .q4 => s.engine = .shutdown

/-! ## The channel -/

/-- The labels at which SEQ knows the channel to be inactive: from the module reset of DMA_STOP to the activation of
DMA_START, or to the end of CLEANUP (R194). -/
def Pc.channelStopped : Pc → Bool
  | .p1 .s4 => true
  | .p1 .s5 => true
  | .p1 .s6 => true
  | .p2 _ => true
  | .p3 _ => true
  | .q1 .s4 => true
  | .q1 .s5 => true
  | .q1 .s6 => true
  | .q2 _ => true
  | .q3 => true
  | .q4 => true
  | _ => false

/-- The labels between the end of DMA_STOP and the activation (R194, R201). -/
def Pc.channelClear : Pc → Bool
  | .p2 _ => true
  | .p3 _ => true
  | _ => false

/-- The channel's transfer reads the live control block `cb` and the live buffer `buf`, which no running INIT holds
(R182, R183, R202). -/
def TransferOk (s : State) (cb buf : Region) : Prop :=
  cb ∈ s.live ∧ buf ∈ s.live ∧ cb.size = s.cfg.cbBytes ∧ cb.base % s.cfg.cbAlign = 0 ∧ buf.size % 4 = 0 ∧
  cb ∉ s.sqr.pc.initRegions ∧ buf ∉ s.sqr.pc.initRegions ∧ cb ≠ buf ∧
  s.dma.conblkAd = BitVec.ofNat 32 cb.base ∧ CbHolds s cb buf ∧
  (s.dma.loaded = false → s.dma.pos = 0) ∧
  (s.dma.loaded = true → s.dma.src = BitVec.ofNat 32 buf.base ∧ s.dma.dst = s.cfg.pwmFifoPa ∧
    s.dma.len = BitVec.ofNat 32 buf.size ∧ s.dma.pos % 4 = 0 ∧ s.dma.pos ≤ buf.size)

/-- The channel's part of the block's invariant: stopped, and without errors, where the sequence says so (R79, R194,
R202). -/
def DmaOk (s : State) : Prop :=
  (s.sqr.pc.channelStopped = true → s.dma.active = false) ∧
  (s.sqr.pc.channelClear = true → s.dma.error = false) ∧
  ((s.sqr.pc = .p3 .t2 ∨ s.sqr.pc = .p3 .t3) → s.dma.addrLatched = true ∧ s.dma.conblkAd = s.regs.cbPa)

/-- The invariant of the block: parameters a model is built for, canonical memory, disjoint live regions, an agreeing block,
a channel that is stopped where the sequence says so, and the CAPACITY of R38. It rules out states no run from reset reaches. -/
def BlockInv (s : State) : Prop :=
  s.cfg.ok = true ∧ s.mem.wf = true ∧ LiveOk s ∧ BlockOk s ∧ DmaOk s ∧ CapacityOk s

/-- The invariant with a sound transfer: an active channel reads live regions. A reset in the middle of a transfer leaves
those regions to the platform (R282, U4), and a platform that reclaims one of them then breaks this part and no other. -/
def Inv (s : State) : Prop := BlockInv s ∧ (s.dma.active = true → ∃ cb buf, TransferOk s cb buf)

/-! ## The clock as the sequences leave it -/

/-- The clock as ClkConfigure programs it, ENAB and BUSY given (R111). -/
def configuredClk (p : Params) (enab busy : Bool) : Clk where
  src := p.clkLayout.osc
  mash := 0
  enab := enab
  kill := false
  flip := false
  busy := busy
  divi := p.clkDivisor
  divf := 0

/-- A clock found enabled as ClkStop leaves it, BUSY given (R113). -/
def stoppedClk (p : Params) (c : Clk) (busy : Bool) : Clk :=
  { c with enab := false, kill := p.clkKillOnStop, flip := false, busy := busy }

/-! ## Faults of the host's making -/

/-- The faults that only a broken host duty raises (R255); the rest are raised by no sequence of the block's own. -/
def Fault.hostMade : Fault → Bool
  | .hostAccessWidth => true
  | .hostWritesBlockMemory => true
  | .hostUnmapped => true
  | .inputOverlap => true
  | .inputUnmapped => true
  | .gpioRange => true
  | .busUnmapped => false
  | .dmaUndefinedCb => false
  | .dmaCbMisaligned => false
  | .dmaChain => false
  | .dmaLenUnaligned => false
  | .dmaAbortUnmodelled => false
  | .dmaPauseUnmodelled => false
  | .dmaCbWhileActive => false

/-! ## The end of a run, the launch premise, fairness -/

/-- A final state (R298): the host program is done, BUSY is 0, the channel is not Active, and the sink has no enabled
drain step. A faulted state is no state of the model: a fault ends the run. -/
def Final (s : State) : Prop :=
  s.host = [] ∧ s.busy = false ∧ s.dma.phase ≠ .active ∧ s.sinkCanDrain = false

/-- CleanLaunch (R299) for a program whose input lies in `input`: just reset, the channel not active and without error
bits, the sink empty, good parameters, the input mapped RAM that the allocator does not hand out. -/
def CleanLaunch (s : State) (input : Region) : Prop :=
  s.regs = HostRegs.reset ∧ s.engine = .uninit ∧ s.sqr = Sequencer.reset ∧ s.alloc = .none ∧
  s.dma.active = false ∧ s.dma.debugErr = 0 ∧ s.pwm.fifo = [] ∧ s.cfg.ok = true ∧
  s.mappedRange input.base input.size = true ∧
  s.cfg.dmaRam.all (fun t => !regionsOverlap input t) = true

/-- SEQ has a step (R213). -/
def SeqEnabled (s : State) : Prop := s.busy = true

/-- The DMA agent has a fetch, word-transfer or completion step (R181 to R184). -/
def DmaEnabled (s : State) : Prop :=
  s.dma.active = true ∧ s.dma.error = false ∧
  (s.dma.loaded = false ∨ (s.dma.pos < s.dma.len.toNat ∧ s.sinkReady = true) ∨ s.dma.pos = s.dma.len.toNat)

/-- An infinite run. -/
def IsRun (run : Nat → State) : Prop := ∀ n, step (run n) = .next (run (n + 1))

/-- A turn of the run `run` at or after `n` satisfies `p`. -/
def TurnAfter (run : Nat → State) (n : Nat) (p : Turn → Prop) : Prop :=
  ∃ m, n ≤ m ∧ p (run m).nextTurn

/-- The weak fairness R297 lets a claim assume: a SEQ step, a DMA fetch, transfer or completion step, and a sink drain
step that stay enabled are eventually taken. Nothing is assumed of ENV or of errors. -/
def WeaklyFair (run : Nat → State) : Prop :=
  ∀ n, ((∀ m, n ≤ m → SeqEnabled (run m)) → TurnAfter run n (fun t => ∃ d, t = .seq d)) ∧
    ((∀ m, n ≤ m → DmaEnabled (run m)) → TurnAfter run n (fun t => t = .dma)) ∧
    ((∀ m, n ≤ m → (run m).sinkCanDrain = true) → TurnAfter run n (fun t => t = .sink))

end Sys2Proof.Machine
end

