-- ==== Sys2Proof/Certificates/Slice0/Obligations.lean ====
section
/-!
DEFINITION. The statements of this model, from the spec's numbered rules. OBLIGATIONS.json gives each its title, tier and
citation. Where a statement speaks of several turns, `runTurns` takes them one after another; the draws of the SEQ turns
(`ds`) are free, so that the statement holds whatever is drawn.
-/
open Sys2Proof Sys2Proof.Machine

/-! ## Encoding, decoding and the step -/

/-- R94: the four command words. -/
def Obligations.OpcodeMapDecodes : Prop :=
  decode 0x00000000 = .command .nop ∧ decode 0x00000001 = .command .init ∧
  decode 0x00000002 = .command .render ∧ decode 0x00000003 = .command .cleanup ∧
  ∀ i : Instr, decodeTableWord 32 (encode i).toNat = some i

/-- R94, R95: decoding and encoding agree: each command has exactly one word. -/
def Obligations.DecodeEncodeAgree : Prop :=
  ∀ (w : Word) (i : Instr), decode w = .command i ↔ w = encode i

/-- R92: the order in which a word written to CMD is decoded. -/
def Obligations.CommandWordDecodingOrder : Prop :=
  ∀ (w : Word) (s : State), windowWrite 0x00 w s =
    if s.busy then .next { s with regs := { s.regs with cmdErr := true, errCode := 8 } }
    else if w.toNat / 16 ≠ 0 then .next { s with regs := { s.regs with cmdErr := true, errCode := 5 } }
    else if w.toNat % 16 = 0x0 then exec .nop s
    else if w.toNat % 16 = 0x1 then exec .init s
    else if w.toNat % 16 = 0x2 then exec .render s
    else if w.toNat % 16 = 0x3 then exec .cleanup s
    else .next { s with regs := { s.regs with cmdErr := true, errCode := 5 } }

/-- R211, R92: when the next turn is HOST's and its next access writes CMD, the step runs the decoded command on the state
with that turn and that access used up. -/
def Obligations.StepRunsDecodedCommand : Prop :=
  ∀ (s : State) (w : Word) (i : Instr) (rest : List HostStmt) (ts : List Turn),
    s.cfg.ok = true → s.turns = .host :: ts → s.host = .wr 0x00 32 w :: rest → decode w = .command i →
    step s = exec i { s with turns := ts, host := rest }

/-- The placing of a command word by `withFetchWord` (the model's choice, log entry 8): the very next step runs it. -/
def Obligations.PlacedWordRunsNext : Prop :=
  ∀ (s : State) (w : Nat) (i : Instr), s.cfg.ok = true → decodeTableWord 32 w = some i →
    step (s.withFetchWord 32 w) = exec i s

/-- R10: a parameter set that violates a constraint is refused, and so is one that violates the bounds of R9 and R112 or whose
layouts are none; every other state takes its turn. That a step of a state answers so is the model's choice (log entry 5),
and so is the refusal on R9's bounds and on the layouts (log entry 23). -/
def Obligations.BadParametersRefused : Prop :=
  ∀ s : State, step s = .refused .badParameters ↔
    ¬ ((s.cfg.k = 3 ∨ s.cfg.k = 4) ∧ 1 ≤ s.cfg.aLow ∧ s.cfg.aLow < s.cfg.aHigh ∧ s.cfg.aHigh ≤ s.cfg.k - 1 ∧
      1 ≤ s.cfg.c ∧ s.cfg.maxBufBytes % 4 = 0 ∧ s.cfg.pwmFifoPa.toNat % 4 = 0 ∧
      4 ≤ s.cfg.maxBufBytes ∧ 1 ≤ s.cfg.fifoDepth ∧ s.cfg.clkDivisor ≠ 0 ∧ s.cfg.layoutOk = true)

/-! ## STATUS and the host window -/

/-- R250, R251: what recording an error changes: the code, one sticky bit, nothing else. -/
def Obligations.ErrorRecording : Prop :=
  ∀ s : State,
    raiseError .rejectOversize s = { s with regs := { s.regs with reject := true, errCode := 1 } } ∧
    raiseError .allocCb s = { s with regs := { s.regs with allocFail := true, errCode := 2 } } ∧
    raiseError .allocBuf s = { s with regs := { s.regs with allocFail := true, errCode := 3 } } ∧
    raiseError .dmaError s = { s with regs := { s.regs with dmaErr := true, errCode := 4 } } ∧
    raiseError .cmdReserved s = { s with regs := { s.regs with cmdErr := true, errCode := 5 } } ∧
    raiseError .cmdState s = { s with regs := { s.regs with cmdErr := true, errCode := 6 } } ∧
    raiseError .cmdArg s = { s with regs := { s.regs with cmdErr := true, errCode := 7 } } ∧
    raiseError .cmdBusy s = { s with regs := { s.regs with cmdErr := true, errCode := 8 } }

/-- R29: a host write to STATUS clears the sticky bits written 1 and, with bit 31, ERRCODE; it changes nothing else. -/
def Obligations.StatusWriteClears : Prop :=
  ∀ (s : State) (w : Word), windowWrite 0x04 w s = .next { s with regs := { s.regs with
    reject := if w.getLsbD 3 then false else s.regs.reject
    allocFail := if w.getLsbD 4 then false else s.regs.allocFail
    dmaErr := if w.getLsbD 5 then false else s.regs.dmaErr
    cmdErr := if w.getLsbD 6 then false else s.regs.cmdErr
    errCode := if w.getLsbD 31 then 0 else s.regs.errCode } }

/-- R24, R25, R26: the fields of the word a read of STATUS returns. -/
def Obligations.StatusWordFields : Prop :=
  ∀ s : State, (s.windowRead 0x04).toNat =
    (match s.engine with | .uninit => 0 | .idle => 1 | .rendering => 2 | .shutdown => 3)
    + 4 * (if s.sqr.pc = .done then 0 else 1) + 8 * s.regs.reject.toNat + 16 * s.regs.allocFail.toNat
    + 32 * s.regs.dmaErr.toNat + 64 * s.regs.cmdErr.toNat + 256 * s.regs.errCode.toNat

/-- R21, R23, R30 to R38: what the other registers of the window read as; a reserved offset reads 0. -/
def Obligations.WindowReads : Prop :=
  ∀ s : State, s.windowRead 0x00 = 0 ∧ s.windowRead 0x08 = s.regs.pixelCount ∧
    (s.windowRead 0x0C).toNat = s.regs.gpioSel.toNat ∧ s.windowRead 0x10 = s.regs.inAddr ∧
    s.windowRead 0x14 = s.regs.inLen ∧ s.windowRead 0x18 = s.regs.bufLen ∧ s.windowRead 0x1C = s.regs.bufPa ∧
    s.windowRead 0x20 = s.regs.cbPa ∧ s.windowRead 0x24 = s.regs.debugSnap ∧ s.windowRead 0x28 = s.regs.capacity ∧
    s.windowRead 0x34 = 0 ∧ s.windowRead 0x38 = 0 ∧ s.windowRead 0x3C = 0

/-- R39, R40: PARAMS and RESET_PAD report the parameters, and a write to either changes nothing. -/
def Obligations.ParameterRegisters : Prop :=
  ∀ s : State, s.cfg.ok = true →
    (s.windowRead 0x2C).toNat =
      s.cfg.k + 16 * s.cfg.aHigh + 256 * s.cfg.aLow + 4096 * (if s.cfg.c ≤ 15 then s.cfg.c else 0) ∧
    (s.windowRead 0x30).toNat = s.cfg.r % 2 ^ 32 ∧
    ∀ v : Word, windowWrite 0x2C v s = .next s ∧ windowWrite 0x30 v s = .next s

/-- R22, R30 to R33: a 32-bit write to an operand register sets that register alone; a write to a read-only register or a
reserved offset changes no state. The access itself is used up. -/
def Obligations.WindowWrites : Prop :=
  ∀ (s : State) (rest : List HostStmt) (v : Word),
    hostStmt (.wr 0x08 32 v) rest s = .next { s with host := rest, regs := { s.regs with pixelCount := v } } ∧
    hostStmt (.wr 0x0C 32 v) rest s =
      .next { s with host := rest, regs := { s.regs with gpioSel := BitVec.ofNat 16 v.toNat } } ∧
    hostStmt (.wr 0x10 32 v) rest s = .next { s with host := rest, regs := { s.regs with inAddr := v } } ∧
    hostStmt (.wr 0x14 32 v) rest s = .next { s with host := rest, regs := { s.regs with inLen := v } } ∧
    ∀ off : BitVec 6, off.toNat % 4 = 0 → 0x18 ≤ off.toNat →
      hostStmt (.wr off 32 v) rest s = .next { s with host := rest }

/-- R22, R66: an access of another width or at an offset that is no multiple of 4 faults, a read or a write; every other
access does not. A read changes nothing but the record of what it returned. -/
def Obligations.WindowAccessWidth : Prop :=
  ∀ (s : State) (rest : List HostStmt) (off : BitVec 6) (width name : Nat) (v : Word),
    (¬(width = 32 ∧ off.toNat % 4 = 0) →
      hostStmt (.wr off width v) rest s = .fault .hostAccessWidth ∧
      hostStmt (.rd off width name) rest s = .fault .hostAccessWidth) ∧
    (width = 32 ∧ off.toNat % 4 = 0 →
      hostStmt (.rd off width name) rest s =
        .next { s with host := rest, reads := s.reads ++ [(name, s.windowRead off)] } ∧
      hostStmt (.wr off width v) rest s ≠ .fault .hostAccessWidth)

/-- R80: a host byte write to mapped RAM outside every live region lands, at that byte alone; one inside a live region
faults. That this takes in a region a reset made the block forget, and one a running INIT holds, is log entry 11. A write
outside the mapped RAM faults, and a device register is never mapped RAM (R62, R63): both are log entry 12. -/
def Obligations.HostMemoryWrites : Prop :=
  ∀ (s : State) (rest : List HostStmt) (addr : Word) (b : Byte), s.mem.wf = true →
    (s.mapped addr.toNat = true → (∃ r ∈ s.live, r.base ≤ addr.toNat ∧ addr.toNat < r.base + r.size) →
      hostStmt (.memw addr b) rest s = .fault .hostWritesBlockMemory) ∧
    (s.mapped addr.toNat = true → (∀ r ∈ s.live, ¬(r.base ≤ addr.toNat ∧ addr.toNat < r.base + r.size)) →
      ∃ m, hostStmt (.memw addr b) rest s = .next { s with host := rest, mem := m } ∧
        ∀ a, memRead m a = if a = addr.toNat then b else memRead s.mem a) ∧
    (s.mapped addr.toNat = false → hostStmt (.memw addr b) rest s = .fault .hostUnmapped) ∧
    ∀ r ∈ deviceRegions s.cfg, r.base ≤ addr.toNat → addr.toNat < r.base + r.size → s.mapped addr.toNat = false

/-- R96: POLL repeats its read, changing nothing, until the field equals the value. -/
def Obligations.PollRepeats : Prop :=
  ∀ (s : State) (rest : List HostStmt) (off : BitVec 6) (hi lo : Nat) (v : Word), off.toNat % 4 = 0 →
    s.host = .poll off hi lo v :: rest →
    (((s.windowRead off).toNat / 2 ^ lo) % 2 ^ (hi + 1 - lo) = v.toNat → hostStep s = .next { s with host := rest }) ∧
    (((s.windowRead off).toNat / 2 ^ lo) % 2 ^ (hi + 1 - lo) ≠ v.toNat → hostStep s = .next s)

/-! ## Acceptance of the commands -/

/-- R210: the word 0 is NOP, which completes in its acceptance step in every STATE and changes nothing; while BUSY it is
discarded with code 8. -/
def Obligations.NopCompletes : Prop :=
  decode 0x00000000 = .command .nop ∧ ∀ s : State, (s.busy = false → exec .nop s = .next s) ∧
    (s.busy = true → exec .nop s = .next { s with regs := { s.regs with cmdErr := true, errCode := 8 } })

/-- R216, R93: an INIT that passes its checks latches `P`, `pin` and `func` and goes to I1; nothing else changes. -/
def Obligations.InitAccepted : Prop :=
  ∀ s : State, s.busy = false → s.engine = .uninit → s.regs.pixelCount ≠ 0 →
    exec .init s = .next { s with sqr := { s.sqr with
      pc := .i1
      p := s.regs.pixelCount
      pin := BitVec.ofNat 8 s.regs.gpioSel.toNat
      func := BitVec.ofNat 8 (s.regs.gpioSel.toNat / 256) } }

/-- R215, R216, R253: an INIT in another STATE is discarded with code 6, one with a zero count with code 7, in that order,
and while BUSY with code 8. -/
def Obligations.InitDiscarded : Prop :=
  ∀ s : State,
    (s.busy = true → exec .init s = .next { s with regs := { s.regs with cmdErr := true, errCode := 8 } }) ∧
    (s.busy = false → s.engine ≠ .uninit →
      exec .init s = .next { s with regs := { s.regs with cmdErr := true, errCode := 6 } }) ∧
    (s.busy = false → s.engine = .uninit → s.regs.pixelCount = 0 →
      exec .init s = .next { s with regs := { s.regs with cmdErr := true, errCode := 7 } })

/-- R226 to R228: a RENDER in IDLE whose input neither wraps nor exceeds the capacity nor touches the block's memory nor
leaves the mapped RAM is accepted: it latches the input, sets STATE to RENDERING and goes to P1. -/
def Obligations.RenderAccepted : Prop :=
  ∀ s : State, s.busy = false → s.engine = .idle →
    s.regs.inAddr.toNat + s.regs.inLen.toNat ≤ 2 ^ 32 → s.regs.inLen.toNat ≤ s.sqr.p.toNat * s.cfg.c →
    (∀ r ∈ s.alloc.regions, ∀ i j, i < s.regs.inLen.toNat → j < r.size → s.regs.inAddr.toNat + i ≠ r.base + j) →
    (∀ i, i < s.regs.inLen.toNat → s.mapped (s.regs.inAddr.toNat + i) = true) →
    exec .render s = .next { s with
      engine := .rendering
      sqr := { s.sqr with pc := .p1 .s1, inAddr := s.regs.inAddr, inLen := s.regs.inLen } }

/-- R226, R227, R253: the discards of RENDER in their order: busy 8, state 6, wrap 7, oversize 1. -/
def Obligations.RenderDiscarded : Prop :=
  ∀ s : State,
    (s.busy = true → exec .render s = .next { s with regs := { s.regs with cmdErr := true, errCode := 8 } }) ∧
    (s.busy = false → s.engine ≠ .idle →
      exec .render s = .next { s with regs := { s.regs with cmdErr := true, errCode := 6 } }) ∧
    (s.busy = false → s.engine = .idle → 2 ^ 32 < s.regs.inAddr.toNat + s.regs.inLen.toNat →
      exec .render s = .next { s with regs := { s.regs with cmdErr := true, errCode := 7 } }) ∧
    (s.busy = false → s.engine = .idle → s.regs.inAddr.toNat + s.regs.inLen.toNat ≤ 2 ^ 32 →
      s.sqr.p.toNat * s.cfg.c < s.regs.inLen.toNat →
      exec .render s = .next { s with regs := { s.regs with reject := true, errCode := 1 } })

/-- R73, R76, R227: a RENDER that passes the discards and whose input shares a byte with the control block or the render
buffer faults, and so does one with a byte outside the mapped RAM. -/
def Obligations.RenderInputFaults : Prop :=
  ∀ s : State, s.busy = false → s.engine = .idle →
    s.regs.inAddr.toNat + s.regs.inLen.toNat ≤ 2 ^ 32 → s.regs.inLen.toNat ≤ s.sqr.p.toNat * s.cfg.c →
    ((∃ r ∈ s.alloc.regions, ∃ i j, i < s.regs.inLen.toNat ∧ j < r.size ∧ s.regs.inAddr.toNat + i = r.base + j) →
      exec .render s = .fault .inputOverlap) ∧
    ((∀ r ∈ s.alloc.regions, ∀ i j, i < s.regs.inLen.toNat → j < r.size → s.regs.inAddr.toNat + i ≠ r.base + j) →
      (∃ i, i < s.regs.inLen.toNat ∧ s.mapped (s.regs.inAddr.toNat + i) = false) →
      exec .render s = .fault .inputUnmapped)

/-- R236, R38: CLEANUP from UNINIT only sets STATE to SHUTDOWN; from IDLE it also goes to Q1, and CAPACITY, which R38 makes
0 outside IDLE and RENDERING, becomes 0 (that this step writes it is log entry 10). -/
def Obligations.CleanupAccepted : Prop :=
  ∀ s : State, s.busy = false →
    (s.engine = .uninit → exec .cleanup s = .next { s with engine := .shutdown }) ∧
    (s.engine = .idle →
      exec .cleanup s = .next { s with
        engine := .shutdown, regs := { s.regs with capacity := 0 }, sqr := { s.sqr with pc := .q1 .s1 } })

/-- R235, R253: a second CLEANUP is discarded with code 6, one while BUSY with code 8. -/
def Obligations.CleanupDiscarded : Prop :=
  ∀ s : State,
    (s.busy = true → exec .cleanup s = .next { s with regs := { s.regs with cmdErr := true, errCode := 8 } }) ∧
    (s.busy = false → s.engine = .shutdown →
      exec .cleanup s = .next { s with regs := { s.regs with cmdErr := true, errCode := 6 } })

/-- R211, R212: the frame of all four commands: acceptance writes STATUS, STATE, the sequencer and, an accepted CLEANUP's
alone, CAPACITY (log entry 10); memory, the allocation, the channel, the ports, the operand registers and the host's
program are as before. A command whose acceptance changes a field of STATUS that records an error changes neither STATE,
the sequencer nor CAPACITY; only INIT latches `P`, `pin` and `func`, only RENDER the input. -/
def Obligations.CommandFrame : Prop :=
  ∀ (i : Instr) (s t : State), exec i s = .next t →
    (∃ rj af de ce ec cp, t = { s with
        engine := t.engine
        sqr := t.sqr
        regs := { s.regs with
          reject := rj, allocFail := af, dmaErr := de, cmdErr := ce, errCode := ec, capacity := cp } } ∧
      (cp = s.regs.capacity ∨ (i = .cleanup ∧ t.engine = .shutdown ∧ cp = 0)) ∧
      ((rj, af, de, ce, ec) ≠ (s.regs.reject, s.regs.allocFail, s.regs.dmaErr, s.regs.cmdErr, s.regs.errCode) →
        t.engine = s.engine ∧ t.sqr = s.sqr ∧ cp = s.regs.capacity)) ∧
    t.sqr.j = s.sqr.j ∧ (i ≠ .init → t.sqr.p = s.sqr.p ∧ t.sqr.pin = s.sqr.pin ∧ t.sqr.func = s.sqr.func) ∧
    (i ≠ .render → t.sqr.inAddr = s.sqr.inAddr ∧ t.sqr.inLen = s.sqr.inLen)

/-! ## INIT -/

/-- R72: what an allocation answers and what it leaves alone. -/
def Obligations.AllocationContract : Prop :=
  ∀ (d : Draw) (size align : Nat) (s t : State) (r : Region), s.mem.wf = true →
    allocate d size align s = some (r, t) →
    r.size = size ∧ r.base % align = 0 ∧ r.base + size ≤ 2 ^ 32 ∧
    (∀ u ∈ s.live, ∀ i j, i < size → j < u.size → r.base + i ≠ u.base + j) ∧
    (∀ i, i < size → r.base + i < s.cfg.pwmFifoPa.toNat ∨ s.cfg.pwmFifoPa.toNat + 4 ≤ r.base + i) ∧
    (∀ i, i < size → r.base + i < s.cfg.hostWindowPa.toNat ∨ s.cfg.hostWindowPa.toNat + 0x40 ≤ r.base + i) ∧
    (∀ o ∈ s.cfg.dmaOffsets.list, ∀ i, i < size →
      r.base + i < s.cfg.dmaPa.toNat + o ∨ s.cfg.dmaPa.toNat + o + 4 ≤ r.base + i) ∧
    (∀ u ∈ s.cfg.portRegions, ∀ i j, i < size → j < u.size → r.base + i ≠ u.base + j) ∧
    (∃ u ∈ s.cfg.dmaRam, u.base ≤ r.base ∧ r.base + size ≤ u.base + u.size) ∧
    (∃ m, t = { s with live := r :: s.live, mem := m } ∧
      ∀ a, a < r.base ∨ r.base + size ≤ a → memRead m a = memRead s.mem a)

/-- R217, R218: the failures of INIT: I1 with code 2; I3 with code 3 when the buffer is too long, and I4 with code 3 when
its allocation fails, the control block released in both; IF ends the command with STATE unchanged. -/
def Obligations.InitFailures : Prop :=
  ∀ (s : State) (cb : Region) (d : Draw),
    (s.sqr.pc = .i1 → d.alloc = none → seqStep d s = .next { s with
      regs := { s.regs with allocFail := true, errCode := 2 }, sqr := { s.sqr with pc := .iF } }) ∧
    (s.sqr.pc = .i3 cb → s.cfg.maxBufBytes < bufLen s.cfg s.sqr.p.toNat → seqStep d s = .next { s with
      regs := { s.regs with allocFail := true, errCode := 3 }, alloc := .none, live := s.live.erase cb
      sqr := { s.sqr with pc := .iF } }) ∧
    (s.sqr.pc = .i4 cb → d.alloc = none → seqStep d s = .next { s with
      regs := { s.regs with allocFail := true, errCode := 3 }, alloc := .none, live := s.live.erase cb
      sqr := { s.sqr with pc := .iF } }) ∧
    (s.sqr.pc = .iF → seqStep d s = .next { s with sqr := { s.sqr with pc := .done, p := 0 } })

/-- R161, R218, R219: the eight steps of I2 zero the control block's eight words and the four of I5 fill its first four
words; no byte outside the words written changes. -/
def Obligations.ControlBlockWritten : Prop :=
  ∀ (s : State) (cb buf : Region) (ds : List Draw), s.mem.wf = true → 32 ≤ cb.size →
    s.mappedRange cb.base cb.size = true →
    (s.sqr.pc = .i2 cb 0 → ds.length = 8 → ∃ m, runTurns (ds.map .seq) s = .next { s with
        mem := m, sqr := { s.sqr with pc := .i3 cb } } ∧
      (∀ i, i < 32 → memRead m (cb.base + i) = 0) ∧
      ∀ a, a < cb.base ∨ cb.base + 32 ≤ a → memRead m a = memRead s.mem a) ∧
    (s.sqr.pc = .i5 cb buf 0 → ds.length = 4 → ∃ m, runTurns (ds.map .seq) s = .next { s with
        mem := m, sqr := { s.sqr with pc := .i6 cb buf (.stop .read) } } ∧
      memRead32 m cb.base = s.cfg.tiValue ∧ memRead32 m (cb.base + 4) = BitVec.ofNat 32 buf.base ∧
      memRead32 m (cb.base + 8) = s.cfg.pwmFifoPa ∧
      memRead32 m (cb.base + 12) = BitVec.ofNat 32 (bufLen s.cfg s.sqr.p.toNat) ∧
      ∀ a, a < cb.base ∨ cb.base + 16 ≤ a → memRead m a = memRead s.mem a)

/-- R111, R113: the clock sequences, operation by operation. ClkConfigure, the clock found stopped: nothing is written until
the divisor, then the source with ENAB 0, then ENAB 1, then a wait that ENV's raising of BUSY lifts. ClkConfigure, the clock
found running: ENAB is cleared first, and the divisor is written only after BUSY has fallen. ClkStop, for each value of
ENAB and BUSY it finds: a set ENAB is cleared, with KILL the parameter and SRC and MASH kept, a clear one is not written;
it ends when BUSY is 0. That a write of the control word leaves FLIP 0 and one of the divisor leaves DIVF 0 is the model's
choice (log entry 21): R111 and R113 name neither. -/
def Obligations.ClockSequences : Prop :=
  ∀ (s : State) (cb buf : Region) (d : Draw),
    (s.sqr.pc = .i6 cb buf (.stop .read) → s.clk.enab = false → s.clk.busy = false →
      runTurns (List.replicate 2 (.seq d)) s = .next { s with sqr := { s.sqr with pc := .i6 cb buf .div } } ∧
      runTurns (List.replicate 3 (.seq d)) s = .next { s with
        sqr := { s.sqr with pc := .i6 cb buf .source }
        clk := { s.clk with divi := s.cfg.clkDivisor, divf := 0 } } ∧
      runTurns (List.replicate 4 (.seq d)) s = .next { s with
        sqr := { s.sqr with pc := .i6 cb buf .enable }, clk := configuredClk s.cfg false false } ∧
      runTurns (List.replicate 5 (.seq d)) s = .next { s with
        sqr := { s.sqr with pc := .i6 cb buf .waitHigh }, clk := configuredClk s.cfg true false } ∧
      runTurns (List.replicate 5 (.seq d) ++ [.env true, .seq d]) s = .next { s with
        sqr := { s.sqr with pc := .i7 cb buf }, clk := configuredClk s.cfg true true }) ∧
    (s.sqr.pc = .i6 cb buf (.stop .read) → s.clk.enab = true → s.clk.busy = true →
      runTurns (List.replicate 2 (.seq d)) s = .next { s with
        sqr := { s.sqr with pc := .i6 cb buf (.stop .waitLow) }, clk := stoppedClk s.cfg s.clk true } ∧
      runTurns (List.replicate 2 (.seq d) ++ [.env false, .seq d]) s = .next { s with
        sqr := { s.sqr with pc := .i6 cb buf .div }, clk := stoppedClk s.cfg s.clk false } ∧
      runTurns (List.replicate 2 (.seq d) ++ [.env false, .seq d, .seq d]) s = .next { s with
        sqr := { s.sqr with pc := .i6 cb buf .source }
        clk := { stoppedClk s.cfg s.clk false with divi := s.cfg.clkDivisor, divf := 0 } } ∧
      runTurns (List.replicate 2 (.seq d) ++ .env false :: List.replicate 4 (.seq d) ++ [.env true, .seq d]) s =
        .next { s with sqr := { s.sqr with pc := .i7 cb buf }, clk := configuredClk s.cfg true true }) ∧
    (s.sqr.pc = .q2 .read → s.clk.enab = true → s.clk.busy = true →
      runTurns (List.replicate 3 (.seq d) ++ [.env false, .seq d]) s = .next { s with
        sqr := { s.sqr with pc := .q3 }, clk := stoppedClk s.cfg s.clk false }) ∧
    (s.sqr.pc = .q2 .read → s.clk.enab = true → s.clk.busy = false →
      runTurns (List.replicate 3 (.seq d)) s = .next { s with
        sqr := { s.sqr with pc := .q3 }, clk := stoppedClk s.cfg s.clk false }) ∧
    (s.sqr.pc = .q2 .read → s.clk.enab = false → s.clk.busy = true →
      runTurns [.seq d, .seq d, .env false, .seq d] s = .next { s with
        sqr := { s.sqr with pc := .q3 }, clk := { s.clk with busy := false } }) ∧
    (s.sqr.pc = .q2 .read → s.clk.enab = false → s.clk.busy = false →
      runTurns [.seq d, .seq d] s = .next { s with sqr := { s.sqr with pc := .q3 } })

/-- R114, R193, R260: the three waits are holds: while the awaited flag has not changed a SEQ turn changes nothing. No turn
of another agent than ENV, and no reset, changes the clock's BUSY. That ENV may raise it whenever ENAB is 1 and lower it
whenever ENAB is 0 is the model's reading of R114 (log entry 9). -/
def Obligations.WaitsHold : Prop :=
  ∀ (s : State) (cb buf : Region) (d : Draw),
    (s.sqr.pc = .i6 cb buf .waitHigh → s.clk.busy = false → seqStep d s = .next s) ∧
    (s.sqr.pc = .i6 cb buf (.stop .waitLow) → s.clk.busy = true → seqStep d s = .next s) ∧
    (s.sqr.pc = .q2 .waitLow → s.clk.busy = true → seqStep d s = .next s) ∧
    (s.cfg.ok = true → s.sqr.pc = .p1 .s1 ∨ s.sqr.pc = .q1 .s1 → s.dma.active = true → s.dma.debugErr = 0 →
      seqStep d s = .next s) ∧
    (∀ (u : Turn) (t : State), (∀ b, u ≠ .env b) → takeTurn u s = .next t → t.clk.busy = s.clk.busy) ∧
    (s.clk.enab = true → takeTurn (.env true) s = .next { s with clk := { s.clk with busy := true } } ∧
      takeTurn (.env false) s = .next s) ∧
    (s.clk.enab = false → takeTurn (.env false) s = .next { s with clk := { s.clk with busy := false } } ∧
      takeTurn (.env true) s = .next s)

/-- R122: PwmArm empties the sink's queue and arms the PWM. -/
def Obligations.PwmArmed : Prop :=
  ∀ (s : State) (cb buf : Region) (d : Draw), s.sqr.pc = .i7 cb buf →
    seqStep d s = .next { s with
      sqr := { s.sqr with pc := .i8 cb buf .read }, pwm := ⟨true, [], s.pwm.wire⟩ }

/-- R120, R121: GpioSetFunction writes the code of the function into the pin's three bits of its word and leaves every
other bit of every word; a pin or function out of range faults. -/
def Obligations.GpioFunctionSet : Prop :=
  ∀ (s : State) (cb buf : Region) (d : Draw), s.sqr.pc = .i8 cb buf .read →
    (¬(s.sqr.pin.toNat < s.cfg.gpioPins ∧ s.sqr.func.toNat < 6) → seqStep d s = .fault .gpioRange) ∧
    (∀ (_ : s.cfg.ok = true) (_ : s.sqr.pin.toNat < s.cfg.gpioPins) (hf : s.sqr.func.toNat < 6), ∃ f : Vector Word 256,
      runTurns [.seq d, .seq d] s = .next { s with sqr := { s.sqr with pc := .i9 cb buf }, fsel := f } ∧
      (∀ (n : Nat) (hn : n < 256), n ≠ s.sqr.pin.toNat / s.cfg.fselPerWord → f[n] = s.fsel[n]) ∧
      ∀ (n : Nat) (hn : n < 256), n = s.sqr.pin.toNat / s.cfg.fselPerWord →
        (f[n].toNat / 2 ^ (3 * (s.sqr.pin.toNat % s.cfg.fselPerWord))) % 8 =
          (s.cfg.gpioFuncCode[s.sqr.func.toNat]).toNat ∧
        ∀ i, i < 3 * (s.sqr.pin.toNat % s.cfg.fselPerWord) ∨ 3 * (s.sqr.pin.toNat % s.cfg.fselPerWord) + 3 ≤ i →
          f[n].getLsbD i = s.fsel[n].getLsbD i)

/-- R214 to R222: a whole INIT. From I1, with two allocator answers R72 allows, the clock found stopped and started by ENV,
pin and function in range, the SEQ turns of the sequence end in IDLE with BUSY 0, the registers, the allocation state, the
control block, the clock (but for FLIP 0 and DIVF 0, which are log entry 21), the PWM and the pin's function select as the
rules say; the channel, the parameters, the sequencer's latched operands, the other function selects,
the host's program and every byte outside the two regions are as before. -/
def Obligations.InitRunsToIdle : Prop :=
  ∀ (s : State) (cb buf : Region) (d₁ d₂ : Draw) (ds₁ ds₂ ds₃ : List Draw),
    s.cfg.ok = true → s.mem.wf = true → s.sqr.pc = .i1 → s.clk.enab = false → s.clk.busy = false →
    s.sqr.pin.toNat < s.cfg.gpioPins → ∀ hf : s.sqr.func.toNat < 6,
    cb.size = s.cfg.cbBytes → buf.size = bufLen s.cfg s.sqr.p.toNat → buf.size ≤ s.cfg.maxBufBytes →
    d₁.alloc = some cb.base → s.allocatable cb s.cfg.cbAlign = true →
    d₂.alloc = some buf.base → s.allocatable buf 4 = true → regionsOverlap buf cb = false →
    ds₁.length = 9 → ds₂.length = 9 → ds₃.length = 5 →
    ∃ t, runTurns ([.seq d₁] ++ ds₁.map .seq ++ [.seq d₂] ++ ds₂.map .seq ++ [.env true] ++ ds₃.map .seq) s = .next t ∧
      t.engine = .idle ∧ t.busy = false ∧ t.alloc = .pair cb buf ∧ t.live = buf :: cb :: s.live ∧
      t.regs = { s.regs with
        bufLen := BitVec.ofNat 32 (bufLen s.cfg s.sqr.p.toNat)
        bufPa := BitVec.ofNat 32 buf.base
        cbPa := BitVec.ofNat 32 cb.base
        capacity := BitVec.ofNat 32 (s.sqr.p.toNat * s.cfg.c) } ∧
      CbHolds t cb buf ∧ t.clk = configuredClk s.cfg true true ∧ t.pwm = ⟨true, [], s.pwm.wire⟩ ∧
      t.fsel = s.fsel.set (fselIndex s.cfg s.sqr.pin) (fselInsert s.fsel[fselIndex s.cfg s.sqr.pin]
        (fselShift s.cfg s.sqr.pin) s.cfg.gpioFuncCode[s.sqr.func.toNat]) ∧
      t.dma = s.dma ∧ t.cfg = s.cfg ∧ t.sqr = { s.sqr with pc := .done } ∧ t.host = s.host ∧ t.reads = s.reads ∧
      ∀ a, (a < cb.base ∨ cb.base + cb.size ≤ a) → (a < buf.base ∨ buf.base + buf.size ≤ a) →
        memRead t.mem a = memRead s.mem a

/-! ## The encoder -/

/-- R131, R134, R141: the bits of the `K` output bytes of an input byte, in wire order, are the symbols of its bits from
bit 7 down. -/
def Obligations.ExpansionIsSymbols : Prop :=
  ∀ (p : Params) (x : Byte), p.ok = true →
    (expandBytes p x).flatMap byteBits = (byteBits x).flatMap (symbolBits p)

/-- R133: for K = 3 the constraints force the symbols 0b110 and 0b100. -/
def Obligations.SymbolsForcedForThree : Prop :=
  ∀ p : Params, p.ok = true → p.k = 3 → sym p true = 0b110 ∧ sym p false = 0b100

/-- R137: the buffer length is word-aligned and monotonic, and its slack is 0 to 3. -/
def Obligations.BufferLength : Prop :=
  ∀ (p : Params) (n m : Nat), bufLen p n % 4 = 0 ∧ (n < m → bufLen p n ≤ bufLen p m) ∧
    n * p.c * p.k + p.r ≤ bufLen p n ∧ bufLen p n ≤ n * p.c * p.k + p.r + 3

/-- R140, R144, R146: the encoding of an accepted input: byte `k` of the group of input byte `i` stands at `i K + k`, and
every byte from `n K` on is zero, the `R` padding bytes among them. -/
def Obligations.EncodingRegions : Prop :=
  ∀ (p : Params) (bytes : List Byte) (n : Nat), p.ok = true → bytes.length ≤ cap p n →
    (encodeBytes p bytes (bufLen p n)).length = bufLen p n ∧
    (∀ i k, i < bytes.length → k < p.k →
      (encodeBytes p bytes (bufLen p n)).getD (i * p.k + k) 0 = expandByte p (bytes.getD i 0) k) ∧
    (∀ j, bytes.length * p.k ≤ j → (encodeBytes p bytes (bufLen p n)).getD j 0 = 0) ∧
    bytes.length * p.k + p.r ≤ bufLen p n

/-- R142, R143, R146: ENCODE. From its first step, one SEQ turn for each input byte read and each buffer byte written
leaves the buffer holding the encoding of the input and reaches DMA_START; every byte outside the buffer, the input among
them, is as before, and so is everything but memory and the sequencer. -/
def Obligations.EncodeWritesBuffer : Prop :=
  ∀ (s : State) (cb buf : Region) (ds : List Draw), BlockInv s → Held s cb buf → s.engine = .rendering → InputOk s →
    s.sqr.j = 0 → s.sqr.pc = encodePc s 0 → ds.length = s.sqr.inLen.toNat + buf.size →
    ∃ m j, runTurns (ds.map .seq) s = .next { s with mem := m, sqr := { s.sqr with pc := .p3 .t1, j := j } } ∧
      (∀ i, i < buf.size → memRead m (buf.base + i) = (encodeBytes s.cfg s.inputBytes buf.size).getD i 0) ∧
      ∀ a, a < buf.base ∨ buf.base + buf.size ≤ a → memRead m a = memRead s.mem a

/-! ## The DMA channel -/

/-- R171 to R178, R182: what a read and a write of CS, CONBLK_AD and DEBUG do, `w` being drawn. A CS read gives each field
at its place, ERROR as R174 says, the drawn bits drawn, ABORT, RESET and every reserved bit 0; a DEBUG read the error bits
at their places and every other bit drawn. A CS write with RESET does the module reset; with ABORT, or clearing ACTIVE of
an active channel, it faults; one that leaves ACTIVE as it is clears END and INT where they are written 1 and writes the
other fields; one that sets ACTIVE also activates, or faults where no address is latched or it is misaligned. CONBLK_AD
latches the address, and faults while active. DEBUG clears the error bits written 1 and changes nothing else. -/
def Obligations.ChannelRegisters : Prop :=
  ∀ (v w : Word) (s : State), s.cfg.ok = true →
    let rd := fun b => (dmaRead .cs s.cfg s.dma w).getLsbD (s.cfg.csLayout.pos b)
    let wr := fun b => v.getLsbD (s.cfg.csLayout.pos b)
    let fields := { s.dma with
      ended := s.dma.ended && !wr .ended
      intr := s.dma.intr && !wr .intr
      priority := v.extractLsb' s.cfg.csLayout.priority 4
      panicPriority := v.extractLsb' s.cfg.csLayout.panicPriority 4
      waitWrites := wr .waitWrites
      disDebug := wr .disDebug }
    (rd .active = s.dma.active ∧ rd .ended = s.dma.ended ∧ rd .intr = s.dma.intr ∧
      (rd .error = true ↔ s.dma.debugErr ≠ 0) ∧ (∀ i, rd (.priority i) = s.dma.priority.getLsbD i) ∧
      (∀ i, rd (.panicPriority i) = s.dma.panicPriority.getLsbD i) ∧ rd .waitWrites = s.dma.waitWrites ∧
      rd .disDebug = s.dma.disDebug ∧ rd .abort = false ∧ rd .reset = false ∧
      (∀ b ∈ [CsBit.dreq, .paused, .dreqStops, .outstanding], rd b = w.getLsbD (s.cfg.csLayout.pos b)) ∧
      ∀ n, (∀ b, s.cfg.csLayout.pos b ≠ n) → (dmaRead .cs s.cfg s.dma w).getLsbD n = false) ∧
    dmaRead .conblkAd s.cfg s.dma w = s.dma.conblkAd ∧
    ((∀ i, (dmaRead .debug s.cfg s.dma w).getLsbD (s.cfg.debugLayout.pos i) = s.dma.debugErr.getLsbD i) ∧
      ∀ n, (∀ i, s.cfg.debugLayout.pos i ≠ n) → (dmaRead .debug s.cfg s.dma w).getLsbD n = w.getLsbD n) ∧
    (wr .reset = true → ∃ e, csWrite v w s = .next { s with dma := { s.dma with
      active := false, ended := false, intr := false, priority := 0, panicPriority := 0, waitWrites := false
      disDebug := false, conblkAd := 0, addrLatched := false, loaded := false, pos := 0, debugErr := e } }) ∧
    (wr .reset = false → wr .abort = true → csWrite v w s = .fault .dmaAbortUnmodelled) ∧
    (wr .reset = false → wr .abort = false → wr .active = false → s.dma.active = true →
      csWrite v w s = .fault .dmaPauseUnmodelled) ∧
    (wr .reset = false → wr .abort = false → wr .active = s.dma.active →
      csWrite v w s = .next { s with dma := fields }) ∧
    (wr .reset = false → wr .abort = false → wr .active = true → s.dma.active = false →
      (s.dma.addrLatched = false → csWrite v w s = .fault .dmaUndefinedCb) ∧
      (s.dma.addrLatched = true → s.dma.conblkAd.toNat % s.cfg.cbAlign ≠ 0 →
        csWrite v w s = .fault .dmaCbMisaligned) ∧
      (s.dma.addrLatched = true → s.dma.conblkAd.toNat % s.cfg.cbAlign = 0 →
        csWrite v w s = .next { s with dma := { fields with active := true, loaded := false, pos := 0 } })) ∧
    (s.dma.active = false →
      conblkWrite v s = .next { s with dma := { s.dma with conblkAd := v, addrLatched := true } }) ∧
    (s.dma.active = true → conblkWrite v s = .fault .dmaCbWhileActive) ∧
    (∃ e, debugWrite v s = { s with dma := { s.dma with debugErr := e } } ∧
      ∀ i : Fin 3, e.getLsbD i = (s.dma.debugErr.getLsbD i && !v.getLsbD (s.cfg.debugLayout.pos i)))

/-- R191, R192, R194: DMA_STOP of a channel that is not active or is errored, from RENDER and from CLEANUP. After its last
step the channel is Idle with the fields R194 names, the sequence goes on to ENCODE or to ClkStop, and everything else is
as before, but for the snapshot, DMAERR and code 4 where the channel was errored. -/
def Obligations.StopReachesIdle : Prop :=
  ∀ (s : State) (ds : List Draw), s.cfg.ok = true → (s.sqr.pc = .p1 .s1 ∨ s.sqr.pc = .q1 .s1) →
    (s.dma.active = false ∨ s.dma.debugErr ≠ 0) → ds.length = (if s.dma.debugErr = 0 then 5 else 6) →
    ∃ t, runTurns (ds.map .seq) s = .next t ∧ t.dma.phase = .idle ∧ t = { s with
      sqr := (if s.sqr.pc = .p1 .s1 then { s.sqr with pc := encodePc (s.setJ 0) 0, j := 0 }
        else { s.sqr with pc := .q2 .read })
      dma := { s.dma with
        active := false, ended := false, intr := false, priority := 0, panicPriority := 0, waitWrites := false
        disDebug := false, conblkAd := 0, addrLatched := false, loaded := false, pos := 0, debugErr := 0 }
      regs := (if s.dma.debugErr = 0 then s.regs
        else { s.regs with
          debugSnap := debugErrWord s.cfg.debugLayout s.dma.debugErr, dmaErr := true, errCode := 4 }) }

/-- R195: DMA_STOP is idempotent, RENDER's and CLEANUP's alike: a second one, of five steps, reaches the same channel state
and changes no block register. -/
def Obligations.StopIdempotent : Prop :=
  ∀ (s t u : State) (ds es : List Draw), s.cfg.ok = true → (s.sqr.pc = .p1 .s1 ∨ s.sqr.pc = .q1 .s1) →
    ds.length = (if s.dma.debugErr = 0 then 5 else 6) → (s.dma.active = false ∨ s.dma.debugErr ≠ 0) →
    runTurns (ds.map .seq) s = .next t → es.length = 5 → runTurns (es.map .seq) (t.setPc s.sqr.pc) = .next u →
    u = t

/-- R201, R202: DMA_START of a stopped channel with an aligned CB_PA: the three writes leave the channel active on CB_PA
with both priorities at their maximum and WAIT_FOR_OUTSTANDING_WRITES set. -/
def Obligations.StartActivates : Prop :=
  ∀ (s : State) (ds : List Draw), s.cfg.ok = true → s.sqr.pc = .p3 .t1 → s.dma.active = false →
    s.regs.cbPa.toNat % s.cfg.cbAlign = 0 → ds.length = 3 →
    runTurns (ds.map .seq) s = .next { s with
      sqr := { s.sqr with pc := .p4 }
      dma := { s.dma with
        active := true, loaded := false, pos := 0, conblkAd := s.regs.cbPa, addrLatched := true
        priority := s.cfg.prioMax, panicPriority := s.cfg.prioMax, waitWrites := true, disDebug := false } }

/-- R164, R182: the control block fetch of an active channel: a TI other than TI_VALUE is refused, else a NEXTCONBK other
than 0 faults, else a TXFR_LEN that is no multiple of 4 faults, else the words are loaded, whatever DEST_AD is. -/
def Obligations.ControlBlockFetch : Prop :=
  ∀ s : State, s.dma.active = true → s.dma.debugErr = 0 → s.dma.loaded = false →
    s.mappedRange s.dma.conblkAd.toNat 32 = true →
    (memRead32 s.mem s.dma.conblkAd.toNat ≠ s.cfg.tiValue → takeTurn .dma s = .refused .dmaTiUnmodelled) ∧
    (memRead32 s.mem s.dma.conblkAd.toNat = s.cfg.tiValue →
      memRead32 s.mem (s.dma.conblkAd.toNat + 20) ≠ 0 → takeTurn .dma s = .fault .dmaChain) ∧
    (memRead32 s.mem s.dma.conblkAd.toNat = s.cfg.tiValue →
      memRead32 s.mem (s.dma.conblkAd.toNat + 20) = 0 →
      (memRead32 s.mem (s.dma.conblkAd.toNat + 12)).toNat % 4 ≠ 0 → takeTurn .dma s = .fault .dmaLenUnaligned) ∧
    (memRead32 s.mem s.dma.conblkAd.toNat = s.cfg.tiValue →
      memRead32 s.mem (s.dma.conblkAd.toNat + 20) = 0 →
      (memRead32 s.mem (s.dma.conblkAd.toNat + 12)).toNat % 4 = 0 →
      takeTurn .dma s = .next { s with dma := { s.dma with
        ti := s.cfg.tiValue
        src := memRead32 s.mem (s.dma.conblkAd.toNat + 4)
        dst := memRead32 s.mem (s.dma.conblkAd.toNat + 8)
        len := memRead32 s.mem (s.dma.conblkAd.toNat + 12)
        next := 0
        loaded := true } })

/-- R183, R186: a word transfer of a block whose DEST_AD is the sink hands the sink the little-endian word at the position
and moves on by 4; it waits while the sink cannot accept. That a transfer to another DEST_AD is refused is log entry 13. -/
def Obligations.WordTransfer : Prop :=
  ∀ s : State, s.dma.active = true → s.dma.debugErr = 0 → s.dma.loaded = true → s.dma.pos < s.dma.len.toNat →
    s.mappedRange (s.dma.src.toNat + s.dma.pos) 4 = true →
    (s.dma.dst = s.cfg.pwmFifoPa → s.pwm.armed = true → s.pwm.fifo.length < s.cfg.fifoDepth →
      takeTurn .dma s = .next { s with
        pwm := { s.pwm with fifo := s.pwm.fifo ++ [memRead32 s.mem (s.dma.src.toNat + s.dma.pos)] }
        dma := { s.dma with pos := s.dma.pos + 4 } }) ∧
    (s.dma.dst ≠ s.cfg.pwmFifoPa → s.pwm.armed = true → s.pwm.fifo.length < s.cfg.fifoDepth →
      takeTurn .dma s = .refused .dmaDestUnmodelled) ∧
    (¬(s.pwm.armed = true ∧ s.pwm.fifo.length < s.cfg.fifoDepth) → takeTurn .dma s = .next s)

/-- R184, R181, R187: completion sets END and clears ACTIVE; an error step sets the drawn error bits and the drawn ACTIVE and
leaves END; the agent has no step while the channel is inactive or errored. -/
def Obligations.TransferEnds : Prop :=
  ∀ (s : State) (bits : BitVec 3) (a : Bool),
    (s.dma.active = true → s.dma.debugErr = 0 → s.dma.loaded = true → s.dma.pos = s.dma.len.toNat →
      takeTurn .dma s = .next { s with dma := { s.dma with ended := true, active := false } }) ∧
    (s.dma.active = true → s.dma.debugErr = 0 → bits ≠ 0 →
      takeTurn (.dmaError bits a) s = .next { s with dma := { s.dma with debugErr := bits, active := a } }) ∧
    ((s.dma.active = false ∨ s.dma.debugErr ≠ 0) →
      takeTurn .dma s = .next s ∧ takeTurn (.dmaError bits a) s = .next s)

/-- R186: the sink drains its oldest word onto the wire while armed and clocked, and not otherwise. -/
def Obligations.SinkDrains : Prop :=
  ∀ (s : State) (w : Word) (ws : List Word), s.pwm.fifo = w :: ws →
    (s.pwm.armed = true → s.clk.enab = true → s.clk.busy = true → takeTurn .sink s = .next { s with
      pwm := ⟨true, ws, s.pwm.wire ++ serialise s.cfg.wireOrder w⟩ }) ∧
    (¬(s.pwm.armed = true ∧ s.clk.enab = true ∧ s.clk.busy = true) → takeTurn .sink s = .next s)

/-- R189, R141: with ADDRESS_ORDER the bits of the words of a buffer, in order, are its logical waveform; with
WORD_MSB_FIRST they are those of its bytes 3, 2, 1, 0 of each word in turn. -/
def Obligations.WireIsWaveform : Prop :=
  ∀ (m : Memory) (a n : Nat),
    (List.range n).flatMap (fun i => serialise .addressOrder (memRead32 m (a + 4 * i))) = waveform m a (4 * n) ∧
    (List.range n).flatMap (fun i => serialise .wordMsbFirst (memRead32 m (a + 4 * i))) =
      (List.range n).flatMap (fun i => [3, 2, 1, 0].flatMap (fun k => byteBits (memRead m (a + 4 * i + k))))

/-- R182 to R185: a whole transfer. An activated channel whose control block is as INIT wrote it, with room in the armed
sink, takes one fetch, one word per four bytes and one completion: the sink then holds the buffer's words in address order
and CS.END is 1. -/
def Obligations.TransferCarriesBuffer : Prop :=
  ∀ (s : State) (cb buf : Region), BlockInv s → Held s cb buf → s.dma.active = true → s.dma.debugErr = 0 →
    s.dma.loaded = false → s.dma.pos = 0 → s.dma.conblkAd = s.regs.cbPa → s.pwm.armed = true →
    s.pwm.fifo.length + buf.size / 4 ≤ s.cfg.fifoDepth →
    ∃ t, runTurns (List.replicate (buf.size / 4 + 2) .dma) s = .next t ∧
      t.pwm = { s.pwm with
        fifo := s.pwm.fifo ++ (List.range (buf.size / 4)).map (fun i => memRead32 s.mem (buf.base + 4 * i)) } ∧
      t.dma.ended = true ∧ t.dma.active = false ∧ t.dma.pos = buf.size ∧ t.mem = s.mem ∧ t.regs = s.regs ∧
      t.sqr = s.sqr ∧ t.engine = s.engine

/-! ## RENDER and CLEANUP as wholes -/

/-- R229 to R232: a whole RENDER on a channel that is not active or is errored: after its SEQ turns STATE is IDLE and BUSY
0, the buffer holds the encoding of the input, the fresh transfer is active on the control block, and every byte outside
the buffer, every host register, the clock and the sink are as before, but for the snapshot, DMAERR and code 4 where the
channel was errored. -/
def Obligations.RenderRunsToIdle : Prop :=
  ∀ (s : State) (cb buf : Region) (ds : List Draw), BlockInv s → Held s cb buf → s.sqr.pc = .p1 .s1 →
    (s.dma.active = false ∨ s.dma.debugErr ≠ 0) →
    ds.length = (if s.dma.debugErr = 0 then 9 else 10) + s.sqr.inLen.toNat + buf.size →
    ∃ t, runTurns (ds.map .seq) s = .next t ∧ t.engine = .idle ∧ t.busy = false ∧
      (∀ i, i < buf.size → memRead t.mem (buf.base + i) = (encodeBytes s.cfg s.inputBytes buf.size).getD i 0) ∧
      (∀ a, a < buf.base ∨ buf.base + buf.size ≤ a → memRead t.mem a = memRead s.mem a) ∧
      t.dma.phase = .active ∧ t.dma.conblkAd = s.regs.cbPa ∧ t.dma.loaded = false ∧ t.dma.pos = 0 ∧
      t.regs = (if s.dma.debugErr = 0 then s.regs
        else { s.regs with
          debugSnap := debugErrWord s.cfg.debugLayout s.dma.debugErr, dmaErr := true, errCode := 4 }) ∧
      t.clk = s.clk ∧ t.pwm = s.pwm ∧ t.fsel = s.fsel ∧ t.alloc = s.alloc ∧ t.live = s.live

/-- R237, R239: a whole CLEANUP on a channel that is not active or is errored, the clock running and stopped by ENV: after
its turns STATE is SHUTDOWN and BUSY 0, both regions are released, the four registers and the latched count are 0, the
channel is Idle, the clock is stopped, and memory, the PWM and the function selects are as before; an errored channel also
leaves the snapshot, DMAERR and code 4. That the stopped clock's FLIP is 0 is log entry 21: R113 does not name it. -/
def Obligations.CleanupRunsToShutdown : Prop :=
  ∀ (s : State) (cb buf : Region) (ds₁ ds₂ : List Draw), s.cfg.ok = true → s.alloc = .pair cb buf →
    s.engine = .shutdown → s.sqr.pc = .q1 .s1 → (s.dma.active = false ∨ s.dma.debugErr ≠ 0) →
    s.clk.enab = true → s.clk.busy = true → ds₁.length = (if s.dma.debugErr = 0 then 7 else 8) → ds₂.length = 3 →
    ∃ t, runTurns (ds₁.map .seq ++ [.env false] ++ ds₂.map .seq) s = .next t ∧ t.engine = .shutdown ∧ t.busy = false ∧
      t.alloc = .none ∧ t.live = (s.live.erase buf).erase cb ∧
      t.regs = { (if s.dma.debugErr = 0 then s.regs
        else { s.regs with
          debugSnap := debugErrWord s.cfg.debugLayout s.dma.debugErr, dmaErr := true, errCode := 4 }) with
        bufLen := 0, bufPa := 0, cbPa := 0, capacity := 0 } ∧
      t.sqr.p = 0 ∧ t.dma.phase = .idle ∧ t.clk = stoppedClk s.cfg s.clk false ∧
      t.mem = s.mem ∧ t.pwm = s.pwm ∧ t.fsel = s.fsel

/-! ## Reset -/

/-- R49: the block's own state after reset, as the spec gives it, but for `j`, which is log entry 24; the channel is not
active (R179). -/
def Obligations.ResetState : Prop :=
  State.reset.engine = .uninit ∧ State.reset.busy = false ∧ State.reset.sqr = ⟨.done, 0, 0, 0, 0, 0, 0⟩ ∧
  State.reset.alloc = .none ∧ State.reset.dma.active = false ∧
  (∀ off : BitVec 6, off ≠ 0x2C → off ≠ 0x30 → State.reset.windowRead off = 0) ∧
  State.reset.windowRead 0x2C = paramsWord State.reset.cfg ∧
  State.reset.windowRead 0x30 = BitVec.ofNat 32 State.reset.cfg.r

/-- R280 to R282: the reset input resets the block's own state from every state, forgets the allocation state without
releasing it, and leaves memory, the channel, the clock, the function selects and the PWM (that `j` becomes 0 is log
entry 24). The platform may then take back a live region the block no longer holds, and no other (log entry 11). -/
def Obligations.ResetInput : Prop :=
  ∀ s : State, takeTurn .blockReset s = .next { s with
      regs := ⟨false, false, false, false, 0, 0, 0, 0, 0, 0, 0, 0, 0, 0⟩
      engine := .uninit
      sqr := ⟨.done, 0, 0, 0, 0, 0, 0⟩
      alloc := .none } ∧
    ∀ r : Region,
      (r ∈ s.live → r ∉ s.heldRegions → takeTurn (.reclaim r) s = .next { s with live := s.live.erase r }) ∧
      (r ∉ s.live ∨ r ∈ s.heldRegions → takeTurn (.reclaim r) s = .next s)

/-! ## Invariants and whole-machine rules -/

/-- Every step keeps memory in canonical form, whichever agent moves and whatever it draws. -/
def Obligations.StepKeepsMemoryCanonical : Prop :=
  ∀ s t : State, s.mem.wf = true → step s = .next t → t.mem.wf = true

/-- R34 to R44, R79, R162, R194: every step keeps the block's invariant, whichever agent moves; and every step keeps the whole
invariant, a sound transfer with it, but for one in which the platform takes back a region that an active transfer still
reads (R282, log entry 11). -/
def Obligations.StepKeepsInvariant : Prop :=
  ∀ s t : State, step s = .next t → (BlockInv s → BlockInv t) ∧
    (Inv s → (∀ r cb buf, s.nextTurn = .reclaim r → s.dma.active = true → TransferOk s cb buf → r ≠ cb ∧ r ≠ buf) → Inv t)

/-- The invariant holds at reset (it rests on the model's reset values of the platform's state, log entries 2 to 4). -/
def Obligations.ResetMeetsInvariant : Prop := Inv State.reset

/-- R202, R255: from every state that meets the invariant, a step raises no fault but those a broken host duty raises, and
refuses nothing: the block's own sequences never raise the channel's faults. -/
def Obligations.OnlyHostFaults : Prop :=
  ∀ s : State, Inv s → (∀ f, step s = .fault f → f.hostMade = true) ∧ ∀ r, step s ≠ .refused r

/-- R79, R162: while the block holds both regions no step changes a byte of the control block, and only a SEQ step of
ENCODE changes a byte of the render buffer, while the channel is not active. -/
def Obligations.BufferWrittenOnlyWhileStopped : Prop :=
  ∀ (s t : State) (cb buf : Region) (a : Nat), BlockInv s → Held s cb buf → step s = .next t →
    memRead t.mem a ≠ memRead s.mem a →
    ¬(cb.base ≤ a ∧ a < cb.base + cb.size) ∧
    (buf.base ≤ a ∧ a < buf.base + buf.size → s.dma.active = false ∧ (∃ e, s.sqr.pc = .p2 e) ∧ ∃ d, s.nextTurn = .seq d)

/-- R42, R283: the only changes of STATE, and the only way out of SHUTDOWN. -/
def Obligations.StateTransitions : Prop :=
  ∀ s t : State, BlockInv s → step s = .next t → t.engine ≠ s.engine →
    (s.engine = .uninit ∧ t.engine = .idle ∧ t.busy = false) ∨
    (s.engine = .idle ∧ t.engine = .rendering ∧ t.busy = true) ∨
    (s.engine = .rendering ∧ t.engine = .idle ∧ t.busy = false) ∨
    ((s.engine = .uninit ∨ s.engine = .idle) ∧ t.engine = .shutdown ∧ s.busy = false) ∨
    (s.nextTurn = .blockReset ∧ t.engine = .uninit)

/-- R9, R20: no step changes a parameter. -/
def Obligations.ParametersFixed : Prop :=
  ∀ s t : State, step s = .next t → t.cfg = s.cfg

/-- R38: in every state that meets the block's invariant CAPACITY is `P * C` in IDLE and RENDERING and 0 otherwise. R34 to
R36: in each of them but at CLEANUP's last step Q4, the other registers follow the allocation: 0 while no pair is allocated,
and the latched count's length and the regions' addresses while the block holds one. That these keep their values until Q4,
and that the pair's release at Q3 leaves the allocation state for Q4, is the model's reading of R237 (log entry 10). -/
def Obligations.RegistersFollowAllocation : Prop :=
  ∀ s : State, BlockInv s →
    s.regs.capacity.toNat = (if s.engine = .idle ∨ s.engine = .rendering then s.sqr.p.toNat * s.cfg.c else 0) ∧
    (s.sqr.pc ≠ .q4 → ∀ cb buf, s.alloc = .pair cb buf →
      s.regs.bufLen.toNat = bufLen s.cfg s.sqr.p.toNat ∧ s.regs.bufPa.toNat = buf.base ∧
      s.regs.cbPa.toNat = cb.base ∧ cb.base % s.cfg.cbAlign = 0 ∧ buf.base % 4 = 0 ∧ buf.size = bufLen s.cfg s.sqr.p.toNat) ∧
    (s.sqr.pc ≠ .q4 → (∀ cb buf, s.alloc ≠ .pair cb buf) →
      s.regs.bufLen = 0 ∧ s.regs.bufPa = 0 ∧ s.regs.cbPa = 0)

/-- R221, R37: INIT touches no channel register. Only a DMA stop that finds the channel errored, and reset, write
DMA_DEBUG_SNAP, the stop with the channel's error bits. -/
def Obligations.InitLeavesChannelStopTakesSnapshot : Prop :=
  ∀ s t : State, step s = .next t →
    (∀ d, s.nextTurn = .seq d → s.sqr.pc.cmd = .init → t.dma = s.dma) ∧
    (t.regs.debugSnap ≠ s.regs.debugSnap →
      s.nextTurn = .blockReset ∨
      (∃ d, s.nextTurn = .seq d ∧ (s.sqr.pc = .p1 .s2 ∨ s.sqr.pc = .q1 .s2) ∧
        t.regs.debugSnap = debugErrWord s.cfg.debugLayout s.dma.debugErr))
end

