-- ==== Sys2Proof/Laws/State.lean ====
section
/-!
SUPPORT. One lemma per field per named update of State, so that no proof unfolds a record update.
-/
namespace Sys2Proof.Machine

variable (s : State)

@[simp] theorem State.setRegs_cfg (x : HostRegs) : (s.setRegs x).cfg = s.cfg := rfl
@[simp] theorem State.setRegs_regs (x : HostRegs) : (s.setRegs x).regs = x := rfl
@[simp] theorem State.setRegs_engine (x : HostRegs) : (s.setRegs x).engine = s.engine := rfl
@[simp] theorem State.setRegs_sqr (x : HostRegs) : (s.setRegs x).sqr = s.sqr := rfl
@[simp] theorem State.setRegs_alloc (x : HostRegs) : (s.setRegs x).alloc = s.alloc := rfl
@[simp] theorem State.setRegs_live (x : HostRegs) : (s.setRegs x).live = s.live := rfl
@[simp] theorem State.setRegs_mem (x : HostRegs) : (s.setRegs x).mem = s.mem := rfl
@[simp] theorem State.setRegs_dma (x : HostRegs) : (s.setRegs x).dma = s.dma := rfl
@[simp] theorem State.setRegs_clk (x : HostRegs) : (s.setRegs x).clk = s.clk := rfl
@[simp] theorem State.setRegs_fsel (x : HostRegs) : (s.setRegs x).fsel = s.fsel := rfl
@[simp] theorem State.setRegs_pwm (x : HostRegs) : (s.setRegs x).pwm = s.pwm := rfl
@[simp] theorem State.setRegs_host (x : HostRegs) : (s.setRegs x).host = s.host := rfl
@[simp] theorem State.setRegs_reads (x : HostRegs) : (s.setRegs x).reads = s.reads := rfl
@[simp] theorem State.setRegs_turns (x : HostRegs) : (s.setRegs x).turns = s.turns := rfl
@[simp] theorem State.setRegs_tick (x : HostRegs) : (s.setRegs x).tick = s.tick := rfl

@[simp] theorem State.setEngine_cfg (x : EngineState) : (s.setEngine x).cfg = s.cfg := rfl
@[simp] theorem State.setEngine_regs (x : EngineState) : (s.setEngine x).regs = s.regs := rfl
@[simp] theorem State.setEngine_engine (x : EngineState) : (s.setEngine x).engine = x := rfl
@[simp] theorem State.setEngine_sqr (x : EngineState) : (s.setEngine x).sqr = s.sqr := rfl
@[simp] theorem State.setEngine_alloc (x : EngineState) : (s.setEngine x).alloc = s.alloc := rfl
@[simp] theorem State.setEngine_live (x : EngineState) : (s.setEngine x).live = s.live := rfl
@[simp] theorem State.setEngine_mem (x : EngineState) : (s.setEngine x).mem = s.mem := rfl
@[simp] theorem State.setEngine_dma (x : EngineState) : (s.setEngine x).dma = s.dma := rfl
@[simp] theorem State.setEngine_clk (x : EngineState) : (s.setEngine x).clk = s.clk := rfl
@[simp] theorem State.setEngine_fsel (x : EngineState) : (s.setEngine x).fsel = s.fsel := rfl
@[simp] theorem State.setEngine_pwm (x : EngineState) : (s.setEngine x).pwm = s.pwm := rfl
@[simp] theorem State.setEngine_host (x : EngineState) : (s.setEngine x).host = s.host := rfl
@[simp] theorem State.setEngine_reads (x : EngineState) : (s.setEngine x).reads = s.reads := rfl
@[simp] theorem State.setEngine_turns (x : EngineState) : (s.setEngine x).turns = s.turns := rfl
@[simp] theorem State.setEngine_tick (x : EngineState) : (s.setEngine x).tick = s.tick := rfl

@[simp] theorem State.setSqr_cfg (x : Sequencer) : (s.setSqr x).cfg = s.cfg := rfl
@[simp] theorem State.setSqr_regs (x : Sequencer) : (s.setSqr x).regs = s.regs := rfl
@[simp] theorem State.setSqr_engine (x : Sequencer) : (s.setSqr x).engine = s.engine := rfl
@[simp] theorem State.setSqr_sqr (x : Sequencer) : (s.setSqr x).sqr = x := rfl
@[simp] theorem State.setSqr_alloc (x : Sequencer) : (s.setSqr x).alloc = s.alloc := rfl
@[simp] theorem State.setSqr_live (x : Sequencer) : (s.setSqr x).live = s.live := rfl
@[simp] theorem State.setSqr_mem (x : Sequencer) : (s.setSqr x).mem = s.mem := rfl
@[simp] theorem State.setSqr_dma (x : Sequencer) : (s.setSqr x).dma = s.dma := rfl
@[simp] theorem State.setSqr_clk (x : Sequencer) : (s.setSqr x).clk = s.clk := rfl
@[simp] theorem State.setSqr_fsel (x : Sequencer) : (s.setSqr x).fsel = s.fsel := rfl
@[simp] theorem State.setSqr_pwm (x : Sequencer) : (s.setSqr x).pwm = s.pwm := rfl
@[simp] theorem State.setSqr_host (x : Sequencer) : (s.setSqr x).host = s.host := rfl
@[simp] theorem State.setSqr_reads (x : Sequencer) : (s.setSqr x).reads = s.reads := rfl
@[simp] theorem State.setSqr_turns (x : Sequencer) : (s.setSqr x).turns = s.turns := rfl
@[simp] theorem State.setSqr_tick (x : Sequencer) : (s.setSqr x).tick = s.tick := rfl

@[simp] theorem State.setAlloc_cfg (x : AllocState) : (s.setAlloc x).cfg = s.cfg := rfl
@[simp] theorem State.setAlloc_regs (x : AllocState) : (s.setAlloc x).regs = s.regs := rfl
@[simp] theorem State.setAlloc_engine (x : AllocState) : (s.setAlloc x).engine = s.engine := rfl
@[simp] theorem State.setAlloc_sqr (x : AllocState) : (s.setAlloc x).sqr = s.sqr := rfl
@[simp] theorem State.setAlloc_alloc (x : AllocState) : (s.setAlloc x).alloc = x := rfl
@[simp] theorem State.setAlloc_live (x : AllocState) : (s.setAlloc x).live = s.live := rfl
@[simp] theorem State.setAlloc_mem (x : AllocState) : (s.setAlloc x).mem = s.mem := rfl
@[simp] theorem State.setAlloc_dma (x : AllocState) : (s.setAlloc x).dma = s.dma := rfl
@[simp] theorem State.setAlloc_clk (x : AllocState) : (s.setAlloc x).clk = s.clk := rfl
@[simp] theorem State.setAlloc_fsel (x : AllocState) : (s.setAlloc x).fsel = s.fsel := rfl
@[simp] theorem State.setAlloc_pwm (x : AllocState) : (s.setAlloc x).pwm = s.pwm := rfl
@[simp] theorem State.setAlloc_host (x : AllocState) : (s.setAlloc x).host = s.host := rfl
@[simp] theorem State.setAlloc_reads (x : AllocState) : (s.setAlloc x).reads = s.reads := rfl
@[simp] theorem State.setAlloc_turns (x : AllocState) : (s.setAlloc x).turns = s.turns := rfl
@[simp] theorem State.setAlloc_tick (x : AllocState) : (s.setAlloc x).tick = s.tick := rfl

@[simp] theorem State.setLive_cfg (x : List Region) : (s.setLive x).cfg = s.cfg := rfl
@[simp] theorem State.setLive_regs (x : List Region) : (s.setLive x).regs = s.regs := rfl
@[simp] theorem State.setLive_engine (x : List Region) : (s.setLive x).engine = s.engine := rfl
@[simp] theorem State.setLive_sqr (x : List Region) : (s.setLive x).sqr = s.sqr := rfl
@[simp] theorem State.setLive_alloc (x : List Region) : (s.setLive x).alloc = s.alloc := rfl
@[simp] theorem State.setLive_live (x : List Region) : (s.setLive x).live = x := rfl
@[simp] theorem State.setLive_mem (x : List Region) : (s.setLive x).mem = s.mem := rfl
@[simp] theorem State.setLive_dma (x : List Region) : (s.setLive x).dma = s.dma := rfl
@[simp] theorem State.setLive_clk (x : List Region) : (s.setLive x).clk = s.clk := rfl
@[simp] theorem State.setLive_fsel (x : List Region) : (s.setLive x).fsel = s.fsel := rfl
@[simp] theorem State.setLive_pwm (x : List Region) : (s.setLive x).pwm = s.pwm := rfl
@[simp] theorem State.setLive_host (x : List Region) : (s.setLive x).host = s.host := rfl
@[simp] theorem State.setLive_reads (x : List Region) : (s.setLive x).reads = s.reads := rfl
@[simp] theorem State.setLive_turns (x : List Region) : (s.setLive x).turns = s.turns := rfl
@[simp] theorem State.setLive_tick (x : List Region) : (s.setLive x).tick = s.tick := rfl

@[simp] theorem State.setMem_cfg (x : Memory) : (s.setMem x).cfg = s.cfg := rfl
@[simp] theorem State.setMem_regs (x : Memory) : (s.setMem x).regs = s.regs := rfl
@[simp] theorem State.setMem_engine (x : Memory) : (s.setMem x).engine = s.engine := rfl
@[simp] theorem State.setMem_sqr (x : Memory) : (s.setMem x).sqr = s.sqr := rfl
@[simp] theorem State.setMem_alloc (x : Memory) : (s.setMem x).alloc = s.alloc := rfl
@[simp] theorem State.setMem_live (x : Memory) : (s.setMem x).live = s.live := rfl
@[simp] theorem State.setMem_mem (x : Memory) : (s.setMem x).mem = x := rfl
@[simp] theorem State.setMem_dma (x : Memory) : (s.setMem x).dma = s.dma := rfl
@[simp] theorem State.setMem_clk (x : Memory) : (s.setMem x).clk = s.clk := rfl
@[simp] theorem State.setMem_fsel (x : Memory) : (s.setMem x).fsel = s.fsel := rfl
@[simp] theorem State.setMem_pwm (x : Memory) : (s.setMem x).pwm = s.pwm := rfl
@[simp] theorem State.setMem_host (x : Memory) : (s.setMem x).host = s.host := rfl
@[simp] theorem State.setMem_reads (x : Memory) : (s.setMem x).reads = s.reads := rfl
@[simp] theorem State.setMem_turns (x : Memory) : (s.setMem x).turns = s.turns := rfl
@[simp] theorem State.setMem_tick (x : Memory) : (s.setMem x).tick = s.tick := rfl

@[simp] theorem State.setDma_cfg (x : Dma) : (s.setDma x).cfg = s.cfg := rfl
@[simp] theorem State.setDma_regs (x : Dma) : (s.setDma x).regs = s.regs := rfl
@[simp] theorem State.setDma_engine (x : Dma) : (s.setDma x).engine = s.engine := rfl
@[simp] theorem State.setDma_sqr (x : Dma) : (s.setDma x).sqr = s.sqr := rfl
@[simp] theorem State.setDma_alloc (x : Dma) : (s.setDma x).alloc = s.alloc := rfl
@[simp] theorem State.setDma_live (x : Dma) : (s.setDma x).live = s.live := rfl
@[simp] theorem State.setDma_mem (x : Dma) : (s.setDma x).mem = s.mem := rfl
@[simp] theorem State.setDma_dma (x : Dma) : (s.setDma x).dma = x := rfl
@[simp] theorem State.setDma_clk (x : Dma) : (s.setDma x).clk = s.clk := rfl
@[simp] theorem State.setDma_fsel (x : Dma) : (s.setDma x).fsel = s.fsel := rfl
@[simp] theorem State.setDma_pwm (x : Dma) : (s.setDma x).pwm = s.pwm := rfl
@[simp] theorem State.setDma_host (x : Dma) : (s.setDma x).host = s.host := rfl
@[simp] theorem State.setDma_reads (x : Dma) : (s.setDma x).reads = s.reads := rfl
@[simp] theorem State.setDma_turns (x : Dma) : (s.setDma x).turns = s.turns := rfl
@[simp] theorem State.setDma_tick (x : Dma) : (s.setDma x).tick = s.tick := rfl

@[simp] theorem State.setClk_cfg (x : Clk) : (s.setClk x).cfg = s.cfg := rfl
@[simp] theorem State.setClk_regs (x : Clk) : (s.setClk x).regs = s.regs := rfl
@[simp] theorem State.setClk_engine (x : Clk) : (s.setClk x).engine = s.engine := rfl
@[simp] theorem State.setClk_sqr (x : Clk) : (s.setClk x).sqr = s.sqr := rfl
@[simp] theorem State.setClk_alloc (x : Clk) : (s.setClk x).alloc = s.alloc := rfl
@[simp] theorem State.setClk_live (x : Clk) : (s.setClk x).live = s.live := rfl
@[simp] theorem State.setClk_mem (x : Clk) : (s.setClk x).mem = s.mem := rfl
@[simp] theorem State.setClk_dma (x : Clk) : (s.setClk x).dma = s.dma := rfl
@[simp] theorem State.setClk_clk (x : Clk) : (s.setClk x).clk = x := rfl
@[simp] theorem State.setClk_fsel (x : Clk) : (s.setClk x).fsel = s.fsel := rfl
@[simp] theorem State.setClk_pwm (x : Clk) : (s.setClk x).pwm = s.pwm := rfl
@[simp] theorem State.setClk_host (x : Clk) : (s.setClk x).host = s.host := rfl
@[simp] theorem State.setClk_reads (x : Clk) : (s.setClk x).reads = s.reads := rfl
@[simp] theorem State.setClk_turns (x : Clk) : (s.setClk x).turns = s.turns := rfl
@[simp] theorem State.setClk_tick (x : Clk) : (s.setClk x).tick = s.tick := rfl

@[simp] theorem State.setFsel_cfg (x : Vector Word 256) : (s.setFsel x).cfg = s.cfg := rfl
@[simp] theorem State.setFsel_regs (x : Vector Word 256) : (s.setFsel x).regs = s.regs := rfl
@[simp] theorem State.setFsel_engine (x : Vector Word 256) : (s.setFsel x).engine = s.engine := rfl
@[simp] theorem State.setFsel_sqr (x : Vector Word 256) : (s.setFsel x).sqr = s.sqr := rfl
@[simp] theorem State.setFsel_alloc (x : Vector Word 256) : (s.setFsel x).alloc = s.alloc := rfl
@[simp] theorem State.setFsel_live (x : Vector Word 256) : (s.setFsel x).live = s.live := rfl
@[simp] theorem State.setFsel_mem (x : Vector Word 256) : (s.setFsel x).mem = s.mem := rfl
@[simp] theorem State.setFsel_dma (x : Vector Word 256) : (s.setFsel x).dma = s.dma := rfl
@[simp] theorem State.setFsel_clk (x : Vector Word 256) : (s.setFsel x).clk = s.clk := rfl
@[simp] theorem State.setFsel_fsel (x : Vector Word 256) : (s.setFsel x).fsel = x := rfl
@[simp] theorem State.setFsel_pwm (x : Vector Word 256) : (s.setFsel x).pwm = s.pwm := rfl
@[simp] theorem State.setFsel_host (x : Vector Word 256) : (s.setFsel x).host = s.host := rfl
@[simp] theorem State.setFsel_reads (x : Vector Word 256) : (s.setFsel x).reads = s.reads := rfl
@[simp] theorem State.setFsel_turns (x : Vector Word 256) : (s.setFsel x).turns = s.turns := rfl
@[simp] theorem State.setFsel_tick (x : Vector Word 256) : (s.setFsel x).tick = s.tick := rfl

@[simp] theorem State.setPwm_cfg (x : Pwm) : (s.setPwm x).cfg = s.cfg := rfl
@[simp] theorem State.setPwm_regs (x : Pwm) : (s.setPwm x).regs = s.regs := rfl
@[simp] theorem State.setPwm_engine (x : Pwm) : (s.setPwm x).engine = s.engine := rfl
@[simp] theorem State.setPwm_sqr (x : Pwm) : (s.setPwm x).sqr = s.sqr := rfl
@[simp] theorem State.setPwm_alloc (x : Pwm) : (s.setPwm x).alloc = s.alloc := rfl
@[simp] theorem State.setPwm_live (x : Pwm) : (s.setPwm x).live = s.live := rfl
@[simp] theorem State.setPwm_mem (x : Pwm) : (s.setPwm x).mem = s.mem := rfl
@[simp] theorem State.setPwm_dma (x : Pwm) : (s.setPwm x).dma = s.dma := rfl
@[simp] theorem State.setPwm_clk (x : Pwm) : (s.setPwm x).clk = s.clk := rfl
@[simp] theorem State.setPwm_fsel (x : Pwm) : (s.setPwm x).fsel = s.fsel := rfl
@[simp] theorem State.setPwm_pwm (x : Pwm) : (s.setPwm x).pwm = x := rfl
@[simp] theorem State.setPwm_host (x : Pwm) : (s.setPwm x).host = s.host := rfl
@[simp] theorem State.setPwm_reads (x : Pwm) : (s.setPwm x).reads = s.reads := rfl
@[simp] theorem State.setPwm_turns (x : Pwm) : (s.setPwm x).turns = s.turns := rfl
@[simp] theorem State.setPwm_tick (x : Pwm) : (s.setPwm x).tick = s.tick := rfl

@[simp] theorem State.setHost_cfg (x : List HostStmt) : (s.setHost x).cfg = s.cfg := rfl
@[simp] theorem State.setHost_regs (x : List HostStmt) : (s.setHost x).regs = s.regs := rfl
@[simp] theorem State.setHost_engine (x : List HostStmt) : (s.setHost x).engine = s.engine := rfl
@[simp] theorem State.setHost_sqr (x : List HostStmt) : (s.setHost x).sqr = s.sqr := rfl
@[simp] theorem State.setHost_alloc (x : List HostStmt) : (s.setHost x).alloc = s.alloc := rfl
@[simp] theorem State.setHost_live (x : List HostStmt) : (s.setHost x).live = s.live := rfl
@[simp] theorem State.setHost_mem (x : List HostStmt) : (s.setHost x).mem = s.mem := rfl
@[simp] theorem State.setHost_dma (x : List HostStmt) : (s.setHost x).dma = s.dma := rfl
@[simp] theorem State.setHost_clk (x : List HostStmt) : (s.setHost x).clk = s.clk := rfl
@[simp] theorem State.setHost_fsel (x : List HostStmt) : (s.setHost x).fsel = s.fsel := rfl
@[simp] theorem State.setHost_pwm (x : List HostStmt) : (s.setHost x).pwm = s.pwm := rfl
@[simp] theorem State.setHost_host (x : List HostStmt) : (s.setHost x).host = x := rfl
@[simp] theorem State.setHost_reads (x : List HostStmt) : (s.setHost x).reads = s.reads := rfl
@[simp] theorem State.setHost_turns (x : List HostStmt) : (s.setHost x).turns = s.turns := rfl
@[simp] theorem State.setHost_tick (x : List HostStmt) : (s.setHost x).tick = s.tick := rfl

@[simp] theorem State.setReads_cfg (x : List (Nat × Word)) : (s.setReads x).cfg = s.cfg := rfl
@[simp] theorem State.setReads_regs (x : List (Nat × Word)) : (s.setReads x).regs = s.regs := rfl
@[simp] theorem State.setReads_engine (x : List (Nat × Word)) : (s.setReads x).engine = s.engine := rfl
@[simp] theorem State.setReads_sqr (x : List (Nat × Word)) : (s.setReads x).sqr = s.sqr := rfl
@[simp] theorem State.setReads_alloc (x : List (Nat × Word)) : (s.setReads x).alloc = s.alloc := rfl
@[simp] theorem State.setReads_live (x : List (Nat × Word)) : (s.setReads x).live = s.live := rfl
@[simp] theorem State.setReads_mem (x : List (Nat × Word)) : (s.setReads x).mem = s.mem := rfl
@[simp] theorem State.setReads_dma (x : List (Nat × Word)) : (s.setReads x).dma = s.dma := rfl
@[simp] theorem State.setReads_clk (x : List (Nat × Word)) : (s.setReads x).clk = s.clk := rfl
@[simp] theorem State.setReads_fsel (x : List (Nat × Word)) : (s.setReads x).fsel = s.fsel := rfl
@[simp] theorem State.setReads_pwm (x : List (Nat × Word)) : (s.setReads x).pwm = s.pwm := rfl
@[simp] theorem State.setReads_host (x : List (Nat × Word)) : (s.setReads x).host = s.host := rfl
@[simp] theorem State.setReads_reads (x : List (Nat × Word)) : (s.setReads x).reads = x := rfl
@[simp] theorem State.setReads_turns (x : List (Nat × Word)) : (s.setReads x).turns = s.turns := rfl
@[simp] theorem State.setReads_tick (x : List (Nat × Word)) : (s.setReads x).tick = s.tick := rfl

@[simp] theorem State.setTurns_cfg (x : List Turn) : (s.setTurns x).cfg = s.cfg := rfl
@[simp] theorem State.setTurns_regs (x : List Turn) : (s.setTurns x).regs = s.regs := rfl
@[simp] theorem State.setTurns_engine (x : List Turn) : (s.setTurns x).engine = s.engine := rfl
@[simp] theorem State.setTurns_sqr (x : List Turn) : (s.setTurns x).sqr = s.sqr := rfl
@[simp] theorem State.setTurns_alloc (x : List Turn) : (s.setTurns x).alloc = s.alloc := rfl
@[simp] theorem State.setTurns_live (x : List Turn) : (s.setTurns x).live = s.live := rfl
@[simp] theorem State.setTurns_mem (x : List Turn) : (s.setTurns x).mem = s.mem := rfl
@[simp] theorem State.setTurns_dma (x : List Turn) : (s.setTurns x).dma = s.dma := rfl
@[simp] theorem State.setTurns_clk (x : List Turn) : (s.setTurns x).clk = s.clk := rfl
@[simp] theorem State.setTurns_fsel (x : List Turn) : (s.setTurns x).fsel = s.fsel := rfl
@[simp] theorem State.setTurns_pwm (x : List Turn) : (s.setTurns x).pwm = s.pwm := rfl
@[simp] theorem State.setTurns_host (x : List Turn) : (s.setTurns x).host = s.host := rfl
@[simp] theorem State.setTurns_reads (x : List Turn) : (s.setTurns x).reads = s.reads := rfl
@[simp] theorem State.setTurns_turns (x : List Turn) : (s.setTurns x).turns = x := rfl
@[simp] theorem State.setTurns_tick (x : List Turn) : (s.setTurns x).tick = s.tick := rfl

@[simp] theorem State.setTick_cfg (x : Nat) : (s.setTick x).cfg = s.cfg := rfl
@[simp] theorem State.setTick_regs (x : Nat) : (s.setTick x).regs = s.regs := rfl
@[simp] theorem State.setTick_engine (x : Nat) : (s.setTick x).engine = s.engine := rfl
@[simp] theorem State.setTick_sqr (x : Nat) : (s.setTick x).sqr = s.sqr := rfl
@[simp] theorem State.setTick_alloc (x : Nat) : (s.setTick x).alloc = s.alloc := rfl
@[simp] theorem State.setTick_live (x : Nat) : (s.setTick x).live = s.live := rfl
@[simp] theorem State.setTick_mem (x : Nat) : (s.setTick x).mem = s.mem := rfl
@[simp] theorem State.setTick_dma (x : Nat) : (s.setTick x).dma = s.dma := rfl
@[simp] theorem State.setTick_clk (x : Nat) : (s.setTick x).clk = s.clk := rfl
@[simp] theorem State.setTick_fsel (x : Nat) : (s.setTick x).fsel = s.fsel := rfl
@[simp] theorem State.setTick_pwm (x : Nat) : (s.setTick x).pwm = s.pwm := rfl
@[simp] theorem State.setTick_host (x : Nat) : (s.setTick x).host = s.host := rfl
@[simp] theorem State.setTick_reads (x : Nat) : (s.setTick x).reads = s.reads := rfl
@[simp] theorem State.setTick_turns (x : Nat) : (s.setTick x).turns = s.turns := rfl
@[simp] theorem State.setTick_tick (x : Nat) : (s.setTick x).tick = x := rfl

@[simp] theorem State.setPc_cfg (x : Pc) : (s.setPc x).cfg = s.cfg := rfl
@[simp] theorem State.setPc_regs (x : Pc) : (s.setPc x).regs = s.regs := rfl
@[simp] theorem State.setPc_engine (x : Pc) : (s.setPc x).engine = s.engine := rfl
@[simp] theorem State.setPc_alloc (x : Pc) : (s.setPc x).alloc = s.alloc := rfl
@[simp] theorem State.setPc_live (x : Pc) : (s.setPc x).live = s.live := rfl
@[simp] theorem State.setPc_mem (x : Pc) : (s.setPc x).mem = s.mem := rfl
@[simp] theorem State.setPc_dma (x : Pc) : (s.setPc x).dma = s.dma := rfl
@[simp] theorem State.setPc_clk (x : Pc) : (s.setPc x).clk = s.clk := rfl
@[simp] theorem State.setPc_fsel (x : Pc) : (s.setPc x).fsel = s.fsel := rfl
@[simp] theorem State.setPc_pwm (x : Pc) : (s.setPc x).pwm = s.pwm := rfl
@[simp] theorem State.setPc_host (x : Pc) : (s.setPc x).host = s.host := rfl
@[simp] theorem State.setPc_reads (x : Pc) : (s.setPc x).reads = s.reads := rfl
@[simp] theorem State.setPc_turns (x : Pc) : (s.setPc x).turns = s.turns := rfl
@[simp] theorem State.setPc_tick (x : Pc) : (s.setPc x).tick = s.tick := rfl
@[simp] theorem State.setPc_sqr (x : Pc) : (s.setPc x).sqr = { s.sqr with pc := x } := rfl

@[simp] theorem State.setJ_cfg (x : Nat) : (s.setJ x).cfg = s.cfg := rfl
@[simp] theorem State.setJ_regs (x : Nat) : (s.setJ x).regs = s.regs := rfl
@[simp] theorem State.setJ_engine (x : Nat) : (s.setJ x).engine = s.engine := rfl
@[simp] theorem State.setJ_alloc (x : Nat) : (s.setJ x).alloc = s.alloc := rfl
@[simp] theorem State.setJ_live (x : Nat) : (s.setJ x).live = s.live := rfl
@[simp] theorem State.setJ_mem (x : Nat) : (s.setJ x).mem = s.mem := rfl
@[simp] theorem State.setJ_dma (x : Nat) : (s.setJ x).dma = s.dma := rfl
@[simp] theorem State.setJ_clk (x : Nat) : (s.setJ x).clk = s.clk := rfl
@[simp] theorem State.setJ_fsel (x : Nat) : (s.setJ x).fsel = s.fsel := rfl
@[simp] theorem State.setJ_pwm (x : Nat) : (s.setJ x).pwm = s.pwm := rfl
@[simp] theorem State.setJ_host (x : Nat) : (s.setJ x).host = s.host := rfl
@[simp] theorem State.setJ_reads (x : Nat) : (s.setJ x).reads = s.reads := rfl
@[simp] theorem State.setJ_turns (x : Nat) : (s.setJ x).turns = s.turns := rfl
@[simp] theorem State.setJ_tick (x : Nat) : (s.setJ x).tick = s.tick := rfl
@[simp] theorem State.setJ_sqr (x : Nat) : (s.setJ x).sqr = { s.sqr with j := x } := rfl

@[simp] theorem raiseError_cfg (c : ErrCode) : (raiseError c s).cfg = s.cfg := rfl
@[simp] theorem raiseError_engine (c : ErrCode) : (raiseError c s).engine = s.engine := rfl
@[simp] theorem raiseError_sqr (c : ErrCode) : (raiseError c s).sqr = s.sqr := rfl
@[simp] theorem raiseError_alloc (c : ErrCode) : (raiseError c s).alloc = s.alloc := rfl
@[simp] theorem raiseError_live (c : ErrCode) : (raiseError c s).live = s.live := rfl
@[simp] theorem raiseError_mem (c : ErrCode) : (raiseError c s).mem = s.mem := rfl
@[simp] theorem raiseError_dma (c : ErrCode) : (raiseError c s).dma = s.dma := rfl
@[simp] theorem raiseError_clk (c : ErrCode) : (raiseError c s).clk = s.clk := rfl
@[simp] theorem raiseError_fsel (c : ErrCode) : (raiseError c s).fsel = s.fsel := rfl
@[simp] theorem raiseError_pwm (c : ErrCode) : (raiseError c s).pwm = s.pwm := rfl
@[simp] theorem raiseError_host (c : ErrCode) : (raiseError c s).host = s.host := rfl
@[simp] theorem raiseError_reads (c : ErrCode) : (raiseError c s).reads = s.reads := rfl
@[simp] theorem raiseError_turns (c : ErrCode) : (raiseError c s).turns = s.turns := rfl
@[simp] theorem raiseError_tick (c : ErrCode) : (raiseError c s).tick = s.tick := rfl

@[simp] theorem statusWrite_cfg (w : Word) : (statusWrite w s).cfg = s.cfg := rfl
@[simp] theorem statusWrite_engine (w : Word) : (statusWrite w s).engine = s.engine := rfl
@[simp] theorem statusWrite_sqr (w : Word) : (statusWrite w s).sqr = s.sqr := rfl
@[simp] theorem statusWrite_alloc (w : Word) : (statusWrite w s).alloc = s.alloc := rfl
@[simp] theorem statusWrite_live (w : Word) : (statusWrite w s).live = s.live := rfl
@[simp] theorem statusWrite_mem (w : Word) : (statusWrite w s).mem = s.mem := rfl
@[simp] theorem statusWrite_dma (w : Word) : (statusWrite w s).dma = s.dma := rfl
@[simp] theorem statusWrite_clk (w : Word) : (statusWrite w s).clk = s.clk := rfl
@[simp] theorem statusWrite_fsel (w : Word) : (statusWrite w s).fsel = s.fsel := rfl
@[simp] theorem statusWrite_pwm (w : Word) : (statusWrite w s).pwm = s.pwm := rfl
@[simp] theorem statusWrite_host (w : Word) : (statusWrite w s).host = s.host := rfl
@[simp] theorem statusWrite_reads (w : Word) : (statusWrite w s).reads = s.reads := rfl
@[simp] theorem statusWrite_turns (w : Word) : (statusWrite w s).turns = s.turns := rfl
@[simp] theorem statusWrite_tick (w : Word) : (statusWrite w s).tick = s.tick := rfl

@[simp] theorem release_cfg (r : Region) : (release r s).cfg = s.cfg := rfl
@[simp] theorem release_regs (r : Region) : (release r s).regs = s.regs := rfl
@[simp] theorem release_engine (r : Region) : (release r s).engine = s.engine := rfl
@[simp] theorem release_sqr (r : Region) : (release r s).sqr = s.sqr := rfl
@[simp] theorem release_alloc (r : Region) : (release r s).alloc = s.alloc := rfl
@[simp] theorem release_mem (r : Region) : (release r s).mem = s.mem := rfl
@[simp] theorem release_dma (r : Region) : (release r s).dma = s.dma := rfl
@[simp] theorem release_clk (r : Region) : (release r s).clk = s.clk := rfl
@[simp] theorem release_fsel (r : Region) : (release r s).fsel = s.fsel := rfl
@[simp] theorem release_pwm (r : Region) : (release r s).pwm = s.pwm := rfl
@[simp] theorem release_host (r : Region) : (release r s).host = s.host := rfl
@[simp] theorem release_reads (r : Region) : (release r s).reads = s.reads := rfl
@[simp] theorem release_turns (r : Region) : (release r s).turns = s.turns := rfl
@[simp] theorem release_tick (r : Region) : (release r s).tick = s.tick := rfl
@[simp] theorem release_live (r : Region) : (release r s).live = s.live.erase r := rfl

@[simp] theorem latchInit_cfg : (latchInit s).cfg = s.cfg := rfl
@[simp] theorem latchInit_regs : (latchInit s).regs = s.regs := rfl
@[simp] theorem latchInit_engine : (latchInit s).engine = s.engine := rfl
@[simp] theorem latchInit_alloc : (latchInit s).alloc = s.alloc := rfl
@[simp] theorem latchInit_live : (latchInit s).live = s.live := rfl
@[simp] theorem latchInit_mem : (latchInit s).mem = s.mem := rfl
@[simp] theorem latchInit_dma : (latchInit s).dma = s.dma := rfl
@[simp] theorem latchInit_clk : (latchInit s).clk = s.clk := rfl
@[simp] theorem latchInit_fsel : (latchInit s).fsel = s.fsel := rfl
@[simp] theorem latchInit_pwm : (latchInit s).pwm = s.pwm := rfl
@[simp] theorem latchInit_host : (latchInit s).host = s.host := rfl
@[simp] theorem latchInit_reads : (latchInit s).reads = s.reads := rfl
@[simp] theorem latchInit_turns : (latchInit s).turns = s.turns := rfl
@[simp] theorem latchInit_tick : (latchInit s).tick = s.tick := rfl

@[simp] theorem latchRender_cfg : (latchRender s).cfg = s.cfg := rfl
@[simp] theorem latchRender_regs : (latchRender s).regs = s.regs := rfl
@[simp] theorem latchRender_engine : (latchRender s).engine = s.engine := rfl
@[simp] theorem latchRender_alloc : (latchRender s).alloc = s.alloc := rfl
@[simp] theorem latchRender_live : (latchRender s).live = s.live := rfl
@[simp] theorem latchRender_mem : (latchRender s).mem = s.mem := rfl
@[simp] theorem latchRender_dma : (latchRender s).dma = s.dma := rfl
@[simp] theorem latchRender_clk : (latchRender s).clk = s.clk := rfl
@[simp] theorem latchRender_fsel : (latchRender s).fsel = s.fsel := rfl
@[simp] theorem latchRender_pwm : (latchRender s).pwm = s.pwm := rfl
@[simp] theorem latchRender_host : (latchRender s).host = s.host := rfl
@[simp] theorem latchRender_reads : (latchRender s).reads = s.reads := rfl
@[simp] theorem latchRender_turns : (latchRender s).turns = s.turns := rfl
@[simp] theorem latchRender_tick : (latchRender s).tick = s.tick := rfl

end Sys2Proof.Machine
end

