-- ==== Sys2Proof/Laws/Memory.lean ====
section
/-!
SUPPORT. The laws of physical memory: every write keeps the canonical form, a read after a write gives the value
written, and a write leaves every other address alone.
-/
namespace Sys2Proof.Machine

/-! ## One byte -/

theorem memRead_below {lo : Nat} {m : Memory} (h : wfAbove lo m = true) {a : Nat} (ha : a < lo) :
    memRead m a = unlistedByte := by
  induction m generalizing lo with
  | nil => rfl
  | cons hd m ih =>
    obtain ⟨x, c⟩ := hd
    simp only [wfAbove, Bool.and_eq_true, decide_eq_true_eq] at h
    simp only [memRead]
    rw [if_neg (by omega), ih h.2 (by omega)]

theorem memRead_memWrite_of_wfAbove {lo : Nat} {m : Memory} (h : wfAbove lo m = true) (a : Nat) (b : Byte) (x : Nat) :
    memRead (memWrite m a b) x = if x = a then b else memRead m x := by
  induction m generalizing lo with
  | nil =>
    simp only [memWrite]
    split <;> simp_all [memRead]
  | cons hd m ih =>
    obtain ⟨y, c⟩ := hd
    have h' := h
    simp only [wfAbove, Bool.and_eq_true, decide_eq_true_eq] at h
    have hb : ∀ {z : Nat}, z < y + 1 → memRead m z = unlistedByte := fun hz => memRead_below h.2 hz
    simp only [memWrite]
    split
    · rename_i hay
      split
      · rename_i hbu
        by_cases hx : x = a
        · subst hx; simp [memRead, hbu, hb (by omega : x < y + 1), show x ≠ y by omega]
        · simp [hx]
      · simp [memRead]
    · rename_i hay
      split
      · rename_i hyy
        subst hyy
        split
        · rename_i hbu
          by_cases hx : x = a
          · subst hx; simp [hbu, hb (by omega : x < x + 1)]
          · simp [hx, memRead]
        · by_cases hx : x = a <;> simp [hx, memRead]
      · rename_i hne
        simp only [memRead]
        rw [ih h.2]
        by_cases hx : x = y
        · subst hx; simp [Ne.symm hne]
        · simp [hx]

/-- A read after a write of one byte. -/
theorem memRead_memWrite {m : Memory} (h : m.wf = true) (a : Nat) (b : Byte) (x : Nat) :
    memRead (memWrite m a b) x = if x = a then b else memRead m x :=
  memRead_memWrite_of_wfAbove h a b x

theorem wfAbove_mono {lo hi : Nat} {m : Memory} (h : wfAbove hi m = true) (hle : lo ≤ hi) : wfAbove lo m = true := by
  cases m with
  | nil => rfl
  | cons hd m =>
    obtain ⟨x, c⟩ := hd
    simp only [wfAbove, Bool.and_eq_true, decide_eq_true_eq] at h ⊢
    exact ⟨⟨⟨by omega, h.1.1.2⟩, h.1.2⟩, h.2⟩

theorem wfAbove_memWrite {lo : Nat} {m : Memory} (h : wfAbove lo m = true) {a : Nat} (hlo : lo ≤ a)
    (ha : a < Config.paSpace) (b : Byte) : wfAbove lo (memWrite m a b) = true := by
  induction m generalizing lo with
  | nil =>
    simp only [memWrite]
    split
    · rfl
    · simp_all [wfAbove]
  | cons hd m ih =>
    obtain ⟨y, c⟩ := hd
    have h' := h
    simp only [wfAbove, Bool.and_eq_true, decide_eq_true_eq] at h
    simp only [memWrite]
    split
    · split
      · exact h'
      · simp only [wfAbove, Bool.and_eq_true, decide_eq_true_eq]
        refine ⟨⟨⟨hlo, ha⟩, ‹_›⟩, ⟨⟨by omega, h.1.1.2⟩, h.1.2⟩, h.2⟩
    · split
      · split
        · exact wfAbove_mono h.2 (by omega)
        · simp only [wfAbove, Bool.and_eq_true, decide_eq_true_eq]
          refine ⟨⟨⟨hlo, ha⟩, ‹_›⟩, ?_⟩
          rename_i hay _
          subst hay
          exact h.2
      · simp only [wfAbove, Bool.and_eq_true, decide_eq_true_eq]
        exact ⟨⟨⟨h.1.1.1, h.1.1.2⟩, h.1.2⟩, ih h.2 (by omega)⟩

/-- A byte write inside the address space keeps the canonical form. -/
theorem memWrite_wf {m : Memory} (h : m.wf = true) {a : Nat} (ha : a < Config.paSpace) (b : Byte) :
    (memWrite m a b).wf = true :=
  wfAbove_memWrite h (Nat.zero_le a) ha b

/-! ## A word -/

theorem memWrite32_wf {m : Memory} (h : m.wf = true) {a : Nat} (ha : a + 4 ≤ Config.paSpace) (v : Word) :
    (memWrite32 m a v).wf = true :=
  memWrite_wf (memWrite_wf (memWrite_wf (memWrite_wf h (by omega) _) (by omega) _) (by omega) _) (by omega) _

/-- A byte read after a word write. -/
theorem memRead_memWrite32 {m : Memory} (h : m.wf = true) {a : Nat} (ha : a + 4 ≤ Config.paSpace) (v : Word) (x : Nat) :
    memRead (memWrite32 m a v) x = if a ≤ x ∧ x < a + 4 then wordByte v (x - a) else memRead m x := by
  have h0 := memWrite_wf h (show a < Config.paSpace by omega) (wordByte v 0)
  have h1 := memWrite_wf h0 (show a + 1 < Config.paSpace by omega) (wordByte v 1)
  have h2 := memWrite_wf h1 (show a + 2 < Config.paSpace by omega) (wordByte v 2)
  rw [memWrite32, memRead_memWrite h2, memRead_memWrite h1, memRead_memWrite h0, memRead_memWrite h]
  by_cases hx : a ≤ x ∧ x < a + 4
  · obtain ⟨k, rfl⟩ : ∃ k, x = a + k := ⟨x - a, by omega⟩
    have hk : k < 4 := by omega
    have : k = 0 ∨ k = 1 ∨ k = 2 ∨ k = 3 := by omega
    rcases this with rfl | rfl | rfl | rfl <;> simp
  · rw [if_neg hx, if_neg (by omega), if_neg (by omega), if_neg (by omega), if_neg (by omega)]

theorem memWrite32_read_outside {m : Memory} (h : m.wf = true) {a : Nat} (ha : a + 4 ≤ Config.paSpace) (v : Word)
    {x : Nat} (hx : x < a ∨ a + 4 ≤ x) : memRead (memWrite32 m a v) x = memRead m x := by
  rw [memRead_memWrite32 h ha, if_neg (by omega)]

/-- The four bytes of a word, most significant first, are the word. -/
theorem wordByte_append (v : Word) : wordByte v 3 ++ wordByte v 2 ++ wordByte v 1 ++ wordByte v 0 = v := by
  apply BitVec.eq_of_toNat_eq
  have := v.isLt
  simp only [wordByte, BitVec.toNat_append, BitVec.extractLsb'_toNat]
  simp only [Nat.shiftLeft_eq, Nat.shiftRight_eq_div_pow, Nat.or_comm]
  have e : ∀ x y : Nat, y < 2 ^ 8 → (y ||| x * 2 ^ 8) = x * 2 ^ 8 + y := by
    intro x y hy
    rw [Nat.or_comm, ← Nat.shiftLeft_eq, ← Nat.shiftLeft_add_eq_or_of_lt hy]
  rw [e _ _ (Nat.mod_lt _ (by decide)), e _ _ (Nat.mod_lt _ (by decide)), e _ _ (Nat.mod_lt _ (by decide))]
  norm_num
  omega

/-- A word read after a word write at the same address. -/
theorem memRead32_memWrite32_same {m : Memory} (h : m.wf = true) {a : Nat} (ha : a + 4 ≤ Config.paSpace) (v : Word) :
    memRead32 (memWrite32 m a v) a = v := by
  simp only [memRead32, memRead_memWrite32 h ha]
  rw [if_pos (by omega), if_pos (by omega), if_pos (by omega), if_pos (by omega)]
  simpa using wordByte_append v

/-- A word read depends on its four bytes alone. -/
theorem memRead32_congr {m m' : Memory} {a : Nat} (h : ∀ x, a ≤ x → x < a + 4 → memRead m' x = memRead m x) :
    memRead32 m' a = memRead32 m a := by
  simp only [memRead32]
  rw [h (a + 3) (by omega) (by omega), h (a + 2) (by omega) (by omega), h (a + 1) (by omega) (by omega),
    h a (by omega) (by omega)]

/-- A word read after a word write elsewhere. -/
theorem memRead32_memWrite32_ne {m : Memory} (h : m.wf = true) {a x : Nat} (ha : a + 4 ≤ Config.paSpace) (v : Word)
    (hx : x + 4 ≤ a ∨ a + 4 ≤ x) : memRead32 (memWrite32 m a v) x = memRead32 m x :=
  memRead32_congr fun y h1 h2 => memWrite32_read_outside h ha v (by omega)

/-! ## A run of bytes -/

theorem memWriteList_wf {m : Memory} (h : m.wf = true) {a : Nat} {bs : List Byte}
    (ha : a + bs.length ≤ Config.paSpace) : (memWriteList m a bs).wf = true := by
  induction bs generalizing m a with
  | nil => exact h
  | cons b bs ih =>
    simp only [List.length_cons] at ha
    exact ih (memWrite_wf h (by omega) b) (by omega)

/-- A list write leaves every address outside its run alone. -/
theorem memWriteList_read_outside {m : Memory} (h : m.wf = true) {a : Nat} {bs : List Byte}
    (ha : a + bs.length ≤ Config.paSpace) {x : Nat} (hx : x < a ∨ a + bs.length ≤ x) :
    memRead (memWriteList m a bs) x = memRead m x := by
  induction bs generalizing m a with
  | nil => rfl
  | cons b bs ih =>
    simp only [List.length_cons] at ha hx
    rw [memWriteList, ih (memWrite_wf h (by omega) b) (by omega) (by omega), memRead_memWrite h, if_neg (by omega)]

/-! ## Mapped addresses -/

theorem State.mapped_lt {s : State} {a : Nat} (h : s.mapped a = true) : a < Config.paSpace := by
  simp only [State.mapped, Bool.and_eq_true, decide_eq_true_eq] at h
  exact h.1.1

theorem State.mappedRange_iff (s : State) (a n : Nat) :
    s.mappedRange a n = true ↔ ∀ i, i < n → s.mapped (a + i) = true := by
  simp [State.mappedRange]

theorem State.mappedRange_sub {s : State} {a n b k : Nat} (h : s.mappedRange a n = true) (hb : a ≤ b)
    (hk : b + k ≤ a + n) : s.mappedRange b k = true := by
  rw [State.mappedRange_iff] at h ⊢
  intro i hi
  have := h (b - a + i) (by omega)
  rwa [show a + (b - a + i) = b + i by omega] at this

theorem State.mappedRange_le {s : State} {a n : Nat} (h : s.mappedRange a n = true) (hn : 0 < n) :
    a + n ≤ Config.paSpace := by
  rw [State.mappedRange_iff] at h
  have := State.mapped_lt (h (n - 1) (by omega))
  omega

/-- What maps an address is the parameters alone. -/
theorem State.mapped_congr {s t : State} (h : t.cfg = s.cfg) (a : Nat) : t.mapped a = s.mapped a := by
  simp only [State.mapped, h]

theorem State.mappedRange_congr {s t : State} (h : t.cfg = s.cfg) (a n : Nat) :
    t.mappedRange a n = s.mappedRange a n := by
  simp only [State.mappedRange, State.mapped_congr h]

/-- All a byte store can do. -/
theorem State.store8_some {s t : State} {a : Nat} {b : Byte} (h : s.store8 a b = some t) :
    s.mapped a = true ∧ t = s.setMem (memWrite s.mem a b) := by
  simp only [State.store8] at h
  split at h
  · exact ⟨‹_›, (Option.some.inj h).symm⟩
  · cases h

theorem State.store8_of_mapped {s : State} {a : Nat} (h : s.mapped a = true) (b : Byte) :
    s.store8 a b = some (s.setMem (memWrite s.mem a b)) := by
  simp [State.store8, h]

/-- All a word store can do. -/
theorem State.store32_some {s t : State} {a : Nat} {v : Word} (h : s.store32 a v = some t) :
    s.mappedRange a 4 = true ∧ t = s.setMem (memWrite32 s.mem a v) := by
  simp only [State.store32] at h
  split at h
  · exact ⟨‹_›, (Option.some.inj h).symm⟩
  · cases h

theorem State.store32_of_mapped {s : State} {a : Nat} (h : s.mappedRange a 4 = true) (v : Word) :
    s.store32 a v = some (s.setMem (memWrite32 s.mem a v)) := by
  simp [State.store32, h]

end Sys2Proof.Machine
end

