-- ==== Sys2Proof/Laws/Layout.lean ====
section
/-!
SUPPORT. What a good parameter set gives (R9, R10), and what the bits of a word built by a layout are.
-/
namespace Sys2Proof

/-! ## Good parameters -/

/-- The constraints of R10. -/
theorem Params.ok_constraints {p : Params} (h : p.ok = true) : (p.k = 3 ∨ p.k = 4) ∧ 1 ≤ p.aLow ∧ p.aLow < p.aHigh ∧
    p.aHigh ≤ p.k - 1 ∧ 1 ≤ p.c ∧ p.maxBufBytes % 4 = 0 ∧ p.pwmFifoPa.toNat % 4 = 0 := by
  simp only [Params.ok, Params.constraintsOk, Bool.and_eq_true, Bool.or_eq_true, beq_iff_eq, decide_eq_true_eq] at h
  tauto

/-- What the control block's size and alignment, and the function-select words, meet. -/
theorem Params.ok_sizes {p : Params} (h : p.ok = true) :
    32 ≤ p.cbBytes ∧ 0 < p.cbAlign ∧ p.cbAlign % 4 = 0 ∧ 1 ≤ p.fselPerWord ∧ 3 * p.fselPerWord ≤ 32 := by
  simp only [Params.ok, Params.layoutOk, Bool.and_eq_true, beq_iff_eq, decide_eq_true_eq] at h
  tauto

theorem Params.ok_positions {p : Params} (h : p.ok = true) : positionsOk (CsBit.all.map p.csLayout.pos) = true ∧
    positionsOk (DebugLayout.all.map p.debugLayout.pos) = true ∧
    positionsOk (ClkCtlBit.all.map p.clkLayout.ctlPos) = true ∧
    positionsOk (ClkDivBit.all.map p.clkLayout.divPos) = true := by
  simp only [Params.ok, Params.layoutOk, Bool.and_eq_true] at h
  tauto

/-! ## Every bit of a layout is listed -/

theorem CsBit.mem_all (b : CsBit) : b ∈ CsBit.all := by
  cases b <;> first | decide | (rename_i i; revert i; decide)

theorem DebugLayout.mem_all (i : Fin 3) : i ∈ DebugLayout.all := by revert i; decide

theorem ClkCtlBit.mem_all (b : ClkCtlBit) : b ∈ ClkCtlBit.all := by
  cases b <;> first | decide | (rename_i i; revert i; decide)

theorem ClkDivBit.mem_all (b : ClkDivBit) : b ∈ ClkDivBit.all := by
  cases b <;> rename_i i <;> revert i <;> decide

namespace Machine

/-! ## Words by their bits -/

theorem bitsNat_testBit (f : Nat → Bool) (n i : Nat) : (bitsNat f n).testBit i = (decide (i < n) && f i) := by
  induction n generalizing f i with
  | zero => simp [bitsNat]
  | succ n ih =>
    cases i with
    | zero => cases h : f 0 <;> simp [bitsNat, Nat.testBit_zero, h]
    | succ i =>
      have hd : ((f 0).toNat + 2 * bitsNat (fun i => f (i + 1)) n) / 2 = bitsNat (fun i => f (i + 1)) n := by
        cases f 0 <;> simp
        omega
      rw [Nat.testBit_succ, bitsNat, hd, ih]
      simp

/-- Bit `i` of a word given by its bits. -/
theorem wordOfBits_getLsbD (f : Nat → Bool) (i : Nat) : (wordOfBits f).getLsbD i = (decide (i < 32) && f i) := by
  rw [wordOfBits, BitVec.getLsbD_ofNat, bitsNat_testBit]
  cases decide (i < 32) <;> rfl

variable {α : Type} {fields : List α} {pos : α → Nat} {v : α → Bool} {other : Nat → Bool}

/-- A field of a layout's word, where no two fields share a position. -/
theorem fieldWord_field (h : positionsOk (fields.map pos) = true) {b : α} (hb : b ∈ fields) :
    (fieldWord fields pos v other).getLsbD (pos b) = v b := by
  simp only [positionsOk, Bool.and_eq_true, List.all_eq_true, decide_eq_true_eq] at h
  have h32 : pos b < 32 := h.1 _ (List.mem_map_of_mem hb)
  rw [fieldWord, wordOfBits_getLsbD]
  simp only [h32, decide_true, Bool.true_and]
  cases hf : fields.find? (fun c => pos c == pos b) with
  | none => exact absurd (List.find?_eq_none.1 hf b hb) (by simp)
  | some c =>
    have hc : pos c = pos b := by simpa using List.find?_some hf
    rw [List.inj_on_of_nodup_map h.2 (List.mem_of_find?_eq_some hf) hb hc]

/-- A bit of a layout's word that belongs to no field. -/
theorem fieldWord_other {i : Nat} (h : ∀ b ∈ fields, pos b ≠ i) :
    (fieldWord fields pos v other).getLsbD i = (decide (i < 32) && other i) := by
  rw [fieldWord, wordOfBits_getLsbD]
  have : fields.find? (fun c => pos c == i) = none := by simpa using h
  simp only [this]

/-- A field of a word of CS (R172). -/
theorem csWord_field {p : Params} (h : p.ok = true) (v : CsBit → Bool) (b : CsBit) :
    (csWord p.csLayout v).getLsbD (p.csLayout.pos b) = v b := fieldWord_field (Params.ok_positions h).1 b.mem_all

/-- A reserved bit of a word of CS (R172). -/
theorem csWord_reserved (l : CsLayout) (v : CsBit → Bool) {i : Nat} (h : ∀ b, l.pos b ≠ i) :
    (csWord l v).getLsbD i = false := by
  rw [csWord, fieldWord_other fun b _ => h b]; simp

/-- A four-bit field of a word of CS: the priorities (R172). -/
theorem csWord_nibble {p : Params} (h : p.ok = true) (v : CsBit → Bool) {lo : Nat} {q : BitVec 4}
    (hb : ∀ i : Fin 4, ∃ b, p.csLayout.pos b = lo + i ∧ v b = q.getLsbD i) : (csWord p.csLayout v).extractLsb' lo 4 = q := by
  apply BitVec.eq_of_getLsbD_eq
  intro i hi
  obtain ⟨b, h1, h2⟩ := hb ⟨i, hi⟩
  rw [BitVec.getLsbD_extractLsb', ← h2, ← csWord_field h v b, h1]
  simp [hi]

/-- An error bit of a read of DEBUG (R173). -/
theorem debugRead_field {p : Params} (h : p.ok = true) (d : Dma) (w : Word) (i : Fin 3) :
    (debugRead p.debugLayout d w).getLsbD (p.debugLayout.pos i) = d.debugErr.getLsbD i :=
  fieldWord_field (Params.ok_positions h).2.1 (DebugLayout.mem_all i)

/-- An error bit of a word that holds error bits alone (R173). -/
theorem debugErrWord_field {p : Params} (h : p.ok = true) (e : BitVec 3) (i : Fin 3) :
    (debugErrWord p.debugLayout e).getLsbD (p.debugLayout.pos i) = e.getLsbD i :=
  fieldWord_field (Params.ok_positions h).2.1 (DebugLayout.mem_all i)

/-- The error bits of the word that holds them. -/
theorem debugErrOf_debugErrWord {p : Params} (h : p.ok = true) (e : BitVec 3) :
    debugErrOf p.debugLayout (debugErrWord p.debugLayout e) = e := by
  simp only [debugErrOf, debugErrWord_field h]
  revert e; decide

/-- Error bit `i` of a word of DEBUG. -/
theorem debugErrOf_getLsbD (l : DebugLayout) (v : Word) (i : Fin 3) :
    (debugErrOf l v).getLsbD i = v.getLsbD (l.pos i) := by
  have : ∀ a b c : Bool, ∀ i : Fin 3, (BitVec.ofBool c ++ BitVec.ofBool b ++ BitVec.ofBool a : BitVec 3).getLsbD i =
      if i = 0 then a else if i = 1 then b else c := by decide
  rw [debugErrOf, this]
  fin_cases i <;> rfl

/-- Each field of the clock's written control word stands at its place, BUSY 0 and the password with them (R116). -/
theorem clkCtlWord_fields {p : Params} (h : p.ok = true) (c : Clk) :
    let w := clkCtlWord p.clkLayout c
    let at_ := fun b => w.getLsbD (p.clkLayout.ctlPos b)
    at_ .enab = c.enab ∧ at_ .kill = c.kill ∧ at_ .flip = c.flip ∧ at_ .busy = false ∧
    (∀ i, at_ (.src i) = c.src.getLsbD i) ∧ (∀ i, at_ (.mash i) = c.mash.getLsbD i) ∧
    ∀ i, at_ (.password i) = p.clkLayout.passwordValue.getLsbD i := by
  have hp := (Params.ok_positions h).2.2.1
  exact ⟨fieldWord_field hp (ClkCtlBit.mem_all _), fieldWord_field hp (ClkCtlBit.mem_all _),
    fieldWord_field hp (ClkCtlBit.mem_all _), fieldWord_field hp (ClkCtlBit.mem_all _),
    fun i => fieldWord_field hp (ClkCtlBit.mem_all (.src i)), fun i => fieldWord_field hp (ClkCtlBit.mem_all (.mash i)),
    fun i => fieldWord_field hp (ClkCtlBit.mem_all (.password i))⟩

/-- Each field of the clock's written divisor word stands at its place (R116). -/
theorem clkDivWord_fields {p : Params} (h : p.ok = true) (c : Clk) (i : Fin 12) :
    (clkDivWord p.clkLayout c).getLsbD (p.clkLayout.divPos (.divi i)) = c.divi.getLsbD i ∧
    (clkDivWord p.clkLayout c).getLsbD (p.clkLayout.divPos (.divf i)) = c.divf.getLsbD i :=
  ⟨fieldWord_field (Params.ok_positions h).2.2.2 (ClkDivBit.mem_all (.divi i)),
    fieldWord_field (Params.ok_positions h).2.2.2 (ClkDivBit.mem_all (.divf i))⟩

end Machine

end Sys2Proof
end

