-- ==== Sys2Proof/Laws/Channel.lean ====
section
/-!
SUPPORT. What the channel's registers read as and what the block's fixed writes to them do (R171 to R178, R191, R201).
-/
namespace Sys2Proof.Machine

/-! ## Reads -/

/-- ERROR of a CS read, whatever is drawn (R172, R174). -/
theorem csRead_error {p : Params} (h : p.ok = true) (d : Dma) (w : Word) :
    (csRead p.csLayout d w).getLsbD (p.csLayout.pos .error) = d.error := csWord_field h _ _

/-- ACTIVE of a CS read, whatever is drawn (R172). -/
theorem csRead_active {p : Params} (h : p.ok = true) (d : Dma) (w : Word) :
    (csRead p.csLayout d w).getLsbD (p.csLayout.pos .active) = d.active := csWord_field h _ _

/-- The masked DEBUG read is the error bits, whatever is drawn (R173). -/
@[simp] theorem debugRead_masked (l : DebugLayout) (d : Dma) (w : Word) :
    debugRead l d w &&& debugErrMask l = debugErrWord l d.debugErr := by
  apply BitVec.eq_of_getLsbD_eq
  intro i hi
  simp only [debugRead, debugErrMask, debugErrWord, fieldWord, BitVec.getLsbD_and, wordOfBits_getLsbD]
  cases DebugLayout.all.find? (fun b => l.pos b == i) with
  | none => simp
  | some b =>
    have : (0b111 : BitVec 3).getLsbD b = true := by revert b; decide
    simp only [hi, decide_true, Bool.true_and, this, Bool.and_true]

theorem Dma.error_iff (d : Dma) : d.error = true ↔ d.debugErr ≠ 0 := by simp [Dma.error]

theorem Dma.error_false_iff (d : Dma) : d.error = false ↔ d.debugErr = 0 := by simp [Dma.error]

/-! ## The writes of DMA_STOP -/

/-- S3: the module reset (R178). -/
theorem csWrite_reset (w : Word) {s : State} (hc : s.cfg.ok = true) :
    csWrite (stopResetWord s.cfg) w s = .next (s.setDma (channelReset s.dma (w.extractLsb' 0 3))) := by
  have h : (stopResetWord s.cfg).getLsbD (s.cfg.csLayout.pos .reset) = true := csWord_field hc _ _
  simp only [csWrite, h, if_true]

/-- What S5's word leaves of the channel's fields (R175, R191). -/
theorem stopClearWord_fields {p : Params} (h : p.ok = true) (d : Dma) : csFields p.csLayout (stopClearWord p) d =
    { d with ended := false, intr := false, priority := 0, panicPriority := 0, waitWrites := false, disDebug := false } := by
  have hb (b) : (stopClearWord p).getLsbD (p.csLayout.pos b) = (b == .ended || b == .intr) := csWord_field h _ b
  have h1 : (stopClearWord p).extractLsb' p.csLayout.priority 4 = 0 :=
    csWord_nibble h _ fun i => ⟨.priority i, rfl, by simp⟩
  have h2 : (stopClearWord p).extractLsb' p.csLayout.panicPriority 4 = 0 :=
    csWord_nibble h _ fun i => ⟨.panicPriority i, rfl, by simp⟩
  simp only [csFields, hb, h1, h2]
  simp

/-- S5 of a channel that is not active: END and INT are cleared, and the other fields take zeros (R175). -/
theorem csWrite_clear (w : Word) {s : State} (hc : s.cfg.ok = true) (h : s.dma.active = false) :
    csWrite (stopClearWord s.cfg) w s = .next (s.setDma { s.dma with
      ended := false, intr := false, priority := 0, panicPriority := 0, waitWrites := false, disDebug := false }) := by
  have hb (b) : (stopClearWord s.cfg).getLsbD (s.cfg.csLayout.pos b) = (b == .ended || b == .intr) := csWord_field hc _ b
  simp only [csWrite, hb, h, stopClearWord_fields hc]
  rfl

/-- S6: every error bit is cleared (R177). -/
theorem debugWrite_all {s : State} (hc : s.cfg.ok = true) :
    debugWrite (debugErrMask s.cfg.debugLayout) s = s.setDma { s.dma with debugErr := 0 } := by
  have : ∀ e : BitVec 3, e &&& ~~~(0b111 : BitVec 3) = 0 := by decide
  simp only [debugWrite, debugErrMask, debugErrOf_debugErrWord hc, this]

/-! ## The writes of DMA_START -/

/-- The fields T2 and T3 write (R201). -/
def startedDma (p : Params) (d : Dma) : Dma :=
  { d with priority := p.prioMax, panicPriority := p.prioMax, waitWrites := true, disDebug := false }

theorem csFields_startFlags {p : Params} (h : p.ok = true) (a : Bool) (d : Dma) :
    csFields p.csLayout (startFlags p a) d = startedDma p d := by
  have hb (b) : (startFlags p a).getLsbD (p.csLayout.pos b) = _ := csWord_field h _ b
  have h1 : (startFlags p a).extractLsb' p.csLayout.priority 4 = p.prioMax :=
    csWord_nibble h _ fun i => ⟨.priority i, rfl, rfl⟩
  have h2 : (startFlags p a).extractLsb' p.csLayout.panicPriority 4 = p.prioMax :=
    csWord_nibble h _ fun i => ⟨.panicPriority i, rfl, rfl⟩
  simp only [csFields, startedDma, hb, h1, h2, Bool.not_false, Bool.and_true]

/-- T2 of a channel that is not active (R201). -/
theorem csWrite_flags (w : Word) {s : State} (hc : s.cfg.ok = true) (h : s.dma.active = false) :
    csWrite (startFlags s.cfg false) w s = .next (s.setDma (startedDma s.cfg s.dma)) := by
  have hb (b) : (startFlags s.cfg false).getLsbD (s.cfg.csLayout.pos b) = _ := csWord_field hc _ b
  simp only [csWrite, hb, h, csFields_startFlags hc, Bool.false_eq_true, if_false]

/-- T3 of a channel that is not active and holds an aligned address (R182, R201). -/
theorem csWrite_activate (w : Word) {s : State} (hc : s.cfg.ok = true) (h : s.dma.active = false)
    (hl : s.dma.addrLatched = true) (ha : s.dma.conblkAd.toNat % s.cfg.cbAlign = 0) :
    csWrite (startFlags s.cfg true) w s = .next (s.setDma { startedDma s.cfg s.dma with
      active := true, loaded := false, pos := 0 }) := by
  have hb (b) : (startFlags s.cfg true).getLsbD (s.cfg.csLayout.pos b) = _ := csWord_field hc _ b
  simp only [csWrite, hb, h, csFields_startFlags hc, Bool.false_eq_true, if_false, if_true]
  simp [activate, startedDma, hl, ha, State.setDma]

/-- All a CS write can do: it changes the channel alone. -/
theorem csWrite_next {v w : Word} {s t : State} (h : csWrite v w s = .next t) : t = s.setDma t.dma := by
  simp only [csWrite, activate] at h
  split_ifs at h <;> cases h <;> rfl

/-- All a CONBLK_AD write can do. -/
theorem conblkWrite_next {v : Word} {s t : State} (h : conblkWrite v s = .next t) :
    s.dma.active = false ∧ t = s.setDma { s.dma with conblkAd := v, addrLatched := true } := by
  simp only [conblkWrite] at h
  split_ifs at h with hc
  · cases h; exact ⟨by simpa using hc, rfl⟩

/-- All that `thenPc` can do. -/
theorem thenPc_next {r : Result} {pc : Pc} {t : State} (h : thenPc r pc = .next t) :
    ∃ u, r = .next u ∧ t = u.setPc pc := by
  cases r with
  | next u => exact ⟨u, rfl, by simpa [thenPc] using h.symm⟩
  | fault f => simp [thenPc] at h
  | refused f => simp [thenPc] at h

end Sys2Proof.Machine
end

