-- ==== Sys2Proof/Laws/Ops.lean ====
section
/-!
SUPPORT. All that regions, the allocator, the commands and the sequence of turns can do, said once.
-/
namespace Sys2Proof.Machine

/-! ## Regions -/

theorem regionContains_iff (r : Region) (a : Nat) :
    regionContains r a = true ↔ r.base ≤ a ∧ a < r.base + r.size := by
  simp [regionContains]

/-- Two regions overlap exactly when they share an address. -/
theorem regionsOverlap_iff (r t : Region) :
    regionsOverlap r t = true ↔ ∃ i j, i < r.size ∧ j < t.size ∧ r.base + i = t.base + j := by
  simp only [regionsOverlap, Bool.and_eq_true, decide_eq_true_eq]
  constructor
  · rintro ⟨⟨⟨h1, h2⟩, h3⟩, h4⟩
    by_cases h : r.base ≤ t.base
    · exact ⟨t.base - r.base, 0, by omega, h2, by omega⟩
    · exact ⟨0, r.base - t.base, h1, by omega, by omega⟩
  · rintro ⟨i, j, hi, hj, h⟩
    omega

theorem regionsOverlap_false_iff (r t : Region) :
    regionsOverlap r t = false ↔ ∀ i j, i < r.size → j < t.size → r.base + i ≠ t.base + j := by
  rw [Bool.eq_false_iff, ne_eq, regionsOverlap_iff]
  push Not
  exact ⟨fun h i j hi hj => h i j hi hj, fun h i j hi hj => h i j hi hj⟩

/-- Disjoint non-empty regions lie one before the other. -/
theorem regionsOverlap_false_sep {r t : Region} (h : regionsOverlap r t = false) (hr : 0 < r.size) (ht : 0 < t.size) :
    r.base + r.size ≤ t.base ∨ t.base + t.size ≤ r.base := by
  by_contra hc
  have : regionsOverlap r t = true := by
    simp only [regionsOverlap, Bool.and_eq_true, decide_eq_true_eq]; omega
  simp [h] at this

theorem regionsOverlap_comm (r t : Region) : regionsOverlap r t = regionsOverlap t r := by
  rw [Bool.eq_iff_iff, regionsOverlap_iff, regionsOverlap_iff]
  constructor <;> rintro ⟨i, j, hi, hj, h⟩ <;> exact ⟨j, i, hj, hi, h.symm⟩

theorem regionsOverlap_self {r : Region} (h : 0 < r.size) : regionsOverlap r r = true :=
  (regionsOverlap_iff r r).2 ⟨0, 0, h, h, rfl⟩

/-! ## The allocator -/

/-- What `allocatable` says. -/
theorem State.allocatable_iff (s : State) (r : Region) (align : Nat) :
    s.allocatable r align = true ↔
      r.base % align = 0 ∧ r.base + r.size ≤ Config.paSpace ∧ s.mappedRange r.base r.size = true ∧
      s.inDmaRam r = true ∧ (∀ t ∈ s.live, regionsOverlap r t = false) ∧
      ∀ t ∈ deviceRegions s.cfg, regionsOverlap r t = false := by
  simp only [State.allocatable, Bool.and_eq_true, beq_iff_eq, decide_eq_true_eq, List.all_eq_true, Bool.not_eq_true']
  tauto

/-- All a successful allocation does. -/
theorem allocate_some {d : Draw} {size align : Nat} {s t : State} {r : Region}
    (h : allocate d size align s = some (r, t)) :
    d.alloc = some r.base ∧ r.size = size ∧ s.allocatable r align = true ∧
    t = (s.setLive (r :: s.live)).setMem (memWriteList s.mem r.base (d.fill.take size)) := by
  unfold allocate at h
  split at h
  · cases h
  · rename_i base hb
    split at h
    · simp only [Option.some.injEq, Prod.mk.injEq] at h
      obtain ⟨rfl, rfl⟩ := h
      exact ⟨hb, rfl, ‹_›, rfl⟩
    · cases h

/-- An allowed answer is taken. -/
theorem allocate_of_allocatable {d : Draw} {align : Nat} {s : State} {r : Region} (hd : d.alloc = some r.base)
    (h : s.allocatable r align = true) :
    allocate d r.size align s =
      some (r, (s.setLive (r :: s.live)).setMem (memWriteList s.mem r.base (d.fill.take r.size))) := by
  simp [allocate, hd, h]

/-- FAIL is taken. -/
theorem allocate_fail {d : Draw} (hd : d.alloc = none) (size align : Nat) (s : State) :
    allocate d size align s = none := by
  simp [allocate, hd]

/-! ## Discarding a command -/

/-- All a discard does. -/
theorem discardCommand_next {c : ErrCode} {s t : State} (h : discardCommand c s = .next t) :
    t = raiseError c s := by
  simpa [discardCommand] using h.symm

/-- An error changes the STATUS fields of the registers alone. -/
theorem raiseError_regs_frame (c : ErrCode) (s : State) :
    (raiseError c s).regs.pixelCount = s.regs.pixelCount ∧ (raiseError c s).regs.gpioSel = s.regs.gpioSel ∧
    (raiseError c s).regs.inAddr = s.regs.inAddr ∧ (raiseError c s).regs.inLen = s.regs.inLen ∧
    (raiseError c s).regs.bufLen = s.regs.bufLen ∧ (raiseError c s).regs.bufPa = s.regs.bufPa ∧
    (raiseError c s).regs.cbPa = s.regs.cbPa ∧ (raiseError c s).regs.debugSnap = s.regs.debugSnap ∧
    (raiseError c s).regs.capacity = s.regs.capacity := by
  cases c <;> exact ⟨rfl, rfl, rfl, rfl, rfl, rfl, rfl, rfl, rfl⟩

/-! ## What acceptance can do -/

/-- NOP's acceptance. -/
theorem execNop_next {s t : State} (h : execNop s = .next t) : t = s ∨ t = raiseError .cmdBusy s := by
  unfold execNop at h
  split at h
  · exact .inr (discardCommand_next h)
  · cases h; exact .inl rfl

/-- INIT's acceptance: a discard, or the latching. -/
theorem execInit_next {s t : State} (h : execInit s = .next t) :
    (∃ c, t = raiseError c s) ∨
    (s.busy = false ∧ s.engine = .uninit ∧ s.regs.pixelCount ≠ 0 ∧ t = (latchInit s).setPc .i1) := by
  unfold execInit at h
  split_ifs at h with h1 h2 h3
  · exact .inl ⟨_, discardCommand_next h⟩
  · exact .inl ⟨_, discardCommand_next h⟩
  · exact .inl ⟨_, discardCommand_next h⟩
  · cases h
    exact .inr ⟨by simpa using h1, by simpa using h2, h3, rfl⟩

/-- RENDER's acceptance: a discard, or the latching after every check. -/
theorem execRender_next {s t : State} (h : execRender s = .next t) :
    (∃ c, t = raiseError c s) ∨
    (s.busy = false ∧ s.engine = .idle ∧ s.regs.inAddr.toNat + s.regs.inLen.toNat ≤ Config.paSpace ∧
      s.regs.inLen.toNat ≤ cap s.cfg s.sqr.p.toNat ∧ s.inputOverlaps = false ∧
      s.mappedRange s.regs.inAddr.toNat s.regs.inLen.toNat = true ∧
      t = ((latchRender s).setEngine .rendering).setPc (.p1 .s1)) := by
  unfold execRender at h
  split_ifs at h with h1 h2 h3 h4 h5 h6
  · exact .inl ⟨_, discardCommand_next h⟩
  · exact .inl ⟨_, discardCommand_next h⟩
  · exact .inl ⟨_, discardCommand_next h⟩
  · exact .inl ⟨_, discardCommand_next h⟩
  · cases h
    exact .inr ⟨by simpa using h1, by simpa using h2, by omega, by omega, by simpa using h5, by simpa using h6, rfl⟩

/-- CLEANUP's acceptance: a discard, the shutdown at once, or the start of its sequence. -/
theorem execCleanup_next {s t : State} (h : execCleanup s = .next t) :
    (∃ c, t = raiseError c s) ∨
    (s.busy = false ∧ s.engine = .uninit ∧ t = s.setEngine .shutdown) ∨
    (s.busy = false ∧ s.engine = .idle ∧
      t = ((s.setRegs { s.regs with capacity := 0 }).setEngine .shutdown).setPc (.q1 .s1)) := by
  unfold execCleanup at h
  split at h
  · exact .inl ⟨_, discardCommand_next h⟩
  · rename_i hb
    have hb : s.busy = false := by simpa using hb
    split at h
    · cases h; exact .inr (.inl ⟨hb, ‹_›, rfl⟩)
    · cases h; exact .inr (.inr ⟨hb, ‹_›, rfl⟩)
    · exact .inl ⟨_, discardCommand_next h⟩
    · exact .inl ⟨_, discardCommand_next h⟩

/-! ## Sequences of turns -/

@[simp] theorem runTurns_nil (s : State) : runTurns [] s = .next s := rfl

/-- The first turn of a run that does not stop there. -/
theorem runTurns_cons {t : Turn} {ts : List Turn} {s u : State} (h : takeTurn t s = .next u) :
    runTurns (t :: ts) s = runTurns ts u := by
  simp [runTurns, h]

/-- A run in two parts. -/
theorem runTurns_append {ts us : List Turn} {s t : State} (h : runTurns ts s = .next t) :
    runTurns (ts ++ us) s = runTurns us t := by
  induction ts generalizing s with
  | nil => simp only [runTurns_nil, Host.Outcome.next.injEq] at h; subst h; rfl
  | cons a ts ih =>
    simp only [runTurns, List.cons_append] at h ⊢
    cases ha : takeTurn a s with
    | next u => simp only [ha] at h ⊢; exact ih h
    | fault f => simp [ha] at h
    | refused f => simp [ha] at h

@[simp] theorem takeTurn_seq (d : Draw) (s : State) : takeTurn (.seq d) s = seqStep d s := rfl

/-- A listed turn is the one a step takes. -/
theorem step_listed {s : State} {t : Turn} {ts : List Turn} (hc : s.cfg.ok = true) (ht : s.turns = t :: ts) :
    step s = takeTurn t (s.setTurns ts) := by
  simp [step, stepTurn, hc, State.nextTurn, State.dropTurn, ht]

/-- All a step does: it takes one turn of a state that differs in the list of turns and the count of free ones alone. -/
theorem step_next {s t : State} (h : step s = .next t) :
    s.cfg.ok = true ∧ takeTurn s.nextTurn s.dropTurn = .next t := by
  simp only [step, stepTurn] at h
  split at h
  · exact ⟨‹_›, h⟩
  · cases h

/-- A used-up turn changes the list of turns and the count of free ones alone. -/
theorem State.dropTurn_eq (s : State) : ∃ ts n, s.dropTurn = (s.setTurns ts).setTick n := by
  unfold State.dropTurn
  split
  · exact ⟨s.turns, s.tick + 1, rfl⟩
  · rename_i ts _
    exact ⟨ts, s.tick, rfl⟩

end Sys2Proof.Machine
end

