-- ==== Sys2Proof/Laws/Steps.lean ====
section
/-!
SUPPORT. All that one turn of each agent can do, said once: SEQ's steps by their labels, HOST's statements, the DMA agent,
the sink and ENV.
-/
namespace Sys2Proof.Machine

/-! ## DMA_STOP (R191), step by step -/

variable {s : State} (hc : s.cfg.ok = true)
include hc

theorem stopStep_s1 (label : StopPc → Pc) (exit : State → State) (d : Draw) :
    stopStep .s1 label exit d s =
      .next (if s.dma.error then s.setPc (label .s2) else if s.dma.active then s else s.setPc (label .s3)) := by
  simp only [stopStep, dmaRead, csRead_error hc, csRead_active hc]
  cases s.dma.error <;> cases s.dma.active <;> rfl

omit hc in
theorem stopStep_s2 (label : StopPc → Pc) (exit : State → State) (d : Draw) (s : State) :
    stopStep .s2 label exit d s = .next ((s.setRegs { s.regs with
      debugSnap := debugErrWord s.cfg.debugLayout s.dma.debugErr, dmaErr := true, errCode := 4 }).setPc (label .s3)) := by
  simp only [stopStep, dmaRead, debugRead_masked]
  generalize debugErrWord s.cfg.debugLayout s.dma.debugErr = e
  rfl

theorem stopStep_s3 (label : StopPc → Pc) (exit : State → State) (d : Draw) :
    stopStep .s3 label exit d s =
      .next ((s.setDma (channelReset s.dma (d.word.extractLsb' 0 3))).setPc (label .s4)) := by
  simp only [stopStep, csWrite_reset _ hc, thenPc]

omit hc in
theorem stopStep_s4 (label : StopPc → Pc) (exit : State → State) (d : Draw) (s : State) :
    stopStep .s4 label exit d s = .next (s.setPc (label .s5)) := rfl

theorem stopStep_s5 (label : StopPc → Pc) (exit : State → State) (d : Draw) (h : s.dma.active = false) :
    stopStep .s5 label exit d s = .next ((s.setDma { s.dma with
      ended := false, intr := false, priority := 0, panicPriority := 0, waitWrites := false
      disDebug := false }).setPc (label .s6)) := by
  simp only [stopStep, csWrite_clear _ hc h, thenPc]

theorem stopStep_s6 (label : StopPc → Pc) (exit : State → State) (d : Draw) :
    stopStep .s6 label exit d s = .next (exit (s.setDma { s.dma with debugErr := 0 })) := by
  simp only [stopStep, debugWrite_all hc]

omit hc in
/-- All a DMA_STOP step can do: it changes the channel, the snapshot and STATUS alone. -/
theorem stopStep_next {t : StopPc} {label : StopPc → Pc} {exit : State → State} {d : Draw} {u : State}
    (h : stopStep t label exit d s = .next u) :
    (t = .s6 ∧ ∃ x, u = exit (s.setDma x)) ∨ (t = .s1 ∧ u = s) ∨
    (∃ x, t ≠ .s6 ∧ t ≠ .s2 ∧ u = (s.setDma x).setPc u.sqr.pc ∧ ∃ v, u.sqr.pc = label v) ∨
    (t = .s2 ∧ u = (s.setRegs { s.regs with
      debugSnap := debugErrWord s.cfg.debugLayout s.dma.debugErr, dmaErr := true, errCode := 4 }).setPc (label .s3)) := by
  cases t with
  | s1 =>
    simp only [stopStep] at h
    split_ifs at h <;> cases h
    · exact .inr (.inr (.inl ⟨s.dma, by simp, by simp, rfl, _, rfl⟩))
    · exact .inr (.inl ⟨rfl, rfl⟩)
    · exact .inr (.inr (.inl ⟨s.dma, by simp, by simp, rfl, _, rfl⟩))
  | s2 => rw [stopStep_s2] at h; cases h; exact .inr (.inr (.inr ⟨rfl, rfl⟩))
  | s4 => rw [stopStep_s4] at h; cases h; exact .inr (.inr (.inl ⟨s.dma, by simp, by simp, rfl, _, rfl⟩))
  | s6 => cases h; exact .inl ⟨rfl, _, rfl⟩
  | s3 =>
    obtain ⟨v, hv, rfl⟩ := thenPc_next h
    rw [csWrite_next hv]
    exact .inr (.inr (.inl ⟨_, by simp, by simp, rfl, _, rfl⟩))
  | s5 =>
    obtain ⟨v, hv, rfl⟩ := thenPc_next h
    rw [csWrite_next hv]
    exact .inr (.inr (.inl ⟨_, by simp, by simp, rfl, _, rfl⟩))

/-! ## DMA_START (R201), step by step -/

omit hc in
theorem startStep_t1 (label : StartPc → Pc) (exit : Pc) (d : Draw) (h : s.dma.active = false) :
    startStep .t1 label exit d s =
      .next ((s.setDma { s.dma with conblkAd := s.regs.cbPa, addrLatched := true }).setPc (label .t2)) := by
  simp [startStep, conblkWrite, h, thenPc]

theorem startStep_t2 (label : StartPc → Pc) (exit : Pc) (d : Draw) (h : s.dma.active = false) :
    startStep .t2 label exit d s = .next ((s.setDma (startedDma s.cfg s.dma)).setPc (label .t3)) := by
  simp only [startStep, csWrite_flags _ hc h, thenPc]

theorem startStep_t3 (label : StartPc → Pc) (exit : Pc) (d : Draw) (h : s.dma.active = false)
    (hl : s.dma.addrLatched = true) (ha : s.dma.conblkAd.toNat % s.cfg.cbAlign = 0) :
    startStep .t3 label exit d s =
      .next ((s.setDma { startedDma s.cfg s.dma with active := true, loaded := false, pos := 0 }).setPc exit) := by
  simp only [startStep, csWrite_activate _ hc h hl ha, thenPc]

omit hc in
/-- All a DMA_START step can do: it changes the channel alone. -/
theorem startStep_next {t : StartPc} {label : StartPc → Pc} {exit : Pc} {d : Draw} {u : State}
    (h : startStep t label exit d s = .next u) :
    ∃ x, u = (s.setDma x).setPc u.sqr.pc ∧ (u.sqr.pc = exit ∨ ∃ v, u.sqr.pc = label v) := by
  cases t with
  | t1 =>
    obtain ⟨v, hv, rfl⟩ := thenPc_next h
    rw [(conblkWrite_next hv).2]
    exact ⟨_, rfl, .inr ⟨_, rfl⟩⟩
  | t2 =>
    obtain ⟨v, hv, rfl⟩ := thenPc_next h
    rw [csWrite_next hv]
    exact ⟨_, rfl, .inr ⟨_, rfl⟩⟩
  | t3 =>
    obtain ⟨v, hv, rfl⟩ := thenPc_next h
    rw [csWrite_next hv]
    exact ⟨_, rfl, .inl rfl⟩

omit hc

/-! ## The clock and GPIO sequences -/

/-- All a ClkStop operation can do: it changes the clock, but for its BUSY flag and divisor, and the label. -/
theorem clkStopStep_eq (c : ClkStopPc) (label : ClkStopPc → Pc) (exit : Pc) (s : State) :
    ∃ x pc, clkStopStep c label exit s = (s.setClk x).setPc pc ∧ x.busy = s.clk.busy ∧ x.divi = s.clk.divi ∧ x.divf = s.clk.divf ∧
      (pc = s.sqr.pc ∨ pc = exit ∨ ∃ v, pc = label v) := by
  cases c with
  | read =>
    refine ⟨s.clk, _, rfl, rfl, rfl, rfl, ?_⟩
    split <;> exact .inr (.inr ⟨_, rfl⟩)
  | write src mash => exact ⟨_, _, rfl, rfl, rfl, rfl, .inr (.inr ⟨_, rfl⟩)⟩
  | waitLow =>
    simp only [clkStopStep]
    split
    · exact ⟨s.clk, s.sqr.pc, rfl, rfl, rfl, rfl, .inl rfl⟩
    · exact ⟨s.clk, exit, rfl, rfl, rfl, rfl, .inr (.inl rfl)⟩

/-- All a ClkConfigure operation can do: it changes the clock, but for its BUSY flag, and the label. -/
theorem clkConfigureStep_eq (c : ClkPc) (label : ClkPc → Pc) (exit : Pc) (s : State) :
    ∃ x pc, clkConfigureStep c label exit s = (s.setClk x).setPc pc ∧ x.busy = s.clk.busy ∧
      (pc = s.sqr.pc ∨ pc = exit ∨ ∃ v, pc = label v) := by
  cases c with
  | stop c =>
    obtain ⟨x, pc, h, hb, -, -, hp⟩ := clkStopStep_eq c (fun c => label (.stop c)) (label .div) s
    refine ⟨x, pc, h, hb, ?_⟩
    rcases hp with hp | hp | ⟨v, hp⟩
    · exact .inl hp
    · exact .inr (.inr ⟨_, hp⟩)
    · exact .inr (.inr ⟨_, hp⟩)
  | div => exact ⟨_, _, rfl, rfl, .inr (.inr ⟨_, rfl⟩)⟩
  | source => exact ⟨_, _, rfl, rfl, .inr (.inr ⟨_, rfl⟩)⟩
  | enable => exact ⟨_, _, rfl, rfl, .inr (.inr ⟨_, rfl⟩)⟩
  | waitHigh =>
    simp only [clkConfigureStep]
    split
    · exact ⟨s.clk, exit, rfl, rfl, .inr (.inl rfl)⟩
    · exact ⟨s.clk, s.sqr.pc, rfl, rfl, .inl rfl⟩

/-- All a GpioSetFunction operation can do: it changes the function selects and the label, or faults. -/
theorem gpioStep_cases (g : GpioPc) (label : GpioPc → Pc) (exit : Pc) (s : State) :
    gpioStep g label exit s = .fault .gpioRange ∨
    ∃ x pc, gpioStep g label exit s = .next ((s.setFsel x).setPc pc) ∧ (pc = exit ∨ ∃ v, pc = label v) := by
  cases g with
  | read =>
    unfold gpioStep
    dsimp only
    split
    · exact .inl rfl
    · split
      · exact .inr ⟨s.fsel, _, rfl, .inr ⟨_, rfl⟩⟩
      · exact .inl rfl
  | write w => exact .inr ⟨_, _, rfl, .inl rfl⟩

/-! ## ENCODE (R142) -/

/-- All an ENCODE step can do: a mapped input byte is read, or a mapped byte of memory is written and the position moves
on by one. -/
theorem encodeStep_next {e : EncodePc} {s t : State} (h : encodeStep e s = .next t) :
    (e = .read ∧ t = s.setPc (.p2 (.write (memRead s.mem (s.sqr.inAddr.toNat + s.sqr.j / s.cfg.k))))) ∨
    (∃ x b, (e = .write x ∧ b = expandByte s.cfg x (s.sqr.j % s.cfg.k) ∨ e = .zero ∧ x = 0 ∧ b = 0) ∧
      s.mapped (s.regs.bufPa.toNat + s.sqr.j) = true ∧
      t = (((s.setMem (memWrite s.mem (s.regs.bufPa.toNat + s.sqr.j) b)).setJ (s.sqr.j + 1)).setPc
        (encodePc (s.setJ (s.sqr.j + 1)) x))) := by
  have hs : ∀ x b, encodeStore x b s = .next t → s.mapped (s.regs.bufPa.toNat + s.sqr.j) = true ∧
      t = (((s.setMem (memWrite s.mem (s.regs.bufPa.toNat + s.sqr.j) b)).setJ (s.sqr.j + 1)).setPc
        (encodePc (s.setJ (s.sqr.j + 1)) x)) := by
    intro x b h
    unfold encodeStore at h
    split at h
    · cases h
    · rename_i u hu
      obtain ⟨hm, rfl⟩ := State.store8_some hu
      cases h
      exact ⟨hm, rfl⟩
  cases e with
  | read =>
    simp only [encodeStep, encodeRead] at h
    split_ifs at h
    cases h
    exact .inl ⟨rfl, rfl⟩
  | write x =>
    obtain ⟨hm, rfl⟩ := hs _ _ h
    exact .inr ⟨x, _, .inl ⟨rfl, rfl⟩, hm, rfl⟩
  | zero =>
    obtain ⟨hm, rfl⟩ := hs _ _ h
    exact .inr ⟨0, 0, .inr ⟨rfl, rfl, rfl⟩, hm, rfl⟩

/-- An input read of ENCODE from mapped RAM. -/
theorem encodeStep_read {s : State} (h : s.mapped (s.sqr.inAddr.toNat + s.sqr.j / s.cfg.k) = true) :
    encodeStep .read s =
      .next (s.setPc (.p2 (.write (memRead s.mem (s.sqr.inAddr.toNat + s.sqr.j / s.cfg.k))))) := by
  simp [encodeStep, encodeRead, h]

/-- A byte write of ENCODE to mapped RAM. -/
theorem encodeStore_mapped (x b : Byte) {s : State} (h : s.mapped (s.regs.bufPa.toNat + s.sqr.j) = true) :
    encodeStore x b s = .next (((s.setMem (memWrite s.mem (s.regs.bufPa.toNat + s.sqr.j) b)).setJ
      (s.sqr.j + 1)).setPc (encodePc (s.setJ (s.sqr.j + 1)) x)) := by
  unfold encodeStore
  rw [State.store8_of_mapped h]
  rfl

/-! ## INIT's allocating and releasing steps -/

/-- All I1 does (R218). -/
theorem initAllocCb_next {d : Draw} {s t : State} (h : initAllocCb d s = .next t) :
    t = (raiseError .allocCb s).setPc .iF ∨
    ∃ cb, d.alloc = some cb.base ∧ cb.size = s.cfg.cbBytes ∧ s.allocatable cb s.cfg.cbAlign = true ∧
      t = (((s.setLive (cb :: s.live)).setMem (memWriteList s.mem cb.base (d.fill.take s.cfg.cbBytes))).setAlloc
        (.cbOnly cb)).setPc (.i2 cb 0) := by
  unfold initAllocCb at h
  split at h
  · cases h; exact .inl rfl
  · rename_i cb u hu
    obtain ⟨hd, hsz, ha, rfl⟩ := allocate_some hu
    cases h
    exact .inr ⟨cb, hd, hsz, ha, rfl⟩

/-- All I4 does (R218). -/
theorem initAllocBuf_next {cb : Region} {d : Draw} {s t : State} (h : initAllocBuf cb d s = .next t) :
    t = initUnwind cb s ∨
    ∃ buf, d.alloc = some buf.base ∧ buf.size = s.initLen ∧ s.allocatable buf 4 = true ∧
      t = ((s.setLive (buf :: s.live)).setMem (memWriteList s.mem buf.base (d.fill.take s.initLen))).setPc
        (.i5 cb buf 0) := by
  unfold initAllocBuf at h
  split at h
  · cases h; exact .inl rfl
  · rename_i buf u hu
    obtain ⟨hd, hsz, ha, rfl⟩ := allocate_some hu
    cases h
    exact .inr ⟨buf, hd, hsz, ha, rfl⟩

/-- A step of I2 in mapped RAM (R218). -/
theorem initZeroCb_mapped {cb : Region} {i : Nat} {s : State} (h : s.mappedRange (cb.base + 4 * i) 4 = true) :
    initZeroCb cb i s = .next ((s.setMem (memWrite32 s.mem (cb.base + 4 * i) 0)).setPc
      (if i + 1 < 8 then .i2 cb (i + 1) else .i3 cb)) := by
  unfold initZeroCb
  rw [State.store32_of_mapped h]

/-- A step of I5 in mapped RAM (R219). -/
theorem initFillCb_mapped {cb buf : Region} {i : Nat} {s : State} (h : s.mappedRange (cb.base + 4 * i) 4 = true) :
    initFillCb cb buf i s = .next ((s.setMem (memWrite32 s.mem (cb.base + 4 * i) (controlWord s buf i))).setPc
      (if i + 1 < 4 then .i5 cb buf (i + 1) else .i6 cb buf (.stop .read))) := by
  unfold initFillCb
  rw [State.store32_of_mapped h]

/-- All a step of I2 or I5 does. -/
theorem initZeroCb_next {cb : Region} {i : Nat} {s t : State} (h : initZeroCb cb i s = .next t) :
    s.mappedRange (cb.base + 4 * i) 4 = true ∧ t = (s.setMem (memWrite32 s.mem (cb.base + 4 * i) 0)).setPc
      (if i + 1 < 8 then .i2 cb (i + 1) else .i3 cb) := by
  unfold initZeroCb at h
  split at h
  · cases h
  · rename_i hu
    obtain ⟨hm, rfl⟩ := State.store32_some hu
    cases h
    exact ⟨hm, rfl⟩

theorem initFillCb_next {cb buf : Region} {i : Nat} {s t : State} (h : initFillCb cb buf i s = .next t) :
    s.mappedRange (cb.base + 4 * i) 4 = true ∧
    t = (s.setMem (memWrite32 s.mem (cb.base + 4 * i) (controlWord s buf i))).setPc
      (if i + 1 < 4 then .i5 cb buf (i + 1) else .i6 cb buf (.stop .read)) := by
  unfold initFillCb at h
  split at h
  · cases h
  · rename_i hu
    obtain ⟨hm, rfl⟩ := State.store32_some hu
    cases h
    exact ⟨hm, rfl⟩

/-- Q3 changes the live regions alone (R237). -/
theorem releaseAll_eq (s : State) : ∃ l, releaseAll s = s.setLive l := by
  unfold releaseAll
  cases s.alloc with
  | none => exact ⟨s.live, rfl⟩
  | cbOnly cb => exact ⟨s.live.erase cb, rfl⟩
  | pair cb buf => exact ⟨(s.live.erase buf).erase cb, rfl⟩

/-! ## The DMA agent, the sink and ENV -/

/-- All a turn of the DMA agent does: nothing, the fetch, a word transfer, or completion. -/
theorem dmaStep_next {s t : State} (h : dmaStep s = .next t) :
    t = s ∨
    (s.dma.active = true ∧ s.dma.error = false ∧ s.dma.loaded = false ∧ t = s.setDma { s.dma with
      ti := s.cbWord 0, src := s.cbWord 1, dst := s.cbWord 2, len := s.cbWord 3, next := s.cbWord 5
      loaded := true }) ∨
    (s.dma.active = true ∧ s.dma.error = false ∧ s.dma.loaded = true ∧ s.dma.pos < s.dma.len.toNat ∧
      s.sinkReady = true ∧ s.dma.dst = s.cfg.pwmFifoPa ∧
      t = (sinkAccept (memRead32 s.mem (s.dma.src.toNat + s.dma.pos)) s).setDma
        { s.dma with pos := s.dma.pos + 4 }) ∨
    (s.dma.active = true ∧ s.dma.error = false ∧ s.dma.loaded = true ∧ s.dma.pos = s.dma.len.toNat ∧
      t = dmaComplete s) := by
  simp only [dmaStep, dmaFetch, dmaTransfer] at h
  split_ifs at h with h1 h2 h3 h4 h5 h6 h7 h8 h9 h10 h11
  all_goals first | (cases h; exact .inl rfl) | skip
  all_goals
    simp only [not_or, Bool.not_eq_false, Bool.not_eq_true] at h1
    cases h
  · exact .inr (.inl ⟨h1.1, h1.2, h2, rfl⟩)
  · exact .inr (.inr (.inl ⟨h1.1, h1.2, by simpa using h2, ‹_›, ‹_›, by simp_all, rfl⟩))
  · exact .inr (.inr (.inr ⟨h1.1, h1.2, by simpa using h2, ‹_›, rfl⟩))

/-- All an error step does (R187). -/
theorem dmaErrorStep_eq (bits : BitVec 3) (active : Bool) (s : State) :
    dmaErrorStep bits active s = s ∨
    (s.dma.active = true ∧ s.dma.error = false ∧ dmaErrorStep bits active s =
      s.setDma { s.dma with debugErr := s.dma.debugErr ||| bits, active := active }) := by
  unfold dmaErrorStep
  split
  · rename_i h; exact .inr ⟨h.1, h.2.1, rfl⟩
  · exact .inl rfl

/-- All a sink turn does: it changes the PWM port alone (R186). -/
theorem sinkStep_eq (s : State) : ∃ x, sinkStep s = s.setPwm x := by
  unfold sinkStep
  split
  · exact ⟨s.pwm, rfl⟩
  · split
    · exact ⟨_, rfl⟩
    · exact ⟨s.pwm, rfl⟩

/-- All an ENV turn does: it changes the clock's BUSY flag alone (R114). -/
theorem envStep_eq (b : Bool) (s : State) : ∃ x : Bool, envStep b s = s.setClk { s.clk with busy := x } := by
  unfold envStep
  split
  · exact ⟨_, rfl⟩
  · exact ⟨s.clk.busy, rfl⟩

/-- All a reclaiming does: a live region that the block does not hold leaves the live ones, or nothing (R282). -/
theorem platformReclaim_cases (r : Region) (s : State) :
    platformReclaim r s = s ∨
    (r ∈ s.live ∧ r ∉ s.heldRegions ∧ platformReclaim r s = s.setLive (s.live.erase r)) := by
  unfold platformReclaim
  split
  · rename_i h; exact .inr ⟨h.1, h.2, rfl⟩
  · exact .inl rfl

/-! ## HOST -/

/-- Two register files that agree but for the operand registers and STATUS. -/
def SameHeld (r q : HostRegs) : Prop :=
  r.bufLen = q.bufLen ∧ r.bufPa = q.bufPa ∧ r.cbPa = q.cbPa ∧ r.capacity = q.capacity ∧ r.debugSnap = q.debugSnap

/-- All a write to the window does: a command's acceptance, or a change of the operand registers and STATUS alone. -/
theorem windowWrite_next {off : BitVec 6} {v : Word} {s t : State} (h : windowWrite off v s = .next t) :
    (∃ i, exec i s = .next t) ∨ ∃ r, SameHeld r s.regs ∧ t = s.setRegs r := by
  unfold windowWrite at h
  split_ifs at h
  · unfold submit at h
    split at h
    · exact .inl ⟨_, h⟩
    · rw [discardCommand_next h]
      refine .inr ⟨_, ?_, rfl⟩
      split <;> exact ⟨rfl, rfl, rfl, rfl, rfl⟩
    · rw [discardCommand_next h]
      refine .inr ⟨_, ?_, rfl⟩
      split <;> exact ⟨rfl, rfl, rfl, rfl, rfl⟩
  all_goals
    cases h
    refine .inr ⟨_, ?_, rfl⟩
    exact ⟨rfl, rfl, rfl, rfl, rfl⟩

/-- All a statement of the host program does: a command's acceptance, a change of the operand registers and STATUS, a
record of a read, or a byte written to mapped RAM outside every allocated region. -/
theorem hostStmt_next {st : HostStmt} {rest : List HostStmt} {s t : State} (h : hostStmt st rest s = .next t) :
    (∃ i, exec i (s.setHost rest) = .next t) ∨
    (∃ r, SameHeld r s.regs ∧ t = (s.setHost rest).setRegs r) ∨
    (∃ hs rs, t = (s.setHost hs).setReads rs) ∨
    (∃ a b, s.mapped a = true ∧ s.allocatedAt a = false ∧ t = (s.setMem (memWrite s.mem a b)).setHost rest) := by
  cases st with
  | wr off width v =>
    simp only [hostStmt] at h
    split_ifs at h
    rcases windowWrite_next h with h | ⟨r, hr, rfl⟩
    · exact .inl h
    · exact .inr (.inl ⟨r, hr, rfl⟩)
  | rd off width name =>
    simp only [hostStmt] at h
    split_ifs at h
    cases h
    exact .inr (.inr (.inl ⟨rest, _, rfl⟩))
  | poll off hi lo v =>
    simp only [hostStmt] at h
    split_ifs at h <;> cases h
    · exact .inr (.inr (.inl ⟨rest, s.reads, rfl⟩))
    · exact .inr (.inr (.inl ⟨s.host, s.reads, rfl⟩))
  | memw addr b =>
    simp only [hostStmt] at h
    split_ifs at h with h1 h2
    cases h
    exact .inr (.inr (.inr ⟨_, _, by simpa using h1, by simpa using h2, rfl⟩))
  | memr addr name =>
    simp only [hostStmt] at h
    split_ifs at h
    cases h
    exact .inr (.inr (.inl ⟨rest, _, rfl⟩))

/-- The registers an error leaves. -/
theorem raiseError_sameHeld (c : ErrCode) (s : State) : SameHeld (raiseError c s).regs s.regs := by
  cases c <;> exact ⟨rfl, rfl, rfl, rfl, rfl⟩

end Sys2Proof.Machine
end

