-- ==== Sys2Proof/Laws/Invariant.lean ====
section
/-!
SUPPORT. Small lemmas about the predicates of Safety.lean: what each depends on, the addresses they give, and what a
turn can do to memory, the parameters, the channel and the snapshot.
-/
namespace Sys2Proof.Machine

/-- `t` agrees with `s` on the parameters, the live regions, the allocation state, the registers INIT writes and the
latched pixel count. -/
structure SameBlock (s t : State) : Prop where
  cfg : t.cfg = s.cfg
  live : t.live = s.live
  alloc : t.alloc = s.alloc
  held : SameHeld t.regs s.regs
  p : t.sqr.p = s.sqr.p

/-- The bytes of `r` read the same. -/
def MemSame (s t : State) (r : Region) : Prop :=
  ∀ a, r.base ≤ a → a < r.base + r.size → memRead t.mem a = memRead s.mem a

variable {s t : State} {cb buf : Region}

/-- A word of an unchanged control block. -/
theorem MemSame.word {r : Region} (h : MemSame s t r) (hs : 32 ≤ r.size) {o : Nat} (ho : o + 4 ≤ 32) :
    memRead32 t.mem (r.base + o) = memRead32 s.mem (r.base + o) :=
  memRead32_congr fun x h1 h2 => h x (by omega) (by omega)

/-- Unchanged memory. -/
theorem MemSame.refl {r} (h : t.mem = s.mem) : MemSame s t r := fun a _ _ => by rw [h]

/-- A control block whose bytes are unchanged still holds what INIT wrote. -/
theorem CbHolds.of_memSame (hc : t.cfg = s.cfg) (hm : MemSame s t cb) (hs : 32 ≤ cb.size) (h : CbHolds s cb buf) :
    CbHolds t cb buf := by
  obtain ⟨h0, h1, h2, h3, h4⟩ := h
  refine ⟨?_, ?_, ?_, ?_, ?_⟩
  · have := hm.word hs (o := 0) (by omega); simp at this; rw [this, hc, h0]
  · rw [hm.word hs (by omega), h1]
  · rw [hm.word hs (by omega), h2, hc]
  · rw [hm.word hs (by omega), h3]
  · intro i hi hi'; rw [hm.word hs (by omega), h4 i hi hi']

/-- The live regions are sound as long as they and the parameters are the same. -/
theorem LiveOk.of_same (hc : t.cfg = s.cfg) (hl : t.live = s.live) (h : LiveOk s) : LiveOk t := by
  unfold LiveOk at *
  rw [hl]
  refine ⟨fun r hr => ?_, h.2⟩
  rw [State.mappedRange_congr hc]; exact h.1 r hr

/-- Empty registers stay so. -/
theorem SameBlock.regsEmpty (h : SameBlock s t) (he : RegsEmpty s) : RegsEmpty t := by
  obtain ⟨a, b, c, -⟩ := h.held
  unfold RegsEmpty at *; rw [a, b, c]; exact he

/-- A control block region stays one. -/
theorem SameBlock.cbRegion (h : SameBlock s t) (he : CbRegion s cb) : CbRegion t cb := by
  unfold CbRegion at *; rw [h.live, h.cfg]; exact he

/-- A render buffer region stays one. -/
theorem SameBlock.bufRegion (h : SameBlock s t) (he : BufRegion s buf) : BufRegion t buf := by
  unfold BufRegion at *; rw [h.live, h.cfg, h.p]; exact he

/-- The registers go on describing their regions. -/
theorem SameBlock.regsHeld (h : SameBlock s t) (he : RegsHeld s cb buf) : RegsHeld t cb buf := by
  obtain ⟨a, b, c, -⟩ := h.held
  unfold RegsHeld at *; rw [a, b, c, h.cfg, h.p]; exact he

/-- CAPACITY goes on following STATE where the parameters, STATE and the latched pixel count are the same. -/
theorem CapacityOk.of_same (h : CapacityOk s) (hr : t.regs.capacity = s.regs.capacity) (he : t.engine = s.engine)
    (hc : t.cfg = s.cfg) (hp : t.sqr.p = s.sqr.p) : CapacityOk t := by
  unfold CapacityOk at *; rw [hr, he, hc, hp]; exact h

/-- A control block region has room for its eight words. -/
theorem CbRegion.size_ge (hc : s.cfg.ok = true) (h : CbRegion s cb) : 32 ≤ cb.size := by
  rw [h.2.1]; exact (Params.ok_sizes hc).1

/-- A held pair stays held while the control block is unchanged. -/
theorem SameBlock.held_pair (h : SameBlock s t) (hc : s.cfg.ok = true) (hm : MemSame s t cb) (he : Held s cb buf) :
    Held t cb buf := by
  obtain ⟨h1, h2, h3, h4, h5, h6, h7⟩ := he
  exact ⟨by rw [h.alloc, h1], h.regsHeld h2, h.cbRegion h3, h.bufRegion h4, h5, by rw [h.p]; exact h6,
      CbHolds.of_memSame h.cfg hm (h3.size_ge hc) h7⟩

/-- A running INIT goes on with the same allocation. -/
theorem SameBlock.building (h : SameBlock s t) (heng : t.engine = s.engine) {a} (he : Building s a) : Building t a := by
  obtain ⟨h1, h2, h3, h4⟩ := he
  exact ⟨by rw [heng, h1], by rw [h.alloc, h2], h.regsEmpty h3, by rw [h.p]; exact h4⟩

/-- A running INIT goes on with both regions. -/
theorem SameBlock.buildingBoth (h : SameBlock s t) (heng : t.engine = s.engine) (he : BuildingBoth s cb buf) :
    BuildingBoth t cb buf :=
  ⟨h.building heng he.1, h.cbRegion he.2.1, h.bufRegion he.2.2.1, he.2.2.2⟩

/-- The words INIT writes depend on the parameters and the latched count. -/
theorem controlWord_congr (h : SameBlock s t) (b i) : controlWord t b i = controlWord s b i := by
  unfold controlWord State.initLen; rw [h.cfg, h.p]

/-- A control block filled so far stays filled. -/
theorem SameBlock.cbFilled (h : SameBlock s t) (hm : MemSame s t cb) (hs : 32 ≤ cb.size) {n} (hn : n ≤ 4) (he :
    CbFilled s cb buf n) : CbFilled t cb buf n := by
  refine ⟨fun i hi => ?_, fun i hi hi' => ?_⟩
  · rw [hm.word hs (by omega), controlWord_congr h]; exact he.1 i hi
  · rw [hm.word hs (by omega)]; exact he.2 i hi hi'

/-- An accepted input stays accepted. -/
theorem SameBlock.inputOk (h : SameBlock s t) (ha : t.sqr.inAddr = s.sqr.inAddr) (hl : t.sqr.inLen = s.sqr.inLen)
    (he : InputOk s) : InputOk t := by
  unfold InputOk State.latchedInput at *
  rw [State.mappedRange_congr h.cfg, h.cfg, h.p, h.alloc, ha, hl]; exact he

/-- A sound transfer stays sound while its control block, its fields and its regions are kept. -/
theorem TransferOk.of_same (hok : s.cfg.ok = true) (hc : t.cfg = s.cfg) (hm : MemSame s t cb)
   (hlc : cb ∈ s.live → cb ∈ t.live) (hlb : buf ∈ s.live → buf ∈ t.live)
   (hic : cb ∈ s.live → cb ∉ s.sqr.pc.initRegions → cb ∉ t.sqr.pc.initRegions) (hib : buf ∈ s.live →
       buf ∉ s.sqr.pc.initRegions → buf ∉ t.sqr.pc.initRegions)
   (hd : t.dma.conblkAd = s.dma.conblkAd ∧ t.dma.loaded = s.dma.loaded ∧ t.dma.pos = s.dma.pos ∧
       t.dma.src = s.dma.src ∧ t.dma.dst = s.dma.dst ∧ t.dma.len = s.dma.len)
   (h : TransferOk s cb buf) : TransferOk t cb buf := by
  obtain ⟨h1, h2, h3, h4, h5, h6, h7, hne, h8, h9, h10, h11⟩ := h
  obtain ⟨d1, d2, d3, d4, d5, d6⟩ := hd
  have h32 : 32 ≤ cb.size := by rw [h3]; exact (Params.ok_sizes hok).1
  refine ⟨hlc h1, hlb h2, by rw [hc, h3], by rw [hc]; exact h4, h5, hic h1 h6, hib h2 h7, hne, by rw [d1, h8],
    CbHolds.of_memSame hc hm h32 h9, ?_, ?_⟩
  · rw [d2, d3]; exact h10
  · rw [d2, d3, d4, d5, d6, hc]; exact h11

/-- Two different live regions lie one before the other. -/
theorem LiveOk.disjoint (h : LiveOk s) {a b : Region} (ha : a ∈ s.live) (hb : b ∈ s.live) (hne : a ≠ b) :
    a.base + a.size ≤ b.base ∨ b.base + b.size ≤ a.base := by
  have hp := h.2
  have : Std.Symm (fun r t : Region => regionsOverlap r t = false) :=
    ⟨fun x y hxy => (regionsOverlap_comm y x).trans hxy⟩
  exact regionsOverlap_false_sep (hp.forall ha hb hne) (h.1 a ha).1 (h.1 b hb).1

/-- No region is live twice. -/
theorem LiveOk.nodup (h : LiveOk s) : s.live.Nodup := by
  have hp := h.2
  refine List.Pairwise.imp_of_mem ?_ hp
  intro a b ha hb hab e
  subst e
  rw [regionsOverlap_self (h.1 a ha).1] at hab; cases hab

/-- A byte written outside a region leaves it. -/
theorem MemSame.of_memWrite (hw : s.mem.wf = true) (r : Region) {a b} (ha : a < r.base ∨ r.base + r.size ≤ a) :
    MemSame s (s.setMem (memWrite s.mem a b)) r := by
  intro x h1 h2
  show memRead (memWrite s.mem a b) x = _
  rw [memRead_memWrite hw, if_neg (by omega)]

/-- A word written outside a region leaves it. -/
theorem MemSame.of_memWrite32 (hw : s.mem.wf = true) (r : Region) {a v} (hb : a + 4 ≤ Config.paSpace) (ha :
    a + 4 ≤ r.base ∨ r.base + r.size ≤ a) : MemSame s (s.setMem (memWrite32 s.mem a v)) r := by
  intro x h1 h2
  show memRead (memWrite32 s.mem a v) x = _
  rw [memWrite32_read_outside hw hb]
  omega

/-- An allocation keeps the live regions sound and memory canonical, and leaves every region live before. -/
theorem LiveOk.allocate (h : LiveOk s) (hw : s.mem.wf = true) {r : Region} {al : Nat} {bs : List Byte} (hr :
    s.allocatable r al = true) (hz : 0 < r.size)
   (hbs : bs.length ≤ r.size) (t : State) (hc : t.cfg = s.cfg) (hl : t.live = r :: s.live) (hm :
       t.mem = memWriteList s.mem r.base bs) :
   LiveOk t ∧ t.mem.wf = true ∧ r ∉ s.live ∧ ∀ x ∈ s.live, MemSame s t x := by
  rw [State.allocatable_iff] at hr
  obtain ⟨a, b, c, d, e, f⟩ := hr
  refine ⟨⟨?_, ?_⟩, ?_, ?_, ?_⟩
  · rw [hl]; intro x hx
    rw [State.mappedRange_congr hc]
    rcases List.mem_cons.1 hx with rfl | hx
    · exact ⟨hz, b, c⟩
    · exact h.1 x hx
  · rw [hl]; exact List.Pairwise.cons e h.2
  · rw [hm]; exact memWriteList_wf hw (by omega)
  · intro hx; have := e r hx; rw [regionsOverlap_self hz] at this; cases this
  · intro x hx y h1 h2
    rw [hm]; refine memWriteList_read_outside hw (by omega) ?_
    have := regionsOverlap_false_sep (e x hx) hz (h.1 x hx).1
    omega

/-- The buffer length of a count that is not 0 is not 0. -/
theorem bufLen_pos {p : Params} {n : Nat} (hc : p.ok = true) (hn : n ≠ 0) : 0 < bufLen p n := by
  obtain ⟨hk, -, -, -, hc, -⟩ := Params.ok_constraints hc
  have : 0 < n * p.c * p.k := Nat.mul_pos (Nat.mul_pos (by omega) (by omega)) (by omega)
  unfold bufLen roundup4; omega

/-- Where a held pair lies and what the registers say of it. -/
structure HeldAddresses (s : State) (cb buf : Region) : Prop where
  cbSize : 32 ≤ cb.size
  cbEnd : cb.base + cb.size ≤ 4294967296
  bufEnd : buf.base + buf.size ≤ 4294967296
  bufPos : 0 < buf.size
  apart : cb.base + cb.size ≤ buf.base ∨ buf.base + buf.size ≤ cb.base
  bufLenReg : s.regs.bufLen.toNat = buf.size
  bufPaReg : s.regs.bufPa.toNat = buf.base
  cbPaReg : s.regs.cbPa.toNat = cb.base
  cbAligned : cb.base % s.cfg.cbAlign = 0
  bufSize : buf.size = bufLen s.cfg s.sqr.p.toNat

/-- The addresses of a held pair and the registers that hold them. -/
theorem Held.addresses (h : BlockInv s) (hh : Held s cb buf) : HeldAddresses s cb buf := by
  obtain ⟨hc, -, hl, -, -⟩ := h
  obtain ⟨-, hr, hcb, hbuf, hne, -, -⟩ := hh
  have c := (hl.1 _ hcb.1).2.1
  have b := hl.1 _ hbuf.1
  have hs := hcb.size_ge hc
  have hb := hbuf.2.1
  have hp : Config.paSpace = 4294967296 := rfl
  have dj := LiveOk.disjoint hl hcb.1 hbuf.1 hne
  constructor
  case apart => exact dj
  case cbAligned => exact hcb.2.2
  case bufSize => exact hb
  all_goals first
    | omega
    | (rw [hr.1]; simp only [BitVec.toNat_ofNat]; omega)
    | (rw [hr.2.1]; simp only [BitVec.toNat_ofNat]; omega)
    | (rw [hr.2.2]; simp only [BitVec.toNat_ofNat]; omega)

/-- The encoder's position while it writes an input byte lies in the buffer. -/
theorem encode_position_lt (h : BlockInv s) (hh : Held s cb buf) (hi : InputOk s)
    (hj : s.sqr.j < s.sqr.inLen.toNat * s.cfg.k) : s.sqr.j < s.regs.bufLen.toNat := by
  have g := Held.addresses h hh
  rw [g.bufLenReg, g.bufSize]
  have : s.sqr.inLen.toNat * s.cfg.k ≤ s.sqr.p.toNat * s.cfg.c * s.cfg.k := Nat.mul_le_mul_right _ hi.1
  unfold bufLen roundup4; omega

/-- The addresses of a sound transfer. -/
theorem TransferOk.addresses (h : BlockInv s) (z : TransferOk s cb buf) : cb.base + 32 ≤ 4294967296 ∧
    buf.base + buf.size ≤ 4294967296 ∧ 0 < buf.size ∧ s.dma.conblkAd.toNat = cb.base
   ∧ buf.size < 4294967296 := by
  have c := h.2.2.1.1 _ z.1
  have b := h.2.2.1.1 _ z.2.1
  have e2 : Config.paSpace = 4294967296 := rfl
  have e1 : 32 ≤ cb.size := by rw [z.2.2.1]; exact (Params.ok_sizes h.1).1
  have hne := LiveOk.disjoint h.2.2.1 z.1 z.2.1 z.2.2.2.2.2.2.2.1
  rw [z.2.2.2.2.2.2.2.2.1]; simp only [BitVec.toNat_ofNat]; omega

/-! ## Frames of a turn -/

/-- What acceptance leaves. -/
theorem exec_frame {i} (hs : exec i s = .next t) : t.mem = s.mem ∧ t.cfg = s.cfg ∧ t.dma = s.dma ∧
    t.regs.debugSnap = s.regs.debugSnap := by
  cases i with
  | nop => rcases execNop_next hs with rfl | rfl <;> exact ⟨rfl, rfl, rfl, rfl⟩
  | init =>
    rcases execInit_next hs with ⟨c, rfl⟩ | ⟨b, e, p, rfl⟩
    · exact ⟨rfl, rfl, rfl, (raiseError_sameHeld c s).2.2.2.2⟩
    · exact ⟨rfl, rfl, rfl, rfl⟩
  | render =>
    rcases execRender_next hs with ⟨c, rfl⟩ | ⟨b, e, w, l, o, m, rfl⟩
    · exact ⟨rfl, rfl, rfl, (raiseError_sameHeld c s).2.2.2.2⟩
    · exact ⟨rfl, rfl, rfl, rfl⟩
  | cleanup =>
    rcases execCleanup_next hs with ⟨c, rfl⟩ | ⟨b, e, rfl⟩ | ⟨b, e, rfl⟩
    · exact ⟨rfl, rfl, rfl, (raiseError_sameHeld c s).2.2.2.2⟩
    · exact ⟨rfl, rfl, rfl, rfl⟩
    · exact ⟨rfl, rfl, rfl, rfl⟩

/-- What a SEQ turn does to the parameters, memory, the channel and the snapshot. -/
theorem seqStep_frame {d : Draw} (hs : seqStep d s = .next t) : t.cfg = s.cfg ∧
   (t.mem = s.mem ∨ (∃ a v, s.mappedRange a 4 = true ∧ t.mem = memWrite32 s.mem a v ∧ ((∃ cb i,
       s.sqr.pc = .i2 cb i) ∨ ∃ cb b i, s.sqr.pc = .i5 cb b i)) ∨ (∃ a b e, s.mapped a = true ∧
       t.mem = memWrite s.mem a b ∧ s.sqr.pc = .p2 e ∧ a = s.regs.bufPa.toNat + s.sqr.j) ∨
     ∃ r al bs, s.allocatable r al = true ∧ bs.length ≤ r.size ∧ t.mem = memWriteList s.mem r.base bs ∧
         (s.sqr.pc = .i1 ∨ ∃ cb, s.sqr.pc = .i4 cb)) ∧
   (s.sqr.pc.cmd = .init → t.dma = s.dma) ∧
   (t.regs.debugSnap = s.regs.debugSnap ∨ ((s.sqr.pc = .p1 .s2 ∨ s.sqr.pc = .q1 .s2) ∧
       t.regs.debugSnap = debugErrWord s.cfg.debugLayout s.dma.debugErr)) := by
  cases hp : s.sqr.pc with
  | done => simp only [seqStep, hp] at hs; cases hs; exact ⟨rfl, .inl rfl, fun _ => rfl, .inl rfl⟩
  | i1 =>
    simp only [seqStep, hp] at hs
    rcases initAllocCb_next hs with rfl | ⟨cb, hd, hz, ha, rfl⟩
    · exact ⟨rfl, .inl rfl, fun _ => rfl, .inl rfl⟩
    · exact ⟨rfl, .inr (.inr (.inr ⟨cb, _, _, ha, by simp; omega, rfl, .inl rfl⟩)), fun _ => rfl, .inl rfl⟩
  | i2 cb i =>
    simp only [seqStep, hp] at hs
    obtain ⟨hm, rfl⟩ := initZeroCb_next hs
    exact ⟨rfl, .inr (.inl ⟨_, _, hm, rfl, by simp⟩), fun _ => rfl, .inl rfl⟩
  | i3 =>
    simp only [seqStep, hp] at hs; unfold initCheckLen at hs
    split at hs <;> cases hs <;> exact ⟨rfl, .inl rfl, fun _ => rfl, .inl rfl⟩
  | i4 =>
    simp only [seqStep, hp] at hs
    rcases initAllocBuf_next hs with rfl | ⟨cb, hd, hz, ha, rfl⟩
    · exact ⟨rfl, .inl rfl, fun _ => rfl, .inl rfl⟩
    · exact ⟨rfl, .inr (.inr (.inr ⟨cb, _, _, ha, by simp; omega, rfl, .inr ⟨_, rfl⟩⟩)), fun _ => rfl, .inl rfl⟩
  | i5 cb buf i =>
    simp only [seqStep, hp] at hs
    obtain ⟨hm, rfl⟩ := initFillCb_next hs
    exact ⟨rfl, .inr (.inl ⟨_, _, hm, rfl, by simp⟩), fun _ => rfl, .inl rfl⟩
  | i6 cb buf c =>
    simp only [seqStep, hp] at hs; cases hs
    obtain ⟨x, pc, he, -, hpc⟩ := clkConfigureStep_eq c (.i6 cb buf) (.i7 cb buf) s
    rw [he]; exact ⟨rfl, .inl rfl, fun _ => rfl, .inl rfl⟩
  | i7 => simp only [seqStep, hp] at hs; cases hs; exact ⟨rfl, .inl rfl, fun _ => rfl, .inl rfl⟩
  | i8 cb buf g =>
    simp only [seqStep, hp, initGpio] at hs
    rcases gpioStep_cases g (.i8 cb buf) (.i9 cb buf) s with he | ⟨x, pc, he, hpc⟩ <;> rw [he] at hs <;> cases hs
    exact ⟨rfl, .inl rfl, fun _ => rfl, .inl rfl⟩
  | i9 => simp only [seqStep, hp] at hs; cases hs; exact ⟨rfl, .inl rfl, fun _ => rfl, .inl rfl⟩
  | iF => simp only [seqStep, hp] at hs; cases hs; exact ⟨rfl, .inl rfl, fun _ => rfl, .inl rfl⟩
  | p1 c =>
    simp only [seqStep, hp, renderStop] at hs
    rcases stopStep_next hs with ⟨rfl, y, rfl⟩ | ⟨rfl, rfl⟩ | ⟨x, _, _, he, v, _⟩ | ⟨rfl, rfl⟩
    · exact ⟨rfl, .inl rfl, fun h => (by cases h), .inl rfl⟩
    · exact ⟨rfl, .inl rfl, fun h => (by cases h), .inl rfl⟩
    · rw [he]; exact ⟨rfl, .inl rfl, fun h => (by cases h), .inl rfl⟩
    · exact ⟨rfl, .inl rfl, fun h => (by cases h), .inr ⟨.inl rfl, rfl⟩⟩
  | p2 e =>
    simp only [seqStep, hp, renderEncode] at hs
    rcases encodeStep_next hs with ⟨rfl, rfl⟩ | ⟨x, b, he, hm, rfl⟩
    · exact ⟨rfl, .inl rfl, fun h => (by cases h), .inl rfl⟩
    · exact ⟨rfl, .inr (.inr (.inl ⟨_, _, _, hm, rfl, rfl, rfl⟩)), fun h => (by cases h), .inl rfl⟩
  | p3 e =>
    simp only [seqStep, hp, renderStart] at hs
    obtain ⟨x, he, _⟩ := startStep_next hs
    rw [he]; exact ⟨rfl, .inl rfl, fun h => (by cases h), .inl rfl⟩
  | p4 => simp only [seqStep, hp] at hs; cases hs; exact ⟨rfl, .inl rfl, fun h => (by cases h), .inl rfl⟩
  | q1 =>
    simp only [seqStep, hp, cleanupStop] at hs
    rcases stopStep_next hs with ⟨rfl, y, rfl⟩ | ⟨rfl, rfl⟩ | ⟨x, _, _, he, v, _⟩ | ⟨rfl, rfl⟩
    · exact ⟨rfl, .inl rfl, fun h => (by cases h), .inl rfl⟩
    · exact ⟨rfl, .inl rfl, fun h => (by cases h), .inl rfl⟩
    · rw [he]; exact ⟨rfl, .inl rfl, fun h => (by cases h), .inl rfl⟩
    · exact ⟨rfl, .inl rfl, fun h => (by cases h), .inr ⟨.inr rfl, rfl⟩⟩
  | q2 c =>
    simp only [seqStep, hp] at hs; cases hs
    obtain ⟨x, pc, he, -, -, -, hpc⟩ := clkStopStep_eq c .q2 .q3 s
    rw [he]; exact ⟨rfl, .inl rfl, fun h => (by cases h), .inl rfl⟩
  | q3 =>
    simp only [seqStep, hp] at hs; cases hs; obtain ⟨l, e⟩ := releaseAll_eq s; rw [e]
    exact ⟨rfl, .inl rfl, fun h => (by cases h), .inl rfl⟩
  | q4 => simp only [seqStep, hp] at hs; cases hs; exact ⟨rfl, .inl rfl, fun h => (by cases h), .inl rfl⟩

/-- What a turn does to the parameters, memory and the snapshot. -/
theorem takeTurn_frame {u : Turn} (hs : takeTurn u s = .next t) : t.cfg = s.cfg ∧
   (t.mem = s.mem ∨ (∃ d, u = .seq d ∧ seqStep d s = .next t) ∨ ∃ a b, s.mapped a = true ∧
       s.allocatedAt a = false ∧ t.mem = memWrite s.mem a b) ∧
   (t.regs.debugSnap = s.regs.debugSnap ∨ (∃ d, u = .seq d ∧ seqStep d s = .next t) ∨ u = .blockReset) := by
  cases u with
  | host =>
    simp only [takeTurn, hostStep] at hs
    split at hs
    · cases hs; exact ⟨rfl, .inl rfl, .inl rfl⟩
    · rcases hostStmt_next hs with ⟨i, hi⟩ | ⟨r, hr, rfl⟩ | ⟨a, b, rfl⟩ | ⟨a, b, hm, ha, rfl⟩
      · obtain ⟨x, y, _, z⟩ := exec_frame hi; exact ⟨y, .inl x, .inl z⟩
      · exact ⟨rfl, .inl rfl, .inl hr.2.2.2.2⟩
      · exact ⟨rfl, .inl rfl, .inl rfl⟩
      · exact ⟨rfl, .inr (.inr ⟨a, b, hm, ha, rfl⟩), .inl rfl⟩
  | seq d => exact ⟨(seqStep_frame hs).1, .inr (.inl ⟨d, rfl, hs⟩), .inr (.inl ⟨d, rfl, hs⟩)⟩
  | dma =>
    rcases dmaStep_next hs with rfl | ⟨_, _, _, rfl⟩ | ⟨_, _, _, _, _, _, rfl⟩ | ⟨_, _, _, _, rfl⟩ <;> exact ⟨rfl,
        .inl rfl, .inl rfl⟩
  | dmaError b a =>
    simp only [takeTurn] at hs; cases hs
    rcases dmaErrorStep_eq b a s with e | ⟨ha, he, e⟩ <;> rw [e] <;> exact ⟨rfl, .inl rfl, .inl rfl⟩
  | sink =>
    simp only [takeTurn] at hs; cases hs; obtain ⟨x, e⟩ := sinkStep_eq s; rw [e]
    exact ⟨rfl, .inl rfl, .inl rfl⟩
  | env b =>
    simp only [takeTurn] at hs; cases hs; obtain ⟨x, e⟩ := envStep_eq b s; rw [e]
    exact ⟨rfl, .inl rfl, .inl rfl⟩
  | blockReset => simp only [takeTurn] at hs; cases hs; exact ⟨rfl, .inl rfl, .inr (.inr rfl)⟩
  | reclaim r =>
    simp only [takeTurn] at hs; cases hs
    rcases platformReclaim_cases r s with e | ⟨_, _, e⟩ <;> rw [e] <;> exact ⟨rfl, .inl rfl, .inl rfl⟩

/-- What using up a turn leaves. -/
theorem State.dropTurn_frame (s : State) : s.dropTurn.cfg = s.cfg ∧ s.dropTurn.mem = s.mem ∧
    s.dropTurn.dma = s.dma ∧ s.dropTurn.regs = s.regs ∧ s.dropTurn.sqr = s.sqr ∧ s.dropTurn.engine = s.engine ∧
    s.dropTurn.live = s.live ∧ s.dropTurn.alloc = s.alloc := by
  obtain ⟨a, b, e⟩ := State.dropTurn_eq s
  rw [e]; exact ⟨rfl, rfl, rfl, rfl, rfl, rfl, rfl, rfl⟩

end Sys2Proof.Machine
end

