-- ==== Sys2Proof/Laws/PerInstr.lean ====
section
/-!
SUPPORT. A statement made of every command as syntax, one lemma for each.
-/
namespace Sys2Proof.Laws

namespace WordRoundTrip

/-- A command is well formed, the reserved bits of its word are 0 (R94), and its word decodes to it (R92). -/
def Statement (i : Instr) : Prop := i.wf = true ∧ cmdRsvd (encode i) = 0 ∧ decode (encode i) = .command i

theorem nop : Statement .nop := ⟨rfl, by decide, by decide⟩
theorem init : Statement .init := ⟨rfl, by decide, by decide⟩
theorem render : Statement .render := ⟨rfl, by decide, by decide⟩
theorem cleanup : Statement .cleanup := ⟨rfl, by decide, by decide⟩

end WordRoundTrip

end Sys2Proof.Laws
end

