-- ==== Sys2Proof/Tests/Slice0.lean ====
section
/-!
SUPPORT. Tests against the vectors of spec/95_test_vectors.md and the encodings of spec/30_encoding.md, and a witness for
the hypotheses of each statement of Certificates/Slice0/Obligations.lean.
-/
namespace Sys2Proof.Machine.Tests

/-! ## Parameters: one ill-formed set for each check of R10 -/

theorem test_ex_ok : Config.ex.ok = true := by decide
theorem test_k_refused : ({ Config.ex with k := 5 } : Params).ok = false := by decide
theorem test_aLow_zero_refused : ({ Config.ex with aLow := 0 } : Params).ok = false := by decide
theorem test_equal_symbols_refused : ({ Config.ex with aLow := 2 } : Params).ok = false := by decide
theorem test_aHigh_full_refused : ({ Config.ex with aHigh := 3 } : Params).ok = false := by decide
theorem test_no_colour_refused : ({ Config.ex with c := 0 } : Params).ok = false := by decide
theorem test_maxBufBytes_refused : ({ Config.ex with maxBufBytes := 0x10001 } : Params).ok = false := by decide
theorem test_sink_unaligned_refused : ({ Config.ex with pwmFifoPa := 0x7E20C01A } : Params).ok = false := by decide
/-- The bounds of R9 and R112. -/
theorem test_bounds_refused : ({ Config.ex with maxBufBytes := 0 } : Params).ok = false ∧
    ({ Config.ex with fifoDepth := 0 } : Params).ok = false ∧ ({ Config.ex with clkDivisor := 0 } : Params).ok = false := by
  decide
/-- Two fields at one bit, a field outside the word, two registers at one offset, no room for the control block's words. -/
theorem test_layouts_refused : ({ Config.ex with csLayout := { reset := 30 } } : Params).ok = false ∧
    ({ Config.ex with debugLayout := { read := 32 } } : Params).ok = false ∧
    ({ Config.ex with clkLayout := { enab := 3 } } : Params).ok = false ∧
    ({ Config.ex with dmaOffsets := { debug := 0x04 } } : Params).ok = false ∧
    ({ Config.ex with cbBytes := 28 } : Params).ok = false ∧ ({ Config.ex with cbAlign := 2 } : Params).ok = false ∧
    ({ Config.ex with fselPerWord := 11 } : Params).ok = false := by decide

/-! ## Decoding (R91 to R95): words written out from the encoding, OP in bits 3 to 0 and RSVD above -/

theorem test_decode_nop : decode 0b00000000000000000000000000000000 = .command .nop := by decide
theorem test_decode_init : decode 0b00000000000000000000000000000001 = .command .init := by decide
theorem test_decode_render : decode 0b00000000000000000000000000000010 = .command .render := by decide
theorem test_decode_cleanup : decode 0b00000000000000000000000000000011 = .command .cleanup := by decide
/-- A5, A6. -/
theorem test_decode_reserved_bits : decode 0x00000010 = .reservedBits ∧ decode 0x80000002 = .reservedBits := by decide
/-- A7, A8. -/
theorem test_decode_reserved_op : decode 0x00000004 = .reservedOp ∧ decode 0x0000000F = .reservedOp := by decide
theorem test_table_words : decodeTableWord 32 2 = some .render ∧ decodeTableWord 32 0x12 = none ∧
    decodeTableWord 32 5 = none := by decide

/-! ## Small states -/

/-- The regions of vector I1. -/
def cb : Region := ⟨0x00100000, 32⟩
def buf : Region := ⟨0x00100040, 16⟩

/-- The control block of vector I1. -/
def cbMem : Memory :=
  memWrite32 (memWrite32 (memWrite32 (memWrite32 [] 0x00100000 0x04050148) 0x00100004 0x00100040) 0x00100008 0x7E20C018)
    0x0010000C 0x00000010

/-- Memory before I5, with one input byte of `0x12` at 0x00200000. -/
def inMem : Memory := memWrite cbMem 0x00200000 0x12

/-- The registers after the INIT of vector I1, an input of three bytes at 0x00200000 described. -/
def initRegs : HostRegs :=
  { HostRegs.reset with
    pixelCount := 1, gpioSel := 0x0512, inAddr := 0x00200000, inLen := 3
    bufLen := 0x10, bufPa := 0x00100040, cbPa := 0x00100000, capacity := 3 }

/-- A block after the INIT of vector I1, at a label and in a STATE. -/
def held (e : EngineState) (pc : Pc) : State :=
  { State.reset with
    regs := { initRegs with capacity := if e = .idle ∨ e = .rendering then 3 else 0 }
    engine := e
    sqr := ⟨pc, 1, 18, 5, 0x00200000, 3, 0⟩
    alloc := .pair cb buf
    live := [buf, cb]
    mem := inMem }

/-- A block in UNINIT, at a label, with the operands of vector I1. -/
def fresh (pc : Pc) : State :=
  { State.reset with
    regs := { HostRegs.reset with pixelCount := 1, gpioSel := 0x0512 }
    sqr := ⟨pc, 1, 18, 5, 0, 0, 0⟩ }

/-- A channel in the course of the transfer of vector T2, at a position. -/
def transferring (loaded : Bool) (pos : Nat) : Dma :=
  { Dma.powerOn with
    active := true, conblkAd := 0x00100000, addrLatched := true, loaded := loaded
    ti := 0x04050148, src := 0x00100040, dst := 0x7E20C018, len := 16, pos := pos }

def d0 : Draw := {}

/-- STATUS after a result, 0 where it is no next state. -/
def statusAfter : Result → Word
  | .next s => s.statusWord
  | .fault _ => 0
  | .refused _ => 0

/-- The outcome is a next state with this property. -/
def nextHas (p : State → Bool) : Result → Bool
  | .next s => p s
  | .fault _ => false
  | .refused _ => false

def faultsWith (f : Fault) : Result → Bool
  | .next _ => false
  | .fault g => decide (g = f)
  | .refused _ => false

def refusesWith (f : Refusal) : Result → Bool
  | .next _ => false
  | .fault _ => false
  | .refused g => decide (g = f)

/-! ## Acceptance (section 2.4): STATUS after the write to CMD -/

/-- A1 and A3. -/
theorem test_nop : statusAfter (submit 0 (held .idle .done)) = 0x00000001 ∧
    statusAfter (submit 0 (held .rendering .p4)) = 0x00000846 := by decide
/-- A4, A5 and A7. -/
theorem test_reserved : statusAfter (submit 0x10 (held .rendering .p4)) = 0x00000846 ∧
    statusAfter (submit 0x10 (held .idle .done)) = 0x00000541 ∧
    statusAfter (submit 4 (held .idle .done)) = 0x00000541 := by decide
/-- A12. -/
theorem test_init_accepted : statusAfter (submit 1 (fresh .done)) = 0x00000004 := by decide
/-- A10, and A11. -/
theorem test_init_discarded : statusAfter (submit 1 ((held .idle .done).setRegs HostRegs.reset)) = 0x00000641 ∧
    statusAfter (submit 1 State.reset) = 0x00000740 := by decide
/-- A18. -/
theorem test_render_accepted : statusAfter (submit 2 (held .idle .done)) = 0x00000006 := by decide
/-- A9, A13, A16 and A17. -/
theorem test_render_discarded : statusAfter (submit 2 (fresh .done)) = 0x00000640 ∧
    statusAfter (submit 2 ((held .idle .done).setRegs { initRegs with inAddr := 0xFFFFFFF0, inLen := 0x20 }))
      = 0x00000741 ∧
    statusAfter (submit 2 ((held .idle .done).setRegs { initRegs with inAddr := 0, inLen := 0xFFFFFFFF }))
      = 0x00000109 ∧
    statusAfter (submit 2 ((held .idle .done).setRegs { initRegs with inLen := 4 })) = 0x00000109 := by decide
/-- A20 and A21. -/
theorem test_cleanup_accepted : statusAfter (submit 3 (fresh .done)) = 0x00000003 ∧
    statusAfter (submit 3 (held .idle .done)) = 0x00000007 := by decide
/-- A22. -/
theorem test_cleanup_discarded : statusAfter (submit 3 (held .shutdown .done)) = 0x00000643 := by decide

/-! ## STATUS writes (section 2.5) -/

/-- STATUS 0x00000379. -/
def flagged : State :=
  (held .idle .done).setRegs
    { initRegs with reject := true, allocFail := true, dmaErr := true, cmdErr := true, errCode := 3 }

/-- W1 to W4. -/
theorem test_status_writes : flagged.statusWord = 0x00000379 ∧ (statusWrite 0x00000008 flagged).statusWord = 0x00000371 ∧
    (statusWrite 0x80000000 flagged).statusWord = 0x00000079 ∧
    (statusWrite 0x80000078 flagged).statusWord = 0x00000001 ∧
    (statusWrite 0x00000007 flagged).statusWord = 0x00000379 := by decide

/-- R39, R40 under EX. -/
theorem test_parameter_registers : State.reset.windowRead 0x2C = 0x00003123 ∧ State.reset.windowRead 0x30 = 4 := by decide

/-! ## The encoder (sections 2.1 to 2.3) -/

/-- The instance K4. -/
def k4 : Params := { Config.ex with k := 4, aHigh := 3, aLow := 1 }

theorem test_expansion : expandBytes Config.ex 0xA5 = [0xD3, 0x49, 0xA6] ∧
    expandBytes k4 0xA5 = [0xE8, 0xE8, 0x8E, 0x8E] := by decide
/-- B1, B5 and B12. -/
theorem test_bufLen : bufLen { Config.ex with r := 0 } 1 = 12 ∧ bufLen Config.ex 1 = 16 ∧
    bufLen { Config.ex with r := 40 } 144 = 1336 ∧ cap Config.ex 144 = 432 := by decide
/-- E4. -/
theorem test_encodeBytes : encodeBytes Config.ex [0x12] 16 = [0x92, 0x69, 0x34, 0, 0, 0, 0, 0, 0, 0, 0, 0, 0, 0, 0, 0] := by
  decide

/-! ## Ports (sections 2.6, 2.7 and R116) -/

/-- The words of vector I1's port operations, and Q1's write while BUSY is 1. -/
theorem test_clock_words : clkDivWord {} (configuredClk Config.ex false false) = 0x5A005000 ∧
    clkCtlWord {} (configuredClk Config.ex false false) = 0x5A000001 ∧
    clkCtlWord {} (configuredClk Config.ex true false) = 0x5A000011 ∧
    clkCtlWord {} (stoppedClk Config.ex (configuredClk Config.ex true true) true) = 0x5A000001 := by decide
/-- R116: the fields of a read of CLK.CTL, BUSY in bit 7; bits 31 to 24, 23 to 11 and 6 are drawn. -/
theorem test_clock_read : clkCtlRead {} (configuredClk Config.ex true true) 0 = 0x00000091 ∧
    clkCtlRead {} { Clk.powerOn with mash := 3, flip := true } 0 = 0x00000700 ∧
    clkCtlRead {} Clk.powerOn 0xFFFFFFFF = 0xFFFFF840 := by decide
/-- G2 to G5. -/
theorem test_fsel : fselInsert 0xFFFFFFFF (fselShift Config.ex 18) 0b010 = 0xFAFFFFFF ∧
    fselInsert 0 (fselShift Config.ex 12) 0b100 = 0x00000100 ∧
    fselInsert 0 (fselShift Config.ex 9) 0b011 = 0x18000000 ∧
    fselInsert 0x12345678 (fselShift Config.ex 40) 0b100 = 0x1234567C ∧ (fselIndex Config.ex 40).val = 4 := by decide
/-- G6 and G7. -/
theorem test_gpio_range :
    faultsWith .gpioRange (seqStep d0 ((fresh (.i8 cb buf .read)).setSqr ⟨.i8 cb buf .read, 1, 18, 6, 0, 0, 0⟩)) = true ∧
    faultsWith .gpioRange (seqStep d0 ((fresh (.i8 cb buf .read)).setSqr ⟨.i8 cb buf .read, 1, 60, 0, 0, 0, 0⟩)) = true := by
  decide

/-! ## The channel (sections 2.8 and 2.9) -/

/-- T1's two CS words. -/
theorem test_start_flags : startFlags Config.ex false = 0x10FF0000 ∧ startFlags Config.ex true = 0x10FF0001 := by decide
/-- D1's words. -/
theorem test_stop_words : stopResetWord Config.ex = 0x80000000 ∧ stopClearWord Config.ex = 0x00000006 ∧
    debugErrMask Config.ex.debugLayout = 0x00000007 := by decide
/-- R172 and R173: the fields of a read, everything drawn as 1: CS bits 7, 15 to 9 and 27 to 24 read 0. -/
theorem test_channel_reads : csRead {} { Dma.powerOn with ended := true, debugErr := 2, priority := 15 } 0xFFFFFFFF
      = 0x000F017A ∧
    debugRead {} { Dma.powerOn with debugErr := 2 } 0x00000015 = 0x00000012 := by decide
/-- D4 and D6: the snapshot is masked. -/
theorem test_stop_snapshot : nextHas (fun t => decide (t.regs.debugSnap = 2 ∧ t.regs.errCode = 4 ∧ t.regs.dmaErr = true))
    (seqStep { d0 with word := 0x12 } ((held .rendering (.p1 .s2)).setDma { Dma.powerOn with debugErr := 2 })) = true := by
  decide
/-- T2: the fetch of the control block of vector I1. -/
theorem test_fetch : nextHas (fun t => decide (t.dma.src = 0x00100040 ∧ t.dma.len = 16 ∧ t.dma.loaded = true))
    (dmaStep ((held .idle .done).setDma (transferring false 0))) = true := by decide
/-- T4: NEXTCONBK, TXFR_LEN, TI; and a CS write with ABORT. -/
theorem test_variant_faults :
    faultsWith .dmaChain (dmaFetch (((held .idle .done).setDma (transferring false 0)).setMem
      (memWrite32 cbMem 0x00100014 0x00100020))) = true ∧
    faultsWith .dmaLenUnaligned (dmaFetch (((held .idle .done).setDma (transferring false 0)).setMem
      (memWrite32 cbMem 0x0010000C 15))) = true ∧
    refusesWith .dmaTiUnmodelled (dmaFetch (((held .idle .done).setDma (transferring false 0)).setMem
      (memWrite32 cbMem 0x00100000 0x00000148))) = true ∧
    faultsWith .dmaAbortUnmodelled (csWrite 0x40000000 0 (held .idle .done)) = true := by decide
/-- R182, R184: a block that INIT filled only up to SOURCE_AD is fetched and completes at once. -/
theorem test_fetch_half_filled : nextHas (fun t => decide (t.dma.dst = 0 ∧ t.dma.ended = true ∧ t.dma.active = false))
    (runTurns [.dma, .dma] (((held .idle .done).setDma (transferring false 0)).setMem
      (memWrite32 (memWrite32 [] 0x00100000 0x04050148) 0x00100004 0x00100040))) = true := by decide
/-- R62, R63, R76: an address of the sink is no memory, even where a RAM range covers it. -/
theorem test_sink_is_not_memory : faultsWith .hostUnmapped (hostStmt (.memw 0x7E20C01B 0) []
    { State.reset with cfg := { Config.ex with ram := [⟨0, 0x80000000⟩] } }) = true ∧
    nextHas (fun _ => true) (hostStmt (.memw 0x7E000000 0) []
      { State.reset with cfg := { Config.ex with ram := [⟨0, 0x80000000⟩] } }) = true := by decide
/-- R38: CAPACITY reads 0 from the acceptance of CLEANUP on. -/
theorem test_capacity_in_shutdown : nextHas (fun t => decide (t.windowRead 0x28 = 0 ∧ t.windowRead 0x18 = 0x10))
    (exec .cleanup (held .idle .done)) = true := by decide
/-- R64 and T2: little-endian reads, and the bits of a word in address order. -/
theorem test_word_order :
    memRead32 (memWriteList [] 0x00100040 [0xDB, 0x6D, 0xB6, 0x92]) 0x00100040 = 0x92B66DDB ∧
    serialise .addressOrder 0x92B66DDB = byteBits 0xDB ++ byteBits 0x6D ++ byteBits 0xB6 ++ byteBits 0x92 ∧
    serialise .wordMsbFirst 0x92B66DDB = byteBits 0x92 ++ byteBits 0xB6 ++ byteBits 0x6D ++ byteBits 0xDB := by decide

/-! ## A step from reset -/

/-- A command placed at reset runs in the next step (A20, A11). -/
theorem test_placed_command : nextHas (fun t => decide (t.engine = .shutdown)) (step (State.reset.withFetchWord 32 3)) = true ∧
    statusAfter (step (State.reset.withFetchWord 32 1)) = 0x00000740 := by decide

/-! ## Witnesses: for each statement with hypotheses, a concrete state and operands that meet them together -/

theorem witness_StepRunsDecodedCommand : ∃ (s : State) (w : Word) (i : Instr) (rest : List HostStmt) (ts : List Turn),
    s.cfg.ok = true ∧ s.turns = .host :: ts ∧ s.host = .wr 0x00 32 w :: rest ∧ decode w = .command i :=
  ⟨State.reset.withFetchWord 32 2, 2, .render, [], [], by decide, rfl, rfl, by decide⟩

theorem witness_PlacedWordRunsNext : ∃ (s : State) (w : Nat) (i : Instr),
    s.cfg.ok = true ∧ decodeTableWord 32 w = some i := ⟨State.reset, 3, .cleanup, by decide, by decide⟩

/-- A parameter set on each side of R10, K at both values. -/
theorem witness_BadParametersRefused : Config.ex.ok = true ∧ k4.ok = true ∧
    ({ Config.ex with k := 2 } : Params).ok = false := by decide

/-- K at both values, C at the largest value PARAMS reports and above it. -/
theorem witness_ParameterRegisters : ({ Config.ex with c := 15 } : Params).ok = true ∧
    ({ k4 with c := 16 } : Params).ok = true := by decide

/-- The first and the last offset of the clause on other offsets. -/
theorem witness_WindowWrites : ((0x18 : BitVec 6).toNat % 4 = 0 ∧ 0x18 ≤ (0x18 : BitVec 6).toNat) ∧
    (0x3C : BitVec 6).toNat % 4 = 0 ∧ 0x18 ≤ (0x3C : BitVec 6).toNat := by decide

/-- Another width, an offset that is no multiple of 4, and an access the window takes at its last offset. -/
theorem witness_WindowAccessWidth : ¬(16 = 32 ∧ (0x04 : BitVec 6).toNat % 4 = 0) ∧
    ¬(32 = 32 ∧ (0x05 : BitVec 6).toNat % 4 = 0) ∧ (32 = 32 ∧ (0x3C : BitVec 6).toNat % 4 = 0) := by decide

/-- The last byte of the render buffer lies in a live region, the byte after it in none. -/
theorem witness_HostMemoryWrites : ∃ s : State, s.mem.wf = true ∧
    (s.mapped 0x0010004F = true ∧ ∃ r ∈ s.live, r.base ≤ 0x0010004F ∧ 0x0010004F < r.base + r.size) ∧
    (s.mapped 0x00100050 = true ∧ ∀ r ∈ s.live, ¬(r.base ≤ 0x00100050 ∧ 0x00100050 < r.base + r.size)) ∧
    s.mapped 0x20000000 = false ∧ ∃ r ∈ deviceRegions s.cfg, r.base ≤ 0x7E20C01B ∧ 0x7E20C01B < r.base + r.size :=
  ⟨held .idle .done, by decide, ⟨by decide, buf, by decide⟩, ⟨by decide, by decide⟩, by decide, ⟨0x7E20C018, 4⟩, by decide⟩

/-- A wait for BUSY to be 0, with BUSY 0 and with BUSY 1. -/
theorem witness_PollRepeats : ∃ s t : State, s.host = [.poll 0x04 2 2 0] ∧ t.host = [.poll 0x04 2 2 0] ∧
    (0x04 : BitVec 6).toNat % 4 = 0 ∧ ((s.windowRead 0x04).toNat / 2 ^ 2) % 2 ^ (2 + 1 - 2) = (0 : Word).toNat ∧
    ((t.windowRead 0x04).toNat / 2 ^ 2) % 2 ^ (2 + 1 - 2) ≠ (0 : Word).toNat :=
  ⟨(held .idle .done).setHost [.poll 0x04 2 2 0], (held .rendering .p4).setHost [.poll 0x04 2 2 0],
    rfl, rfl, by decide, by decide, by decide⟩

theorem witness_NopCompletes : (held .idle .done).busy = false ∧ (held .rendering .p4).busy = true := by decide

theorem witness_InitAccepted : ∃ s : State, s.busy = false ∧ s.engine = .uninit ∧ s.regs.pixelCount ≠ 0 :=
  ⟨fresh .done, by decide, rfl, by decide⟩

theorem witness_InitDiscarded : ((fresh .i1).busy = true) ∧
    ((held .idle .done).busy = false ∧ (held .idle .done).engine ≠ .uninit) ∧
    (State.reset.busy = false ∧ State.reset.engine = .uninit ∧ State.reset.regs.pixelCount = 0) := by decide

/-- An input of the whole capacity, in mapped RAM outside both regions. -/
theorem witness_RenderAccepted : ∃ s : State, s.busy = false ∧ s.engine = .idle ∧
    s.regs.inAddr.toNat + s.regs.inLen.toNat ≤ 2 ^ 32 ∧ s.regs.inLen.toNat ≤ s.sqr.p.toNat * s.cfg.c ∧
    (∀ r ∈ s.alloc.regions, ∀ i j, i < s.regs.inLen.toNat → j < r.size → s.regs.inAddr.toNat + i ≠ r.base + j) ∧
    ∀ i, i < s.regs.inLen.toNat → s.mapped (s.regs.inAddr.toNat + i) = true :=
  ⟨held .idle .done, by decide, rfl, by decide, by decide, by
    intro r hr
    exact (regionsOverlap_false_iff (held .idle .done).inputRegion r).1
      ((by decide : ∀ r ∈ (held .idle .done).alloc.regions,
        regionsOverlap (held .idle .done).inputRegion r = false) r hr), by decide⟩

/-- The four discards: busy, state, the wrap at its least value, one byte over the capacity. -/
theorem witness_RenderDiscarded : ((held .rendering .p4).busy = true) ∧
    ((fresh .done).busy = false ∧ (fresh .done).engine ≠ .idle) ∧
    2 ^ 32 < (0xFFFFFFFF : Word).toNat + (2 : Word).toNat ∧
    ((0x00200000 : Word).toNat + (4 : Word).toNat ≤ 2 ^ 32 ∧
      (held .idle .done).sqr.p.toNat * (held .idle .done).cfg.c < (4 : Word).toNat) ∧
    (held .idle .done).busy = false ∧ (held .idle .done).engine = .idle := by decide

/-- The input's first byte is the render buffer's last one; and an input whose last byte is the first past the RAM. -/
theorem witness_RenderInputFaults : ∃ s t : State,
    (s.busy = false ∧ s.engine = .idle ∧ s.regs.inAddr.toNat + s.regs.inLen.toNat ≤ 2 ^ 32 ∧
      s.regs.inLen.toNat ≤ s.sqr.p.toNat * s.cfg.c ∧
      ∃ r ∈ s.alloc.regions, ∃ i j, i < s.regs.inLen.toNat ∧ j < r.size ∧ s.regs.inAddr.toNat + i = r.base + j) ∧
    (t.busy = false ∧ t.engine = .idle ∧ t.regs.inAddr.toNat + t.regs.inLen.toNat ≤ 2 ^ 32 ∧
      t.regs.inLen.toNat ≤ t.sqr.p.toNat * t.cfg.c ∧
      (∀ r ∈ t.alloc.regions, ∀ i j, i < t.regs.inLen.toNat → j < r.size → t.regs.inAddr.toNat + i ≠ r.base + j) ∧
      ∃ i, i < t.regs.inLen.toNat ∧ t.mapped (t.regs.inAddr.toNat + i) = false) :=
  ⟨(held .idle .done).setRegs { initRegs with inAddr := 0x0010004F },
    (held .idle .done).setRegs { initRegs with inAddr := 0x1FFFFFFE },
    ⟨by decide, rfl, by decide, by decide, buf, by decide, 0, 15, by decide, by decide, by decide⟩,
    ⟨by decide, rfl, by decide, by decide, by
      intro r hr
      exact (regionsOverlap_false_iff ⟨0x1FFFFFFE, 3⟩ r).1
        ((by decide : ∀ r ∈ (held .idle .done).alloc.regions, regionsOverlap ⟨0x1FFFFFFE, 3⟩ r = false) r hr),
      2, by decide, by decide⟩⟩

theorem witness_CleanupAccepted : ((fresh .done).busy = false ∧ (fresh .done).engine = .uninit) ∧
    ((held .idle .done).busy = false ∧ (held .idle .done).engine = .idle) := by decide

theorem witness_CleanupDiscarded : (held .rendering .p4).busy = true ∧
    ((held .shutdown .done).busy = false ∧ (held .shutdown .done).engine = .shutdown) := by decide

/-- Each command answers a next state; a discard changes a field of STATUS, an accepted CLEANUP changes CAPACITY. -/
theorem witness_CommandFrame : (∃ t, exec .nop (held .idle .done) = .next t) ∧ (∃ t, exec .init (fresh .done) = .next t) ∧
    (∃ t, exec .render (held .idle .done) = .next t) ∧ (∃ t, exec .cleanup (held .idle .done) = .next t) ∧
    (∃ t, exec .cleanup (held .shutdown .done) = .next t ∧ t.regs.errCode ≠ (held .shutdown .done).regs.errCode) ∧
    ∃ t, exec .cleanup (held .idle .done) = .next t ∧ t.regs.capacity ≠ (held .idle .done).regs.capacity :=
  ⟨⟨_, rfl⟩, ⟨_, rfl⟩, ⟨_, rfl⟩, ⟨_, rfl⟩, ⟨_, rfl, by decide⟩, _, rfl, by decide⟩

theorem witness_AllocationContract : ∃ (d : Draw) (s t : State) (r : Region), s.mem.wf = true ∧
    allocate d 32 32 s = some (r, t) :=
  ⟨{ alloc := some 0x00100000, fill := [0x77] }, fresh .i1,
    ((fresh .i1).setLive [cb]).setMem (memWriteList [] 0x00100000 [0x77]), cb, by decide,
    allocate_of_allocatable (r := cb) rfl (by decide)⟩

/-- The four failure labels. -/
theorem witness_InitFailures : (fresh .i1).sqr.pc = .i1 ∧ d0.alloc = none ∧
    (∃ s : State, s.sqr.pc = .i3 cb ∧ s.cfg.maxBufBytes < bufLen s.cfg s.sqr.p.toNat) ∧
    (fresh (.i4 cb)).sqr.pc = .i4 cb ∧ (fresh .iF).sqr.pc = .iF :=
  ⟨rfl, rfl, ⟨{ fresh (.i3 cb) with cfg := { Config.ex with maxBufBytes := 12 } }, rfl, by decide⟩, rfl, rfl⟩

/-- I2 and I5 at their first words. -/
theorem witness_ControlBlockWritten : ∃ (s t : State), s.mem.wf = true ∧ 32 ≤ cb.size ∧
    s.mappedRange cb.base cb.size = true ∧ s.sqr.pc = .i2 cb 0 ∧ (List.replicate 8 d0).length = 8 ∧
    t.mem.wf = true ∧ t.mappedRange cb.base cb.size = true ∧ t.sqr.pc = .i5 cb buf 0 ∧ (List.replicate 4 d0).length = 4 :=
  ⟨fresh (.i2 cb 0), fresh (.i5 cb buf 0), by decide, by decide, by decide, rfl, rfl, by decide, by decide, rfl, rfl⟩

/-- The clock running, as INIT leaves it. -/
def runningClk : Clk := configuredClk Config.ex true true

/-- The state of a result that is a next state. -/
def after : Result → State
  | .next s => s
  | .fault _ => State.reset
  | .refused _ => State.reset

theorem eq_after {r : Result} (h : nextHas (fun _ => true) r = true) : r = .next (after r) := by
  cases r with
  | next s => rfl
  | fault f => simp [nextHas] at h
  | refused f => simp [nextHas] at h

/-- Each value of ENAB and BUSY the sequences can find. -/
theorem witness_ClockSequences :
    ((fresh (.i6 cb buf (.stop .read))).sqr.pc = .i6 cb buf (.stop .read) ∧
      (fresh (.i6 cb buf (.stop .read))).clk.enab = false ∧ (fresh (.i6 cb buf (.stop .read))).clk.busy = false) ∧
    (held .shutdown (.q2 .read)).sqr.pc = .q2 .read ∧ (runningClk.enab = true ∧ runningClk.busy = true) ∧
    ((configuredClk Config.ex true false).enab = true ∧ (configuredClk Config.ex true false).busy = false) ∧
    ((configuredClk Config.ex false true).enab = false ∧ (configuredClk Config.ex false true).busy = true) ∧
    ((held .shutdown (.q2 .read)).clk.enab = false ∧ (held .shutdown (.q2 .read)).clk.busy = false) := by decide

theorem witness_WaitsHold :
    ((fresh (.i6 cb buf .waitHigh)).sqr.pc = .i6 cb buf .waitHigh ∧ (fresh (.i6 cb buf .waitHigh)).clk.busy = false) ∧
    (((fresh (.i6 cb buf (.stop .waitLow))).setClk runningClk).sqr.pc = .i6 cb buf (.stop .waitLow) ∧
      ((fresh (.i6 cb buf (.stop .waitLow))).setClk runningClk).clk.busy = true) ∧
    (((held .shutdown (.q2 .waitLow)).setClk runningClk).sqr.pc = .q2 .waitLow ∧
      ((held .shutdown (.q2 .waitLow)).setClk runningClk).clk.busy = true) ∧
    (((held .rendering (.p1 .s1)).setDma (transferring true 4)).sqr.pc = .p1 .s1 ∧
      (transferring true 4).active = true ∧ (transferring true 4).debugErr = 0) ∧
    (∃ t, (∀ b, Turn.seq d0 ≠ .env b) ∧ takeTurn (.seq d0) (held .rendering .p4) = .next t) ∧
    runningClk.enab = true ∧ State.reset.clk.enab = false :=
  ⟨by decide, by decide, by decide, by decide, ⟨_, (by simp), rfl⟩, rfl, rfl⟩

theorem witness_PwmArmed : (fresh (.i7 cb buf)).sqr.pc = .i7 cb buf := rfl

/-- The last pin and function in range; the first pin and the first function out of range. -/
theorem witness_GpioFunctionSet : (fresh (.i8 cb buf .read)).sqr.pc = .i8 cb buf .read ∧
    ((53 : BitVec 8).toNat < Config.ex.gpioPins ∧ (5 : BitVec 8).toNat < 6) ∧
    ¬((54 : BitVec 8).toNat < Config.ex.gpioPins ∧ (5 : BitVec 8).toNat < 6) ∧
    ¬((53 : BitVec 8).toNat < Config.ex.gpioPins ∧ (6 : BitVec 8).toNat < 6) := by decide

theorem witness_InitRunsToIdle : ∃ (s : State) (d₁ d₂ : Draw),
    s.cfg.ok = true ∧ s.mem.wf = true ∧ s.sqr.pc = .i1 ∧ s.clk.enab = false ∧ s.clk.busy = false ∧
    s.sqr.pin.toNat < s.cfg.gpioPins ∧ s.sqr.func.toNat < 6 ∧ cb.size = s.cfg.cbBytes ∧
    buf.size = bufLen s.cfg s.sqr.p.toNat ∧
    buf.size ≤ s.cfg.maxBufBytes ∧ d₁.alloc = some cb.base ∧ s.allocatable cb s.cfg.cbAlign = true ∧
    d₂.alloc = some buf.base ∧ s.allocatable buf 4 = true ∧ regionsOverlap buf cb = false ∧
    (List.replicate 9 d0).length = 9 ∧ (List.replicate 5 d0).length = 5 :=
  ⟨fresh .i1, { alloc := some 0x00100000 }, { alloc := some 0x00100040 }, by decide⟩

theorem witness_ExpansionIsSymbols : Config.ex.ok = true ∧ k4.ok = true := by decide

theorem witness_SymbolsForcedForThree : Config.ex.ok = true ∧ Config.ex.k = 3 := by decide

theorem witness_BufferLength : 1 < 2 := by decide

/-- An input of the whole capacity, its last byte and the last byte of its group, and the first byte after it. -/
theorem witness_EncodingRegions : Config.ex.ok = true ∧ ([0xFF, 0x00, 0x12] : List Byte).length ≤ cap Config.ex 1 ∧
    2 < ([0xFF, 0x00, 0x12] : List Byte).length ∧ 2 < Config.ex.k ∧
    ([0xFF, 0x00, 0x12] : List Byte).length * Config.ex.k ≤ 9 := by decide

/-- `held` holds its two regions, at whichever label and in whichever STATE. -/
theorem held_held (e : EngineState) (pc : Pc) : Held (held e pc) cb buf := by
  refine ⟨rfl, ⟨?_, rfl, rfl⟩, ⟨?_, rfl, ?_⟩, ⟨?_, ?_, rfl, ?_⟩, by decide, ?_, ?_⟩
  · show (0x10 : Word) = BitVec.ofNat 32 (bufLen Config.ex 1); decide
  · show cb ∈ [buf, cb]; decide
  · show cb.base % 32 = 0; decide
  · show buf ∈ [buf, cb]; decide
  · show buf.size = bufLen Config.ex 1; decide
  · show bufLen Config.ex 1 ≤ Config.ex.maxBufBytes; decide
  · show (1 : Word) ≠ 0; decide
  · refine ⟨?_, ?_, ?_, ?_, fun i h h' => ?_⟩
    · show memRead32 inMem 0x00100000 = 0x04050148; decide
    · show memRead32 inMem 0x00100004 = 0x00100040; decide
    · show memRead32 inMem 0x00100008 = 0x7E20C018; decide
    · show memRead32 inMem 0x0010000C = 0x00000010; decide
    · exact (by decide : ∀ i, i < 8 → 4 ≤ i → memRead32 inMem (cb.base + 4 * i) = 0) i h' h

theorem held_live (e : EngineState) (pc : Pc) : LiveOk (held e pc) :=
  (by decide : (∀ r ∈ (held .idle .done).live, 0 < r.size ∧ r.base + r.size ≤ Config.paSpace ∧
      (held .idle .done).mappedRange r.base r.size = true) ∧
    (held .idle .done).live.Pairwise (fun r t => regionsOverlap r t = false))

theorem held_capacity (e : EngineState) (pc : Pc) : CapacityOk (held e pc) := by
  show (if e = .idle ∨ e = .rendering then (3 : Word) else 0) =
    if e = .idle ∨ e = .rendering then BitVec.ofNat 32 (cap Config.ex 1) else 0
  cases e <;> rfl

/-- `held` meets the block's invariant where its block and its channel do. -/
theorem held_inv {e : EngineState} {pc : Pc} {d : Dma} (hb : BlockOk (held e pc)) (hd : DmaOk ((held e pc).setDma d)) :
    BlockInv ((held e pc).setDma d) :=
  ⟨(by decide : Config.ex.ok = true), (by decide : Memory.wf inMem = true), held_live e pc, hb, hd, held_capacity e pc⟩

/-- A channel that is not active is sound at a label that asks nothing more of it. -/
theorem held_dma_inactive (e : EngineState) {pc : Pc} (h : pc ≠ .p3 .t2 ∧ pc ≠ .p3 .t3) :
    DmaOk ((held e pc).setDma Dma.powerOn) :=
  ⟨fun _ => rfl, fun _ => rfl, fun x => absurd x (by rintro (x | x); exact h.1 x; exact h.2 x)⟩

/-- The invariant holds of an idle block. -/
theorem held_idle_inv : Inv ((held .idle .done).setDma Dma.powerOn) :=
  ⟨held_inv ⟨cb, buf, held_held _ _⟩ (held_dma_inactive _ (by simp)), by simp [State.setDma, Dma.powerOn]⟩

/-- The input of `held` is one RENDER accepts. -/
theorem held_input (e : EngineState) (pc : Pc) : InputOk (held e pc) :=
  ⟨(by decide : (3 : Word).toNat ≤ cap Config.ex 1),
    (by decide : ∀ r ∈ [cb, buf], regionsOverlap ⟨0x00200000, 3⟩ r = false),
    (by decide : (held .idle .done).mappedRange 0x00200000 3 = true)⟩

/-- The invariant holds of an idle block whose transfer is active, before its fetch. -/
theorem held_transfer_inv : Inv ((held .idle .done).setDma (transferring false 0)) := by
  refine ⟨held_inv ⟨cb, buf, held_held _ _⟩ ⟨(by intro h; cases h), (by intro h; cases h),
    (by rintro (h | h) <;> cases h)⟩, fun _ => ⟨cb, buf, ?_⟩⟩
  have h := held_held .idle .done
  exact ⟨h.2.2.1.1, h.2.2.2.1.1, rfl, rfl, rfl, by simp [held, State.setDma, Pc.initRegions],
    by simp [held, State.setDma, Pc.initRegions], h.2.2.2.2.1, rfl, h.2.2.2.2.2.2, fun _ => rfl, (by intro h; cases h)⟩

/-- At ENCODE's first step; the length of a full input with its buffer is 19. -/
theorem witness_EncodeWritesBuffer : ∃ s : State, BlockInv s ∧ Held s cb buf ∧ s.engine = .rendering ∧ InputOk s ∧ s.sqr.j = 0 ∧
    s.sqr.pc = encodePc s 0 ∧ (List.replicate 19 d0).length = s.sqr.inLen.toNat + buf.size :=
  ⟨(held .rendering (.p2 .read)).setDma Dma.powerOn,
    held_inv ⟨rfl, ⟨cb, buf, held_held _ _⟩, held_input _ _, (by decide : 0 < (3 : Word).toNat * Config.ex.k)⟩
      (held_dma_inactive _ (by simp)), held_held _ _, rfl, held_input _ _, rfl, rfl, rfl⟩

/-- Parameters with another layout, and one word for each clause of a CS write. -/
theorem witness_ChannelRegisters : Config.ex.ok = true ∧
    ({ Config.ex with csLayout := { active := 31, reset := 0, priority := 24, waitWrites := 9 } } : Params).ok = true ∧
    (0x80000000 : Word).getLsbD (Config.ex.csLayout.pos .reset) = true ∧
    ((0x40000000 : Word).getLsbD 31 = false ∧ (0x40000000 : Word).getLsbD (Config.ex.csLayout.pos .abort) = true) ∧
    ((6 : Word).getLsbD 31 = false ∧ (6 : Word).getLsbD 30 = false ∧
      (6 : Word).getLsbD (Config.ex.csLayout.pos .active) = false ∧ (transferring true 0).active = true ∧
      (6 : Word).getLsbD 0 = Dma.powerOn.active) ∧
    ((1 : Word).getLsbD 31 = false ∧ (1 : Word).getLsbD 30 = false ∧ (1 : Word).getLsbD 0 = true ∧
      Dma.powerOn.active = false ∧ Dma.powerOn.addrLatched = false) ∧
    ({ Dma.powerOn with addrLatched := true, conblkAd := 0x00100010 } : Dma).conblkAd.toNat % Config.ex.cbAlign ≠ 0 ∧
    ({ Dma.powerOn with addrLatched := true, conblkAd := 0x00100000 } : Dma).conblkAd.toNat % Config.ex.cbAlign = 0 ∧
    (∀ b, Config.ex.csLayout.pos b ≠ 7) ∧ ∀ i, Config.ex.debugLayout.pos i ≠ 3 := by
  refine ⟨by decide, by decide, by decide, by decide, by decide, by decide, by decide, by decide, ?_, by decide⟩
  intro b
  exact (by decide : ∀ b ∈ CsBit.all, Config.ex.csLayout.pos b ≠ 7) b b.mem_all

/-- D1, D5 and the label of CLEANUP's stop. -/
theorem witness_StopReachesIdle : (held .rendering (.p1 .s1)).cfg.ok = true ∧ ((held .rendering (.p1 .s1)).sqr.pc = .p1 .s1 ∧
      (held .rendering (.p1 .s1)).dma.active = false ∧
      (List.replicate 5 d0).length = (if (held .rendering (.p1 .s1)).dma.debugErr = 0 then 5 else 6)) ∧
    ((held .shutdown (.q1 .s1)).sqr.pc = .q1 .s1 ∧ ({ Dma.powerOn with debugErr := 3 } : Dma).debugErr ≠ 0 ∧
      (List.replicate 6 d0).length = (if ({ Dma.powerOn with debugErr := 3 } : Dma).debugErr = 0 then 5 else 6)) := by
  decide

/-- D1 then D8. -/
theorem witness_StopIdempotent : ∃ (s t u : State), s.cfg.ok = true ∧ s.sqr.pc = .q1 .s1 ∧
    (List.replicate 5 d0).length = (if s.dma.debugErr = 0 then 5 else 6) ∧ s.dma.active = false ∧
    runTurns ((List.replicate 5 d0).map .seq) s = .next t ∧
    runTurns ((List.replicate 5 d0).map .seq) (t.setPc s.sqr.pc) = .next u :=
  ⟨held .shutdown (.q1 .s1), _, _, by decide, rfl, rfl, rfl, eq_after (by decide), eq_after (by decide)⟩

theorem witness_StartActivates : (held .rendering (.p3 .t1)).sqr.pc = .p3 .t1 ∧
    (held .rendering (.p3 .t1)).dma.active = false ∧ (held .rendering (.p3 .t1)).cfg.ok = true ∧
    (held .rendering (.p3 .t1)).regs.cbPa.toNat % (held .rendering (.p3 .t1)).cfg.cbAlign = 0 ∧
    (List.replicate 3 d0).length = 3 := by decide

/-- The fetch of a good control block, and one state for each stop. -/
theorem witness_ControlBlockFetch : (transferring false 0).active = true ∧ (transferring false 0).debugErr = 0 ∧
    (transferring false 0).loaded = false ∧ (held .idle .done).mappedRange 0x00100000 32 = true ∧
    (memRead32 cbMem 0x00100000 = Config.ex.tiValue ∧ memRead32 cbMem 0x00100014 = 0 ∧
      (memRead32 cbMem 0x0010000C).toNat % 4 = 0) ∧
    memRead32 (memWrite32 cbMem 0x00100000 0x00000148) 0x00100000 ≠ Config.ex.tiValue ∧
    memRead32 (memWrite32 cbMem 0x00100014 0x00100020) 0x00100014 ≠ 0 ∧
    (memRead32 (memWrite32 cbMem 0x0010000C 15) 0x0010000C).toNat % 4 ≠ 0 := by decide

/-- The last word of the transfer, with room in the armed sink, DEST_AD the sink and not, and the sink not armed. -/
theorem witness_WordTransfer : (transferring true 12).active = true ∧ (transferring true 12).debugErr = 0 ∧
    (transferring true 12).loaded = true ∧ (transferring true 12).pos < (transferring true 12).len.toNat ∧
    (held .idle .done).mappedRange ((transferring true 12).src.toNat + 12) 4 = true ∧
    ([0, 0, 0] : List Word).length < Config.ex.fifoDepth ∧ (transferring true 12).dst = Config.ex.pwmFifoPa ∧
    ({ transferring true 12 with dst := 0x00200000 } : Dma).dst ≠ Config.ex.pwmFifoPa ∧
    ¬(State.reset.pwm.armed = true ∧ State.reset.pwm.fifo.length < Config.ex.fifoDepth) := by decide

theorem witness_TransferEnds : ((transferring true 16).active = true ∧ (transferring true 16).debugErr = 0 ∧
      (transferring true 16).loaded = true ∧ (transferring true 16).pos = (transferring true 16).len.toNat) ∧
    (2 : BitVec 3) ≠ 0 ∧ Dma.powerOn.active = false ∧ ({ transferring true 4 with debugErr := 2 } : Dma).debugErr ≠ 0 := by
  decide

theorem witness_SinkDrains : (⟨true, [0x92B66DDB], []⟩ : Pwm).fifo = [0x92B66DDB] ∧
    (runningClk.enab = true ∧ runningClk.busy = true) ∧
    ¬(true = true ∧ State.reset.clk.enab = true ∧ State.reset.clk.busy = true) := by decide

/-- The transfer of vector T2 into an empty armed sink. -/
theorem witness_TransferCarriesBuffer : ∃ s : State, BlockInv s ∧ Held s cb buf ∧ s.dma.active = true ∧ s.dma.debugErr = 0 ∧
    s.dma.loaded = false ∧ s.dma.pos = 0 ∧ s.dma.conblkAd = s.regs.cbPa ∧ s.pwm.armed = true ∧
    s.pwm.fifo.length + buf.size / 4 ≤ s.cfg.fifoDepth :=
  ⟨((held .idle .done).setDma (transferring false 0)).setPwm ⟨true, [], []⟩, held_transfer_inv.1, held_held .idle .done, rfl, rfl,
    rfl, rfl, rfl, rfl, by decide⟩

/-- The block right after the acceptance of a RENDER, the channel without errors and with one. -/
theorem witness_RenderRunsToIdle : ∃ s t : State,
    (BlockInv s ∧ Held s cb buf ∧ s.sqr.pc = .p1 .s1 ∧ s.dma.active = false ∧
      (List.replicate 28 d0).length = (if s.dma.debugErr = 0 then 9 else 10) + s.sqr.inLen.toNat + buf.size) ∧
    BlockInv t ∧ Held t cb buf ∧ t.sqr.pc = .p1 .s1 ∧ t.dma.debugErr ≠ 0 ∧
      (List.replicate 29 d0).length = (if t.dma.debugErr = 0 then 9 else 10) + t.sqr.inLen.toNat + buf.size :=
  ⟨(held .rendering (.p1 .s1)).setDma Dma.powerOn, (held .rendering (.p1 .s1)).setDma { transferring true 4 with debugErr := 3 },
    ⟨held_inv ⟨rfl, ⟨cb, buf, held_held _ _⟩, held_input _ _⟩ (held_dma_inactive _ (by simp)), held_held _ _, rfl, rfl, rfl⟩,
    held_inv ⟨rfl, ⟨cb, buf, held_held _ _⟩, held_input _ _⟩
      ⟨(by intro h; cases h), (by intro h; cases h), (by rintro (h | h) <;> cases h)⟩,
    held_held .rendering (.p1 .s1), rfl, by decide, rfl⟩

/-- The block right after the acceptance of a CLEANUP, the channel without errors and with one. -/
theorem witness_CleanupRunsToShutdown : ∃ s t : State,
    (s.cfg.ok = true ∧ s.alloc = .pair cb buf ∧ s.engine = .shutdown ∧
      s.sqr.pc = .q1 .s1 ∧ s.dma.active = false ∧ s.clk.enab = true ∧ s.clk.busy = true ∧
      (List.replicate 7 d0).length = (if s.dma.debugErr = 0 then 7 else 8) ∧ (List.replicate 3 d0).length = 3) ∧
    t.cfg.ok = true ∧ t.alloc = .pair cb buf ∧ t.engine = .shutdown ∧
      t.sqr.pc = .q1 .s1 ∧ t.dma.debugErr ≠ 0 ∧ t.clk.enab = true ∧ t.clk.busy = true ∧
      (List.replicate 8 d0).length = (if t.dma.debugErr = 0 then 7 else 8) ∧ (List.replicate 3 d0).length = 3 :=
  ⟨(held .shutdown (.q1 .s1)).setClk runningClk,
    ((held .shutdown (.q1 .s1)).setClk runningClk).setDma { transferring true 4 with debugErr := 3 },
    ⟨by decide, rfl, rfl, rfl, rfl, rfl, rfl, rfl, rfl⟩, by decide, rfl, rfl, rfl, by decide, rfl, rfl, rfl, rfl⟩

/-- A region a reset made the block forget, and one the block holds. -/
theorem witness_ResetInput : ∃ s t : State, (cb ∈ s.live ∧ cb ∉ s.heldRegions) ∧ cb ∈ t.live ∧ cb ∈ t.heldRegions :=
  ⟨blockReset (held .idle .done), held .idle .done, by decide, by decide⟩

/-! ### Steps from a state that meets the invariant -/

/-- The idle block of `held` with a command placed: the step answers a next state, and STATE changes. -/
def placed (w : Nat) : State := ((held .idle .done).setDma Dma.powerOn).withFetchWord 32 w

theorem placed_inv (w : Nat) : Inv (placed w) := held_idle_inv

theorem witness_StepKeepsMemoryCanonical : ∃ s t : State, s.mem.wf = true ∧ step s = .next t :=
  ⟨placed 2, _, (by decide : Memory.wf inMem = true), rfl⟩

/-- A block that a reset made forget its two regions. -/
def forgetful (ts : List Turn) : State :=
  { held .uninit .done with alloc := .none, regs := HostRegs.reset, turns := ts }

theorem forgetful_inv (ts : List Turn) : Inv (forgetful ts) :=
  ⟨⟨(by decide : Config.ex.ok = true), (by decide : Memory.wf inMem = true), held_live .uninit .done,
    ⟨rfl, rfl, rfl, rfl⟩, ⟨fun _ => rfl, fun _ => rfl, (by rintro (h | h) <;> cases h)⟩, rfl⟩, (by intro h; cases h)⟩

/-- A step of HOST, and one in which the platform takes back a forgotten region that no transfer reads. -/
theorem witness_StepKeepsInvariant : ∃ s t u v : State,
    (Inv s ∧ step s = .next t ∧ ∀ r, s.nextTurn ≠ .reclaim r) ∧
    (Inv u ∧ step u = .next v ∧ u.nextTurn = .reclaim cb ∧ u.dma.active = false ∧ v.live = [buf]) :=
  ⟨placed 2, _, forgetful [.reclaim cb], _, ⟨placed_inv 2, rfl, by intro r h; cases h⟩,
    forgetful_inv _, eq_after (by decide), rfl, rfl, by decide⟩

/-- The invariant holds where a step raises a fault of the host's making. -/
theorem witness_OnlyHostFaults : ∃ s : State, Inv s ∧ step s = .fault .hostAccessWidth :=
  ⟨(((held .idle .done).setDma Dma.powerOn).setTurns [.host]).setHost [.wr 0x04 16 0], held_idle_inv, rfl⟩

/-- A host write changes a byte outside both regions, and an ENCODE step one of the render buffer. -/
theorem witness_BufferWrittenOnlyWhileStopped : ∃ s t u v : State,
    (BlockInv s ∧ Held s cb buf ∧ step s = .next t ∧ memRead t.mem 0x00200000 ≠ memRead s.mem 0x00200000) ∧
    (BlockInv u ∧ Held u cb buf ∧ step u = .next v ∧ memRead v.mem 0x00100040 ≠ memRead u.mem 0x00100040) :=
  ⟨(((held .idle .done).setDma Dma.powerOn).setTurns [.host]).setHost [.memw 0x00200000 0xFF], _,
    ((held .rendering (.p2 (.write 0x12))).setDma Dma.powerOn).setTurns [.seq d0], _,
    ⟨held_idle_inv.1, held_held .idle .done, rfl, by decide⟩,
    held_inv ⟨rfl, ⟨cb, buf, held_held _ _⟩, held_input _ _, (by decide : 0 < (3 : Word).toNat * Config.ex.k)⟩
      (held_dma_inactive _ (by simp)), held_held .rendering (.p2 (.write 0x12)), rfl, by decide⟩

/-- RENDER and CLEANUP change STATE from IDLE. -/
theorem witness_StateTransitions : (∃ t, BlockInv (placed 2) ∧ step (placed 2) = .next t ∧ t.engine ≠ (placed 2).engine) ∧
    ∃ t, BlockInv (placed 3) ∧ step (placed 3) = .next t ∧ t.engine ≠ (placed 3).engine :=
  ⟨⟨_, (placed_inv 2).1, rfl, by decide⟩, _, (placed_inv 3).1, rfl, by decide⟩

theorem witness_ParametersFixed : ∃ t, step (placed 2) = .next t := ⟨_, rfl⟩

/-- A state that holds a pair, CAPACITY among its registers, and one that holds none. -/
theorem witness_RegistersFollowAllocation : ∃ s t : State,
    (BlockInv s ∧ s.sqr.pc ≠ .q4 ∧ s.engine = .idle ∧ s.alloc = .pair cb buf) ∧
    BlockInv t ∧ t.sqr.pc ≠ .q4 ∧ t.engine = .shutdown ∧ ∀ c b, t.alloc ≠ .pair c b := by
  refine ⟨_, { held .shutdown .done with alloc := .none, regs := HostRegs.reset },
    ⟨held_idle_inv.1, by simp [held, State.setDma], rfl, rfl⟩, ?_, by simp [held], rfl, by simp⟩
  exact ⟨(by decide : Config.ex.ok = true), (by decide : Memory.wf inMem = true), held_live .shutdown .done,
    ⟨rfl, rfl, rfl, rfl⟩, ⟨fun _ => rfl, fun _ => rfl, (by rintro (h | h) <;> cases h)⟩, rfl⟩

/-- A SEQ turn of INIT, and the stop that takes the snapshot of D5. -/
theorem witness_InitLeavesChannelStopTakesSnapshot : ∃ s t u v : State,
    (step s = .next t ∧ s.nextTurn = .seq d0 ∧ s.sqr.pc.cmd = .init) ∧
    (step u = .next v ∧ v.regs.debugSnap ≠ u.regs.debugSnap) :=
  ⟨(fresh .i1).setTurns [.seq d0], _,
    ((held .rendering (.p1 .s2)).setDma { Dma.powerOn with debugErr := 3 }).setTurns [.seq d0], _,
    ⟨rfl, rfl, rfl⟩, rfl, by decide⟩

end Sys2Proof.Machine.Tests
end

/-!
PROOFS. The scope of the model (spec/00_scope.md): no step changes a parameter (R9), and a step is refused as
badParameters exactly for the parameter sets no model is built for (R10).
-/

namespace Sys2Proof

/-! ## Parameters -/

/-- Every check on a parameter set (R9, R10, R112), the one on its layouts by name. -/
theorem Params.ok_iff (p : Params) : p.ok = true ↔
    (p.k = 3 ∨ p.k = 4) ∧ 1 ≤ p.aLow ∧ p.aLow < p.aHigh ∧ p.aHigh ≤ p.k - 1 ∧
      1 ≤ p.c ∧ p.maxBufBytes % 4 = 0 ∧ p.pwmFifoPa.toNat % 4 = 0 ∧
      4 ≤ p.maxBufBytes ∧ 1 ≤ p.fifoDepth ∧ p.clkDivisor ≠ 0 ∧ p.layoutOk = true := by
  simp only [Params.ok, Params.constraintsOk, Params.boundsOk, Bool.and_eq_true, Bool.or_eq_true, beq_iff_eq,
    bne_iff_ne, decide_eq_true_eq, and_assoc]

namespace Machine

/-- R9: what a step leaves of the parameters. -/
theorem step_cfg {s t : State} (h : step s = .next t) : t.cfg = s.cfg :=
  calc t.cfg = s.dropTurn.cfg := (takeTurn_frame (step_next h).2).1
    _ = s.cfg := (State.dropTurn_frame s).1

/-- Settles O58: a turn keeps the parameters, and so does using it up. -/
theorem parametersFixed : Obligations.ParametersFixed := fun _ _ => step_cfg

/-! ## Turns that are never refused -/

section
variable {s : State} {r : Refusal}

theorem thenPc_ne_refused {x : Result} {pc : Pc} (h : x ≠ .refused r) : thenPc x pc ≠ .refused r := by
  cases x with
  | next u => simp [thenPc]
  | fault f => simp [thenPc]
  | refused q => simpa [thenPc] using h

theorem csWrite_ne_refused (v draw : Word) : csWrite v draw s ≠ .refused r := by
  simp only [csWrite, activate]
  split_ifs <;> simp

theorem conblkWrite_ne_refused (v : Word) : conblkWrite v s ≠ .refused r := by
  simp only [conblkWrite]
  split_ifs <;> simp

theorem stopStep_ne_refused (t : StopPc) (label : StopPc → Pc) (exit : State → State) (d : Draw) :
    stopStep t label exit d s ≠ .refused r := by
  cases t with
  | s1 => simp only [stopStep]; split_ifs <;> simp
  | s2 => simp [stopStep]
  | s3 => exact thenPc_ne_refused (csWrite_ne_refused _ _)
  | s4 => simp [stopStep]
  | s5 => exact thenPc_ne_refused (csWrite_ne_refused _ _)
  | s6 => simp [stopStep]

theorem startStep_ne_refused (t : StartPc) (label : StartPc → Pc) (exit : Pc) (d : Draw) :
    startStep t label exit d s ≠ .refused r := by
  cases t with
  | t1 => exact thenPc_ne_refused (conblkWrite_ne_refused _)
  | t2 => exact thenPc_ne_refused (csWrite_ne_refused _ _)
  | t3 => exact thenPc_ne_refused (csWrite_ne_refused _ _)

theorem gpioStep_ne_refused (g : GpioPc) (label : GpioPc → Pc) (exit : Pc) :
    gpioStep g label exit s ≠ .refused r := by
  rcases gpioStep_cases g label exit s with e | ⟨x, pc, e, _⟩ <;> simp [e]

theorem encodeStore_ne_refused (x b : Byte) : encodeStore x b s ≠ .refused r := by
  simp only [encodeStore]
  split <;> simp

theorem encodeStep_ne_refused (e : EncodePc) : encodeStep e s ≠ .refused r := by
  cases e with
  | read => simp only [encodeStep, encodeRead]; split_ifs <;> simp
  | write x => exact encodeStore_ne_refused _ _
  | zero => exact encodeStore_ne_refused _ _

/-- No SEQ turn is refused: every label of INIT, RENDER and CLEANUP has a meaning. -/
theorem seqStep_ne_refused (d : Draw) : seqStep d s ≠ .refused r := by
  simp only [seqStep]
  cases s.sqr.pc with
  | i1 => simp only [initAllocCb]; split <;> simp
  | i2 cb i => simp only [initZeroCb]; split <;> simp
  | i3 cb => simp only [initCheckLen]; split_ifs <;> simp
  | i4 cb => simp only [initAllocBuf]; split <;> simp
  | i5 cb buf i => simp only [initFillCb]; split <;> simp
  | i8 cb buf g => exact gpioStep_ne_refused _ _ _
  | p1 t => exact stopStep_ne_refused _ _ _ _
  | p2 e => exact encodeStep_ne_refused _
  | p3 t => exact startStep_ne_refused _ _ _ _
  | q1 t => exact stopStep_ne_refused _ _ _ _
  | done | i6 | i7 | i9 | iF | p4 | q2 | q3 | q4 => intro h; cases h

/-- No command's acceptance is refused. -/
theorem exec_ne_refused (i : Instr) : exec i s ≠ .refused r := by
  cases i with
  | nop => simp only [exec, execNop, discardCommand]; split_ifs <;> simp
  | init => simp only [exec, execInit, discardCommand]; split_ifs <;> simp
  | render => simp only [exec, execRender, discardCommand]; split_ifs <;> simp
  | cleanup =>
    simp only [exec, execCleanup, discardCommand]
    split_ifs
    · simp
    · cases s.engine <;> simp

theorem windowWrite_ne_refused (off : BitVec 6) (v : Word) : windowWrite off v s ≠ .refused r := by
  have hsubmit : submit v s ≠ .refused r := by
    unfold submit
    split
    · exact exec_ne_refused _
    · simp [discardCommand]
    · simp [discardCommand]
  simp only [windowWrite]
  split_ifs
  · exact hsubmit
  all_goals simp

/-- No HOST turn is refused. -/
theorem hostStep_ne_refused : hostStep s ≠ .refused r := by
  unfold hostStep
  split
  · simp
  · rename_i st rest _
    cases st <;> simp only [hostStmt] <;> split_ifs <;> simp [windowWrite_ne_refused]

/-- The DMA agent is refused for the control blocks the model gives no meaning alone (R182, log entry 13). -/
theorem dmaStep_refused (h : dmaStep s = .refused r) : r = .dmaTiUnmodelled ∨ r = .dmaDestUnmodelled := by
  simp only [dmaStep, dmaFetch, dmaTransfer] at h
  split_ifs at h <;> cases h <;> simp

/-- All a refused turn can be: one of the DMA agent, for a control block without a meaning. -/
theorem takeTurn_refused {u : Turn} (h : takeTurn u s = .refused r) :
    u = .dma ∧ (r = .dmaTiUnmodelled ∨ r = .dmaDestUnmodelled) := by
  cases u with
  | host => exact absurd h hostStep_ne_refused
  | seq d => exact absurd h (seqStep_ne_refused d)
  | dma => exact ⟨rfl, dmaStep_refused h⟩
  | dmaError | sink | env | blockReset | reclaim => cases h

end

/-- R10: the one cause of the refusal badParameters is a parameter set no model is built for. -/
theorem step_badParameters_iff (s : State) : step s = .refused .badParameters ↔ ¬ s.cfg.ok = true := by
  simp only [step, stepTurn]
  split_ifs with hok
  · refine iff_of_false (fun h => ?_) (not_not_intro hok)
    obtain ⟨_, hr | hr⟩ := takeTurn_refused h <;> cases hr
  · exact iff_of_true rfl hok

/-- Settles O6: a good set takes its turn, and no turn answers badParameters; the checks are those listed. -/
theorem badParametersRefused : Obligations.BadParametersRefused := fun s =>
  (step_badParameters_iff s).trans (not_congr (Params.ok_iff s.cfg))

end Machine

end Sys2Proof

/-!
PROOFS. The host's register window (R21 to R40): the words its reads return and what its writes change, and the block's state
after reset (R49).
-/

namespace Sys2Proof.Machine

/-! ## Words made of fields -/

/-- A field above the bits of `lo` adds its value, shifted. -/
theorem or_shiftLeft_toNat {lo : Word} {a w : Nat} (n : Nat) (x : BitVec w) (hlo : lo.toNat = a) (ha : a < 2 ^ n)
    (hw : n + w ≤ 32) : (lo ||| (x.zeroExtend 32 <<< n)).toNat = a + 2 ^ n * x.toNat := by
  have hx : x.toNat * 2 ^ n < 2 ^ 32 :=
    calc x.toNat * 2 ^ n < 2 ^ w * 2 ^ n := Nat.mul_lt_mul_of_pos_right x.isLt (by positivity)
      _ = 2 ^ (n + w) := by rw [Nat.add_comm, Nat.pow_add]
      _ ≤ 2 ^ 32 := Nat.pow_le_pow_right (by omega) hw
  have hx' : x.toNat < 2 ^ 32 := lt_of_le_of_lt (Nat.le_mul_of_pos_right _ (by positivity)) hx
  rw [BitVec.toNat_or, BitVec.toNat_shiftLeft, BitVec.toNat_setWidth, Nat.mod_eq_of_lt hx', Nat.shiftLeft_eq,
    Nat.mod_eq_of_lt hx, hlo, Nat.or_comm, ← Nat.shiftLeft_eq, ← Nat.shiftLeft_add_eq_or_of_lt ha, Nat.shiftLeft_eq,
    Nat.add_comm, Nat.mul_comm]

/-- One bit is a field of width 1. -/
theorem boolWord_eq (b : Bool) : boolWord b = (BitVec.ofBool b).zeroExtend 32 := by cases b <;> rfl

/-- A bit above the bits of `lo` adds its value, shifted. -/
theorem or_boolWord_toNat {lo : Word} {a : Nat} (n : Nat) (b : Bool) (hlo : lo.toNat = a) (ha : a < 2 ^ n)
    (hn : n + 1 ≤ 32) : (lo ||| (boolWord b <<< n)).toNat = a + 2 ^ n * b.toNat := by
  rw [boolWord_eq, or_shiftLeft_toNat n _ hlo ha hn, BitVec.toNat_ofBool]

/-! ## Reads -/

/-- STATUS as one number, its fields at their places (R24). -/
theorem State.statusWord_toNat (s : State) : s.statusWord.toNat = (s.engine.code.zeroExtend 32).toNat
    + 4 * s.busy.toNat + 8 * s.regs.reject.toNat + 16 * s.regs.allocFail.toNat
    + 32 * s.regs.dmaErr.toNat + 64 * s.regs.cmdErr.toNat + 256 * s.regs.errCode.toNat := by
  have he : (s.engine.code.zeroExtend 32).toNat < 4 := by cases s.engine <;> decide
  have hb (b : Bool) : b.toNat ≤ 1 := b.toNat_le
  have h2 := hb s.busy
  have h3 := hb s.regs.reject
  have h4 := hb s.regs.allocFail
  have h5 := hb s.regs.dmaErr
  have h6 := hb s.regs.cmdErr
  have w2 := or_boolWord_toNat 2 s.busy (lo := s.engine.code.zeroExtend 32) rfl (by omega) (by omega)
  have w3 := or_boolWord_toNat 3 s.regs.reject w2 (by omega) (by omega)
  have w4 := or_boolWord_toNat 4 s.regs.allocFail w3 (by omega) (by omega)
  have w5 := or_boolWord_toNat 5 s.regs.dmaErr w4 (by omega) (by omega)
  have w6 := or_boolWord_toNat 6 s.regs.cmdErr w5 (by omega) (by omega)
  exact or_shiftLeft_toNat 8 s.regs.errCode w6 (by omega) (by omega)

/-- Settles O9: no two fields of STATUS share a bit. -/
theorem statusWordFields : Obligations.StatusWordFields := by
  intro s
  have hbusy : s.busy.toNat = if s.sqr.pc = .done then 0 else 1 := by
    by_cases h : s.sqr.pc = .done <;> simp [State.busy, h]
  refine s.statusWord_toNat.trans ?_
  rw [hbusy]
  cases s.engine <;> rfl

/-- PARAMS as one number, each parameter cut to its four bits (R39). -/
theorem paramsWord_toNat (p : Params) : (paramsWord p).toNat =
    p.k % 16 + 16 * (p.aHigh % 16) + 256 * (p.aLow % 16) + 4096 * ((if p.c ≤ 15 then p.c else 0) % 16) := by
  have field (n : Nat) : (BitVec.ofNat 4 n).toNat = n % 16 := BitVec.toNat_ofNat n 4
  have w0 : ((BitVec.ofNat 4 p.k).zeroExtend 32).toNat = p.k % 16 := by
    rw [BitVec.toNat_setWidth, field]; omega
  have w1 := or_shiftLeft_toNat 4 (BitVec.ofNat 4 p.aHigh) w0 (by omega) (by omega)
  rw [field] at w1
  have w2 := or_shiftLeft_toNat 8 (BitVec.ofNat 4 p.aLow) w1 (by omega) (by omega)
  rw [field] at w2
  have w3 := or_shiftLeft_toNat 12 (BitVec.ofNat 4 (if p.c ≤ 15 then p.c else 0)) w2 (by omega) (by omega)
  rwa [field] at w3

/-- Settles O11: good parameters fit the fields of PARAMS, and no write reaches either register. -/
theorem parameterRegisters : Obligations.ParameterRegisters := by
  intro s hok
  obtain ⟨hk, hlow, hlh, hhigh, -⟩ := Params.ok_constraints hok
  refine ⟨?_, BitVec.toNat_ofNat _ _, fun v => ⟨rfl, rfl⟩⟩
  show (paramsWord s.cfg).toNat = _
  rw [paramsWord_toNat, Nat.mod_eq_of_lt (by omega : s.cfg.k < 16), Nat.mod_eq_of_lt (by omega : s.cfg.aHigh < 16),
    Nat.mod_eq_of_lt (by omega : s.cfg.aLow < 16), Nat.mod_eq_of_lt (by split_ifs <;> omega)]

/-- Settles O10: each offset reads its register, and the reserved ones 0. -/
theorem windowReads : Obligations.WindowReads := by
  intro s
  have hgpio : (s.windowRead 0x0C).toNat = s.regs.gpioSel.toNat :=
    BitVec.toNat_setWidth_of_le (by decide) (b := s.regs.gpioSel)
  exact ⟨rfl, rfl, hgpio, rfl, rfl, rfl, rfl, rfl, rfl, rfl, rfl, rfl, rfl⟩

/-! ## Writes -/

/-- Settles O8: a bit of STATUS stays set where its bit of the word is not. -/
theorem statusWriteClears : Obligations.StatusWriteClears := by
  intro s w
  have clear (b c : Bool) : (b && !c) = if c then false else b := by cases c <;> simp
  show Host.Outcome.next (statusWrite w s) = _
  simp only [statusWrite, clear]
  rfl

/-- From 0x18 on the window holds no register a write changes (R22). -/
theorem windowWrite_readOnly {off : BitVec 6} (h : 0x18 ≤ off.toNat) (v : Word) (s : State) :
    windowWrite off v s = .next s := by
  have hne (x : BitVec 6) (hx : x.toNat < 0x18) : off ≠ x := fun e => by rw [e] at h; omega
  rw [windowWrite, if_neg (hne _ (by decide)), if_neg (hne _ (by decide)), if_neg (hne _ (by decide)),
    if_neg (hne _ (by decide)), if_neg (hne _ (by decide)), if_neg (hne _ (by decide))]

/-- Settles O12: the write of each operand register, and those from 0x18 on, with the access used up. -/
theorem windowWrites : Obligations.WindowWrites := by
  intro s rest v
  have hlow : v.extractLsb' 0 16 = BitVec.ofNat 16 v.toNat := by
    apply BitVec.eq_of_toNat_eq
    rw [BitVec.extractLsb'_toNat, Nat.shiftRight_zero, BitVec.toNat_ofNat]
  refine ⟨rfl, ?_, rfl, rfl, fun off halign h18 => ?_⟩
  · rw [← hlow]; rfl
  · have hok : windowAccessOk off 32 = true := by simp [windowAccessOk, halign]
    rw [hostStmt, if_pos hok, windowWrite_readOnly h18]
    rfl

/-! ## Reset -/

/-- Settles O50: after reset every register but the two hardwired ones reads 0. -/
theorem resetState : Obligations.ResetState := by
  refine ⟨rfl, rfl, rfl, rfl, rfl, fun off hparams hpad => ?_, rfl, rfl⟩
  unfold State.windowRead
  rw [if_neg hparams, if_neg hpad]
  split_ifs <;> rfl

end Sys2Proof.Machine

/-!
PROOFS. The block's invariant (R34 to R44, R79, R162, R194): every turn keeps `BlockInv`, agent by agent and, for SEQ, label by
label; every turn but a reclaim of what an active transfer reads keeps that transfer sound.
-/

namespace Sys2Proof.Machine

section

variable {s t : State} {cb buf : Region}

/-! ## The parts of the invariant, by name -/

theorem BlockInv.paramsOk (h : BlockInv s) : s.cfg.ok = true := h.1
theorem BlockInv.memWf (h : BlockInv s) : s.mem.wf = true := h.2.1
theorem BlockInv.liveOk (h : BlockInv s) : LiveOk s := h.2.2.1
theorem BlockInv.blockOk (h : BlockInv s) : BlockOk s := h.2.2.2.1
theorem BlockInv.dmaOk (h : BlockInv s) : DmaOk s := h.2.2.2.2.1
theorem BlockInv.capacityOk (h : BlockInv s) : CapacityOk s := h.2.2.2.2.2

theorem BuildingBoth.building (h : BuildingBoth s cb buf) : Building s (.cbOnly cb) := h.1
theorem BuildingBoth.cbRegion (h : BuildingBoth s cb buf) : CbRegion s cb := h.2.1
theorem BuildingBoth.bufRegion (h : BuildingBoth s cb buf) : BufRegion s buf := h.2.2.1

theorem Held.cbRegion (h : Held s cb buf) : CbRegion s cb := h.2.2.1
theorem Held.bufRegion (h : Held s cb buf) : BufRegion s buf := h.2.2.2.1

/-- The count a running INIT latched is not 0, so neither is its buffer's length (R216, R136). -/
theorem Building.initLen_pos {a : AllocState} (h : Building s a) (hok : s.cfg.ok = true) : 0 < s.initLen := by
  obtain ⟨-, -, -, hcount⟩ := h
  exact bufLen_pos hok fun h0 => hcount (BitVec.eq_of_toNat_eq h0)

/-! ## The parts of the invariant at a label -/

/-- Writing the label that stands there changes nothing. -/
theorem State.setPc_self {pc : Pc} (h : s.sqr.pc = pc) : s.setPc pc = s := by subst h; rfl

/-- What `BlockOk` says at a known label, where its match on the label can be carried out. -/
theorem BlockOk.atLabel {pc : Pc} (h : BlockOk s) (hp : s.sqr.pc = pc) : BlockOk (s.setPc pc) := by
  rwa [State.setPc_self hp]

/-- What `BlockOk` says at `done` in a known STATE. -/
theorem BlockOk.atDone {e : EngineState} (h : BlockOk s) (hp : s.sqr.pc = .done) (he : s.engine = e) :
    BlockOk ((s.setPc .done).setEngine e) := by
  subst he; exact h.atLabel hp

/-- While BUSY is 0 the label is `done` (R26). -/
theorem State.pc_of_not_busy (h : s.busy = false) : s.sqr.pc = .done := by simpa [State.busy] using h

/-- Between DMA_STOP and the activation the channel is stopped (R194). -/
theorem Pc.channelStopped_of_clear : ∀ pc : Pc, pc.channelClear = true → pc.channelStopped = true
  | .p2 _, _ => rfl
  | .p3 _, _ => rfl

/-- At a label where the channel may be active, `DmaOk` asks nothing of it. -/
theorem DmaOk.of_not_stopped (h : s.sqr.pc.channelStopped = false) : DmaOk s := by
  refine ⟨fun hs => ?_, fun hc => ?_, ?_⟩
  · rw [h] at hs; cases hs
  · rw [Pc.channelStopped_of_clear _ hc] at h; cases h
  · rintro (hp | hp) <;> rw [hp] at h <;> cases h

/-- A stopped channel, without errors from the end of DMA_STOP on, is sound up to DMA_START's first write. -/
theorem DmaOk.of_inactive (ha : s.dma.active = false) (he : s.sqr.pc.channelClear = true → s.dma.error = false)
    (h2 : s.sqr.pc ≠ .p3 .t2) (h3 : s.sqr.pc ≠ .p3 .t3) : DmaOk s :=
  ⟨fun _ => ha, he, fun h => (h.elim h2 h3).elim⟩

/-- While the channel is active SEQ is at no label where it knows the channel to be stopped. -/
theorem DmaOk.not_stopped (h : DmaOk s) (ha : s.dma.active = true) : s.sqr.pc.channelStopped = false := by
  by_contra hs
  rw [h.1 (by simpa using hs)] at ha
  cases ha

/-- A block without an allocation rests in UNINIT or SHUTDOWN. -/
theorem BlockOk.of_unallocated (hp : s.sqr.pc = .done) (he : s.engine = .uninit ∨ s.engine = .shutdown)
    (h : Unallocated s) : BlockOk s := by
  unfold BlockOk
  rw [hp]
  rcases he with he | he <;> simpa only [he] using h

/-- R38 outside IDLE and RENDERING: a CAPACITY of 0 is right. -/
theorem CapacityOk.of_zero (he : s.engine = .uninit ∨ s.engine = .shutdown) (h : s.regs.capacity = 0) : CapacityOk s := by
  rcases he with he | he <;> simp [CapacityOk, he, h]

/-- R38 read the other way, outside IDLE and RENDERING. -/
theorem CapacityOk.eq_zero (h : CapacityOk s) (he : s.engine = .uninit ∨ s.engine = .shutdown) : s.regs.capacity = 0 := by
  rcases he with he | he <;> simpa [CapacityOk, he] using h

/-- R38 in IDLE and RENDERING. -/
theorem CapacityOk.eq_cap (h : CapacityOk s) (he : s.engine = .idle ∨ s.engine = .rendering) :
    s.regs.capacity = BitVec.ofNat 32 (cap s.cfg s.sqr.p.toNat) := by
  rwa [CapacityOk, if_pos he] at h

/-- A released region leaves the live ones sound. -/
theorem LiveOk.erase (h : LiveOk s) (r : Region) : LiveOk (s.setLive (s.live.erase r)) :=
  ⟨fun x hx => h.1 x (List.mem_of_mem_erase hx), h.2.sublist List.erase_sublist⟩

/-- A control block's word read after a word written to it: two of its words share no byte. -/
theorem memRead32_memWrite32_cbWord {m : Memory} (hw : m.wf = true) {a i : Nat} (ha : a + 4 * i + 4 ≤ Config.paSpace)
    (v : Word) (n : Nat) :
    memRead32 (memWrite32 m (a + 4 * i) v) (a + 4 * n) = if n = i then v else memRead32 m (a + 4 * n) := by
  split_ifs with h
  · rw [h, memRead32_memWrite32_same hw ha]
  · exact memRead32_memWrite32_ne hw ha v (by omega)

/-! ## States that agree on the block -/

/-- The zeroed words of a control block whose bytes are kept. -/
theorem MemSame.words_zero (hm : MemSame s t cb) (hs : 32 ≤ cb.size) {n : Nat} (hn : n ≤ 8)
    (hz : ∀ i, i < n → memRead32 s.mem (cb.base + 4 * i) = 0) : ∀ i, i < n → memRead32 t.mem (cb.base + 4 * i) = 0 :=
  fun i hi => (hm.word hs (by omega)).trans (hz i hi)

/-- The encoder's position goes on fitting its label. -/
theorem SameBlock.encodeOk (h : SameBlock s t) (hq : t.sqr = s.sqr) {e : EncodePc} (he : EncodeOk s e) : EncodeOk t e := by
  cases e with
  | read | write _ => simp only [EncodeOk] at *; rw [hq, h.cfg]; exact he
  | zero => simp only [EncodeOk] at *; rw [hq, h.held.1]; exact he

/-- The block goes on agreeing with its registers and its allocation where the bytes of the live regions are kept. -/
theorem BlockOk.of_same (hok : s.cfg.ok = true) (hb : SameBlock s t) (he : t.engine = s.engine) (hq : t.sqr = s.sqr)
    (hm : ∀ r ∈ s.live, MemSame s t r) (h : BlockOk s) : BlockOk t := by
  have unallocated : Unallocated s → Unallocated t := fun hu => ⟨hb.alloc.trans hu.1, hb.regsEmpty hu.2⟩
  have held : (∃ cb buf, Held s cb buf) → ∃ cb buf, Held t cb buf := fun ⟨cb, buf, hh⟩ =>
    ⟨cb, buf, hb.held_pair hok (hm cb hh.cbRegion.1) hh⟩
  have input : InputOk s → InputOk t := hb.inputOk (by rw [hq]) (by rw [hq])
  have words : ∀ {cb n}, n ≤ 8 → CbRegion s cb → (∀ i, i < n → memRead32 s.mem (cb.base + 4 * i) = 0) →
      ∀ i, i < n → memRead32 t.mem (cb.base + 4 * i) = 0 :=
    fun hn hc hz => (hm _ hc.1).words_zero (hc.size_ge hok) hn hz
  have filled : ∀ {cb buf n}, n ≤ 4 → BuildingBoth s cb buf → CbFilled s cb buf n → CbFilled t cb buf n :=
    fun hn hbb hf => hb.cbFilled (hm _ hbb.cbRegion.1) (hbb.cbRegion.size_ge hok) hn hf
  unfold BlockOk at h ⊢
  rw [hq]
  cases hp : s.sqr.pc <;> simp only [hp] at h ⊢
  case done =>
    rw [he]
    cases hen : s.engine <;> simp only [hen] at h ⊢
    case uninit | shutdown => exact unallocated h
    case idle => exact held h
  case i1 | iF => exact hb.building he h
  case i2 =>
    obtain ⟨hbuild, hc, hi, hz⟩ := h
    exact ⟨hb.building he hbuild, hb.cbRegion hc, hi, words (by omega) hc hz⟩
  case i3 =>
    obtain ⟨hbuild, hc, hz⟩ := h
    exact ⟨hb.building he hbuild, hb.cbRegion hc, words (le_refl 8) hc hz⟩
  case i4 =>
    obtain ⟨hbuild, hc, hmax, hz⟩ := h
    exact ⟨hb.building he hbuild, hb.cbRegion hc, by rw [hb.cfg]; exact hmax, words (le_refl 8) hc hz⟩
  case i5 =>
    obtain ⟨hbuild, hi, hf⟩ := h
    exact ⟨hb.buildingBoth he hbuild, hi, filled (by omega) hbuild hf⟩
  case i6 | i7 | i8 | i9 => exact ⟨hb.buildingBoth he h.1, filled (le_refl 4) h.1 h.2⟩
  case p1 =>
    obtain ⟨hengine, hh, hi⟩ := h
    exact ⟨he.trans hengine, held hh, input hi⟩
  case p2 =>
    obtain ⟨hengine, hh, hi, hj⟩ := h
    exact ⟨he.trans hengine, held hh, input hi, hb.encodeOk hq hj⟩
  case p3 | p4 | q1 | q2 | q3 => exact ⟨he.trans h.1, held h.2⟩
  case q4 => exact he.trans h

/-- A held pair stays held while both its regions are live. -/
theorem Held.setLive (h : Held s cb buf) {l : List Region} (hcb : cb ∈ l) (hbuf : buf ∈ l) : Held (s.setLive l) cb buf := by
  obtain ⟨ha, hr, ⟨-, hc⟩, ⟨-, hb⟩, hrest⟩ := h
  exact ⟨ha, hr, ⟨hcb, hc⟩, ⟨hbuf, hb⟩, hrest⟩

/-- Nothing the block holds changes where live regions it does not hold come or go. -/
theorem BlockOk.setLive (h : BlockOk s) {l : List Region} (hl : ∀ r ∈ s.live, r ∈ s.heldRegions → r ∈ l) :
    BlockOk (s.setLive l) := by
  have held : (∃ cb buf, Held s cb buf) → ∃ cb buf, Held (s.setLive l) cb buf := fun ⟨cb, buf, hh⟩ => by
    have hheld : ∀ r ∈ [cb, buf], r ∈ s.heldRegions := fun r hr => List.mem_append_left _ (by rw [hh.1]; exact hr)
    exact ⟨cb, buf, hh.setLive (hl _ hh.cbRegion.1 (hheld _ (by simp))) (hl _ hh.bufRegion.1 (hheld _ (by simp)))⟩
  have region : ∀ {cb}, cb ∈ s.sqr.pc.initRegions → CbRegion s cb → CbRegion (s.setLive l) cb := fun hi hc =>
    ⟨hl _ hc.1 (List.mem_append_right _ hi), hc.2⟩
  have both : ∀ {cb buf}, s.sqr.pc.initRegions = [cb, buf] → BuildingBoth s cb buf → BuildingBoth (s.setLive l) cb buf :=
    fun hi ⟨hbuild, hc, ⟨hbuf, hshape⟩, hne⟩ =>
      ⟨hbuild, region (by simp [hi]) hc, ⟨hl _ hbuf (List.mem_append_right _ (by simp [hi])), hshape⟩, hne⟩
  unfold BlockOk at h ⊢
  rw [State.setLive_sqr, State.setLive_engine]
  cases hp : s.sqr.pc <;> simp only [hp, Pc.initRegions] at h region both ⊢
  case done =>
    cases hen : s.engine <;> simp only [hen] at h ⊢
    case uninit | shutdown => exact h
    case idle => exact held h
  case i1 | iF | q4 => exact h
  case i2 | i3 | i4 => exact ⟨h.1, region (List.mem_singleton_self _) h.2.1, h.2.2⟩
  case i5 | i6 | i7 | i8 | i9 => exact ⟨both rfl h.1, h.2⟩
  case p1 | p2 => exact ⟨h.1, held h.2.1, h.2.2⟩
  case p3 | p4 | q1 | q2 | q3 => exact ⟨h.1, held h.2⟩

/-- The channel is as the sequence says it is where the channel, the sequencer and CB_PA are the same. -/
theorem DmaOk.of_same (h : DmaOk s) (hd : t.dma = s.dma) (hq : t.sqr = s.sqr) (hr : t.regs.cbPa = s.regs.cbPa) : DmaOk t := by
  unfold DmaOk at *
  rw [hd, hq, hr]; exact h

/-- The invariant is kept where memory stays canonical, the bytes of the live regions are kept, and the block and the channel
are the same. -/
theorem BlockInv.of_same (h : BlockInv s) (hb : SameBlock s t) (he : t.engine = s.engine) (hq : t.sqr = s.sqr)
    (hd : t.dma = s.dma) (hw : t.mem.wf = true) (hm : ∀ r ∈ s.live, MemSame s t r) : BlockInv t := by
  obtain ⟨hok, -, hlive, hblock, hdma, hcap⟩ := h
  obtain ⟨-, -, hcbPa, hcapacity, -⟩ := hb.held
  exact ⟨by rw [hb.cfg]; exact hok, hw, hlive.of_same hb.cfg hb.live, hblock.of_same hok hb he hq hm,
    hdma.of_same hd hq hcbPa, hcap.of_same hcapacity he hb.cfg (by rw [hq])⟩

/-! ## INIT (R217 to R222) -/

/-- I1: the control block's region is live and of the size asked for, or INIT fails. -/
theorem initAllocCb_blockInv {d : Draw} (h : BlockInv s) (hp : s.sqr.pc = .i1) (hs : initAllocCb d s = .next t) :
    BlockInv t := by
  obtain ⟨hok, hwf, hlive, hblock, -, hcap⟩ := h
  have hb : Building s .none := hblock.atLabel hp
  rcases initAllocCb_next hs with rfl | ⟨cb, -, hsize, halloc, rfl⟩
  · exact ⟨hok, hwf, hlive, hb, .of_not_stopped rfl, hcap⟩
  · have h32 := (Params.ok_sizes hok).1
    have halign := ((State.allocatable_iff _ _ _).1 halloc).1
    obtain ⟨hlive', hwf', -⟩ := hlive.allocate hwf halloc (by omega) (by rw [hsize]; exact List.length_take_le _ _)
      ((s.setLive (cb :: s.live)).setMem (memWriteList s.mem cb.base (d.fill.take s.cfg.cbBytes))) rfl rfl rfl
    obtain ⟨hengine, -, hregs, hcount⟩ := hb
    exact ⟨hok, hwf', hlive', ⟨⟨hengine, rfl, hregs, hcount⟩, ⟨List.mem_cons_self, hsize, halign⟩, by omega, nofun⟩,
      .of_not_stopped rfl, hcap⟩

/-- I2: one word more of the control block is zero. -/
theorem initZeroCb_blockInv {i : Nat} (h : BlockInv s) (hp : s.sqr.pc = .i2 cb i) (hs : initZeroCb cb i s = .next t) :
    BlockInv t := by
  obtain ⟨hok, hwf, hlive, hblock, -, hcap⟩ := h
  obtain ⟨hb, hc, -, hzero⟩ : Building s (.cbOnly cb) ∧ CbRegion s cb ∧ i < 8 ∧
    ∀ n, n < i → memRead32 s.mem (cb.base + 4 * n) = 0 := hblock.atLabel hp
  obtain ⟨hmap, rfl⟩ := initZeroCb_next hs
  have hend := State.mappedRange_le hmap (by omega)
  have hzero' : ∀ n, n < i + 1 → memRead32 (memWrite32 s.mem (cb.base + 4 * i) 0) (cb.base + 4 * n) = 0 := by
    intro n hn
    rw [memRead32_memWrite32_cbWord hwf hend]
    split_ifs with hni
    · rfl
    · exact hzero n (by omega)
  have hwf' := memWrite32_wf hwf hend 0
  split_ifs with hi
  · exact ⟨hok, hwf', hlive, ⟨hb, hc, hi, hzero'⟩, .of_not_stopped rfl, hcap⟩
  · exact ⟨hok, hwf', hlive, ⟨hb, hc, fun n hn => hzero' n (by omega)⟩, .of_not_stopped rfl, hcap⟩

/-- The exit of I3 and I4 that gives the control block back. -/
theorem initUnwind_blockInv (h : BlockInv s) (hb : Building s (.cbOnly cb)) : BlockInv (initUnwind cb s) := by
  obtain ⟨hok, hwf, hlive, -, -, hcap⟩ := h
  obtain ⟨hengine, -, hregs, hcount⟩ := hb
  exact ⟨hok, hwf, hlive.erase cb, ⟨hengine, rfl, hregs, hcount⟩, .of_not_stopped rfl, hcap⟩

/-- I3: the buffer fits its bound, or INIT fails. -/
theorem initCheckLen_blockInv (h : BlockInv s) (hp : s.sqr.pc = .i3 cb) (hs : initCheckLen cb s = .next t) : BlockInv t := by
  obtain ⟨hb, hc, hzero⟩ : Building s (.cbOnly cb) ∧ CbRegion s cb ∧
    ∀ n, n < 8 → memRead32 s.mem (cb.base + 4 * n) = 0 := h.blockOk.atLabel hp
  unfold initCheckLen at hs
  split_ifs at hs with hlen <;> cases hs
  · exact initUnwind_blockInv h hb
  · obtain ⟨hok, hwf, hlive, -, -, hcap⟩ := h
    exact ⟨hok, hwf, hlive, ⟨hb, hc, not_lt.1 hlen, hzero⟩, .of_not_stopped rfl, hcap⟩

/-- I4: the buffer's region is live, apart from the control block, or INIT fails. -/
theorem initAllocBuf_blockInv {d : Draw} (h : BlockInv s) (hp : s.sqr.pc = .i4 cb) (hs : initAllocBuf cb d s = .next t) :
    BlockInv t := by
  obtain ⟨hb, hc, hmax, hzero⟩ : Building s (.cbOnly cb) ∧ CbRegion s cb ∧
    bufLen s.cfg s.sqr.p.toNat ≤ s.cfg.maxBufBytes ∧ ∀ n, n < 8 → memRead32 s.mem (cb.base + 4 * n) = 0 :=
    h.blockOk.atLabel hp
  rcases initAllocBuf_next hs with rfl | ⟨buf, -, hsize, halloc, rfl⟩
  · exact initUnwind_blockInv h hb
  · obtain ⟨hok, hwf, hlive, -, -, hcap⟩ := h
    have hpos := hb.initLen_pos hok
    have halign := ((State.allocatable_iff _ _ _).1 halloc).1
    obtain ⟨hlive', hwf', hfresh, hsame⟩ := hlive.allocate hwf halloc (by omega)
      (by rw [hsize]; exact List.length_take_le _ _)
      ((s.setLive (buf :: s.live)).setMem (memWriteList s.mem buf.base (d.fill.take s.initLen))) rfl rfl rfl
    have hne : cb ≠ buf := fun e => hfresh (e ▸ hc.1)
    exact ⟨hok, hwf', hlive', ⟨⟨hb, ⟨List.mem_cons_of_mem _ hc.1, hc.2⟩, ⟨List.mem_cons_self, hsize, halign, hmax⟩, hne⟩,
      by omega, nofun, fun i _ hi => (hsame cb hc.1).words_zero (hc.size_ge hok) (le_refl 8) hzero i hi⟩,
      .of_not_stopped rfl, hcap⟩

/-- I5: one word more of the control block is as R219 gives it. -/
theorem initFillCb_blockInv {i : Nat} (h : BlockInv s) (hp : s.sqr.pc = .i5 cb buf i)
    (hs : initFillCb cb buf i s = .next t) : BlockInv t := by
  obtain ⟨hok, hwf, hlive, hblock, -, hcap⟩ := h
  obtain ⟨hb, hi4, hfilled, hzero⟩ : BuildingBoth s cb buf ∧ i < 4 ∧ CbFilled s cb buf i := hblock.atLabel hp
  obtain ⟨hmap, rfl⟩ := initFillCb_next hs
  have hend := State.mappedRange_le hmap (by omega)
  have hfilled' : CbFilled (s.setMem (memWrite32 s.mem (cb.base + 4 * i) (controlWord s buf i))) cb buf (i + 1) := by
    refine ⟨fun n hn => ?_, fun n hn hn8 => ?_⟩
    · refine (memRead32_memWrite32_cbWord hwf hend _ n).trans ?_
      split_ifs with hni
      · subst hni; rfl
      · exact hfilled n (by omega)
    · refine (memRead32_memWrite32_cbWord hwf hend _ n).trans ?_
      rw [if_neg (by omega)]
      exact hzero n (by omega) hn8
  have hwf' := memWrite32_wf hwf hend (controlWord s buf i)
  split_ifs with hi
  · exact ⟨hok, hwf', hlive, ⟨hb, hi, hfilled'⟩, .of_not_stopped rfl, hcap⟩
  · obtain rfl : i = 3 := by omega
    exact ⟨hok, hwf', hlive, ⟨hb, hfilled'⟩, .of_not_stopped rfl, hcap⟩

/-- I9: the pair becomes the allocation state, and the registers describe it. -/
theorem initSucceed_blockInv (h : BlockInv s) (hp : s.sqr.pc = .i9 cb buf) (hs : initSucceed cb buf s = .next t) :
    BlockInv t := by
  obtain ⟨hok, hwf, hlive, hblock, -, -⟩ := h
  obtain ⟨⟨⟨-, -, -, hcount⟩, hc, hbuf, hne⟩, hfilled, hzero⟩ : BuildingBoth s cb buf ∧ CbFilled s cb buf 4 :=
    hblock.atLabel hp
  have hholds : CbHolds s cb buf := by
    obtain ⟨-, hlen, -⟩ : buf ∈ s.live ∧ buf.size = s.initLen ∧ _ := hbuf
    exact ⟨hfilled 0 (by omega), hfilled 1 (by omega), hfilled 2 (by omega),
      by rw [hlen]; exact hfilled 3 (by omega), hzero⟩
  cases hs
  exact ⟨hok, hwf, hlive, ⟨cb, buf, rfl, ⟨rfl, rfl, rfl⟩, hc, hbuf, hne, hcount, hholds⟩, .of_not_stopped rfl, rfl⟩

/-- A filled control block outlasts a change of the ports, at any label of I6 to I9. -/
theorem BlockInv.of_ports {pc : Pc} (h : BlockInv s) (hb : BuildingBoth s cb buf ∧ CbFilled s cb buf 4) (clk : Clk)
    (fsel : Vector Word 256) (pwm : Pwm)
    (hpc : (∃ c, pc = .i6 cb buf c) ∨ pc = .i7 cb buf ∨ (∃ g, pc = .i8 cb buf g) ∨ pc = .i9 cb buf) :
    BlockInv ((((s.setClk clk).setFsel fsel).setPwm pwm).setPc pc) := by
  obtain ⟨hok, hwf, hlive, -, -, hcap⟩ := h
  rcases hpc with ⟨c, rfl⟩ | rfl | ⟨g, rfl⟩ | rfl <;>
    exact ⟨hok, hwf, hlive, hb, .of_not_stopped rfl, hcap⟩

/-- I6 writes the clock alone. -/
theorem initClock_blockInv {c : ClkPc} (h : BlockInv s) (hp : s.sqr.pc = .i6 cb buf c)
    (hs : initClock cb buf c s = .next t) : BlockInv t := by
  have hb : BuildingBoth s cb buf ∧ CbFilled s cb buf 4 := h.blockOk.atLabel hp
  obtain ⟨x, pc, he, -, hpc⟩ := clkConfigureStep_eq c (.i6 cb buf) (.i7 cb buf) s
  cases hs
  rw [he]
  refine h.of_ports hb x s.fsel s.pwm ?_
  rcases hpc with hpc | hpc | hpc
  · exact .inl ⟨c, hpc.trans hp⟩
  · exact .inr (.inl hpc)
  · exact .inl hpc

/-- I8 writes the function selects alone. -/
theorem initGpio_blockInv {g : GpioPc} (h : BlockInv s) (hp : s.sqr.pc = .i8 cb buf g)
    (hs : initGpio cb buf g s = .next t) : BlockInv t := by
  have hb : BuildingBoth s cb buf ∧ CbFilled s cb buf 4 := h.blockOk.atLabel hp
  unfold initGpio at hs
  rcases gpioStep_cases g (.i8 cb buf) (.i9 cb buf) s with he | ⟨x, pc, he, hpc⟩ <;> rw [he] at hs <;> cases hs
  exact h.of_ports hb s.clk x s.pwm (.inr (.inr hpc.symm))

/-- IF: nothing is allocated. -/
theorem initFail_blockInv (h : BlockInv s) (hp : s.sqr.pc = .iF) (hs : initFail s = .next t) : BlockInv t := by
  obtain ⟨hok, hwf, hlive, hblock, -, hcap⟩ := h
  obtain ⟨hengine, halloc, hregs, -⟩ : Building s .none := hblock.atLabel hp
  cases hs
  exact ⟨hok, hwf, hlive, .of_unallocated rfl (.inl hengine) ⟨halloc, hregs⟩, .of_not_stopped rfl,
    .of_zero (.inl hengine) (hcap.eq_zero (.inl hengine))⟩

/-! ## RENDER and CLEANUP (R229, R237) -/

/-- The register file with another snapshot, DMAERR and ERRCODE: all that DMA_STOP writes of it (R191, R192). -/
def HostRegs.stopped (r : HostRegs) (snap : Word) (err : Bool) (code : BitVec 4) : HostRegs :=
  { r with debugSnap := snap, dmaErr := err, errCode := code }

/-- The channel `x` where DMA_STOP goes on from `s` to the label `v`: as it was up to S3, stopped from S4 on. -/
def StopReached (s : State) (v : StopPc) (x : Dma) : Prop :=
  (x = s.dma ∧ (v = .s2 ∨ v = .s3)) ∨ (x.active = false ∧ (v = .s4 ∨ v = .s5 ∨ v = .s6))

/-- The channel is then as the sequence says it is at that label. -/
theorem StopReached.dmaOk {v : StopPc} {x : Dma} (h : StopReached s v x) (hd : t.dma = x)
    (hp : t.sqr.pc = .p1 v ∨ t.sqr.pc = .q1 v) : DmaOk t := by
  obtain ⟨-, hv⟩ | ⟨ha, -⟩ := h
  · refine .of_not_stopped ?_
    rcases hp with hp | hp <;> rw [hp] <;> rcases hv with rfl | rfl <;> rfl
  · rcases hp with hp | hp <;>
      exact .of_inactive (by rw [hd]; exact ha) (by simp [hp, Pc.channelClear]) (by simp [hp]) (by simp [hp])

/-- All a step of DMA_STOP does where its channel is stopped from S4 on: it ends, it waits, or it goes on to another label. -/
theorem stopStep_result {u : StopPc} {label : StopPc → Pc} {exit : State → State} {d : Draw} (hok : s.cfg.ok = true)
    (hstop : u = .s4 ∨ u = .s5 ∨ u = .s6 → s.dma.active = false) (hs : stopStep u label exit d s = .next t) :
    (u = .s6 ∧ t = exit (s.setDma { s.dma with debugErr := 0 })) ∨ t = s ∨
    ∃ v x snap err code, t = ((s.setDma x).setRegs (s.regs.stopped snap err code)).setPc (label v) ∧ StopReached s v x := by
  have goesOn {w : State} (v : StopPc) (x : Dma) (hw : w = (s.setDma x).setPc (label v)) (hx : StopReached s v x) :
      ∃ v x snap err code, w = ((s.setDma x).setRegs (s.regs.stopped snap err code)).setPc (label v) ∧ StopReached s v x :=
    ⟨v, x, s.regs.debugSnap, s.regs.dmaErr, s.regs.errCode, hw, hx⟩
  cases u with
  | s1 =>
    rw [stopStep_s1 hok] at hs
    cases hs
    split_ifs
    · exact .inr (.inr (goesOn .s2 s.dma rfl (.inl ⟨rfl, .inl rfl⟩)))
    · exact .inr (.inl rfl)
    · exact .inr (.inr (goesOn .s3 s.dma rfl (.inl ⟨rfl, .inr rfl⟩)))
  | s2 =>
    rw [stopStep_s2] at hs
    cases hs
    exact .inr (.inr ⟨.s3, s.dma, _, _, _, rfl, .inl ⟨rfl, .inr rfl⟩⟩)
  | s3 =>
    rw [stopStep_s3 hok] at hs
    cases hs
    exact .inr (.inr (goesOn .s4 (channelReset s.dma _) rfl (.inr ⟨rfl, .inl rfl⟩)))
  | s4 =>
    rw [stopStep_s4] at hs
    cases hs
    exact .inr (.inr (goesOn .s5 s.dma rfl (.inr ⟨hstop (.inl rfl), .inr (.inl rfl)⟩)))
  | s5 =>
    have ha := hstop (.inr (.inl rfl))
    rw [stopStep_s5 hok _ _ _ ha] at hs
    cases hs
    exact .inr (.inr (goesOn .s6 _ rfl (.inr ⟨ha, .inr (.inr rfl)⟩)))
  | s6 =>
    rw [stopStep_s6 hok] at hs
    cases hs
    exact .inl ⟨rfl, rfl⟩

/-- From the module reset on DMA_STOP finds the channel stopped (R194). -/
theorem DmaOk.inactive_of_stop {u : StopPc} (h : DmaOk s) (hp : s.sqr.pc = .p1 u ∨ s.sqr.pc = .q1 u)
    (hu : u = .s4 ∨ u = .s5 ∨ u = .s6) : s.dma.active = false := by
  apply h.1
  rcases hp with hp | hp <;> rw [hp] <;> rcases hu with rfl | rfl | rfl <;> rfl

/-- Where ENCODE goes on to: a step of its own, or DMA_START. -/
theorem encodePc_cases (s : State) (x : Byte) : (∃ e, encodePc s x = .p2 e) ∨ encodePc s x = .p3 .t1 := by
  unfold encodePc
  split_ifs <;> simp

/-- The position fits the label ENCODE goes on at. -/
theorem encodePc_blockOk (he : s.engine = .rendering) (hh : ∃ cb buf, Held s cb buf) (hi : InputOk s) (x : Byte) :
    BlockOk (s.setPc (encodePc s x)) := by
  unfold encodePc
  split_ifs with hj hg hl
  · exact ⟨he, hh, hi, hj⟩
  · exact ⟨he, hh, hi, hj⟩
  · exact ⟨he, hh, hi, hl⟩
  · exact ⟨he, hh⟩

/-- The stopped, error-free channel at the label ENCODE goes on at. -/
theorem encodePc_dmaOk (ha : s.dma.active = false) (he : s.dma.error = false) {u : State} (x : Byte) :
    DmaOk (s.setPc (encodePc u x)) := by
  rcases encodePc_cases u x with ⟨e, hpc⟩ | hpc <;> rw [hpc] <;> exact .of_inactive ha (fun _ => he) nofun nofun

/-- A write to memory is no change of the block's own state. -/
theorem SameBlock.setMem (s : State) (m : Memory) : SameBlock s (s.setMem m) :=
  ⟨rfl, rfl, rfl, ⟨rfl, rfl, rfl, rfl, rfl⟩, rfl⟩

/-- P1: the channel is stopped, and ENCODE begins at a label its position fits. -/
theorem renderStop_blockInv {u : StopPc} {d : Draw} (h : BlockInv s) (hp : s.sqr.pc = .p1 u)
    (hs : renderStop u d s = .next t) : BlockInv t := by
  obtain ⟨hok, hwf, hlive, hblock, hdma, hcap⟩ := id h
  obtain ⟨hengine, hheld, hinput⟩ : s.engine = .rendering ∧ (∃ cb buf, Held s cb buf) ∧ InputOk s := hblock.atLabel hp
  have hstop := hdma.inactive_of_stop (u := u) (.inl hp)
  rcases stopStep_result hok hstop hs with ⟨rfl, rfl⟩ | rfl | ⟨v, x, snap, err, code, rfl, hx⟩
  · exact ⟨hok, hwf, hlive, encodePc_blockOk (s := (s.setDma { s.dma with debugErr := 0 }).setJ 0) hengine hheld hinput 0,
      encodePc_dmaOk (s := (s.setDma { s.dma with debugErr := 0 }).setJ 0) (hstop (.inr (.inr rfl))) rfl 0, hcap⟩
  · exact h
  · exact ⟨hok, hwf, hlive, ⟨hengine, hheld, hinput⟩, hx.dmaOk rfl (.inl rfl), hcap⟩

/-- P2: a byte is read, or one of the render buffer is written. -/
theorem renderEncode_blockInv {e : EncodePc} (h : BlockInv s) (hp : s.sqr.pc = .p2 e)
    (hs : renderEncode e s = .next t) : BlockInv t := by
  obtain ⟨hok, hwf, hlive, hblock, hdma, hcap⟩ := id h
  obtain ⟨hengine, ⟨cb, buf, hheld⟩, hinput, hpos⟩ :
    s.engine = .rendering ∧ (∃ cb buf, Held s cb buf) ∧ InputOk s ∧ EncodeOk s e := hblock.atLabel hp
  have ha : s.dma.active = false := hdma.1 (by rw [hp]; rfl)
  have herr : s.dma.error = false := hdma.2.1 (by rw [hp]; rfl)
  rcases encodeStep_next hs with ⟨rfl, rfl⟩ | ⟨x, b, he, hmap, rfl⟩
  · exact ⟨hok, hwf, hlive, ⟨hengine, ⟨cb, buf, hheld⟩, hinput, hpos⟩, .of_inactive ha (fun _ => herr) nofun nofun,
      hcap⟩
  · have hj : s.sqr.j < s.regs.bufLen.toNat := by
      rcases he with ⟨rfl, -⟩ | ⟨rfl, -⟩
      · exact encode_position_lt h hheld hinput hpos
      · exact hpos
    have haddr := hheld.addresses h
    have hsame : MemSame s (s.setMem (memWrite s.mem (s.regs.bufPa.toNat + s.sqr.j) b)) cb := by
      apply MemSame.of_memWrite hwf
      have := haddr.apart
      rw [haddr.bufPaReg]
      rw [haddr.bufLenReg] at hj
      omega
    have hheld' : Held (s.setMem (memWrite s.mem (s.regs.bufPa.toNat + s.sqr.j) b)) cb buf :=
      (SameBlock.setMem s _).held_pair hok hsame hheld
    exact ⟨hok, memWrite_wf hwf (State.mapped_lt hmap) b, hlive,
      encodePc_blockOk (s := (s.setMem (memWrite s.mem (s.regs.bufPa.toNat + s.sqr.j) b)).setJ (s.sqr.j + 1))
        hengine ⟨cb, buf, hheld'⟩ hinput x,
      encodePc_dmaOk (s := (s.setMem (memWrite s.mem (s.regs.bufPa.toNat + s.sqr.j) b)).setJ (s.sqr.j + 1)) ha herr x, hcap⟩

/-- All a step of DMA_START does in the block: it goes on with the channel stopped, free of errors and at the control block's
address, or it activates the channel there. -/
theorem renderStart_result {u : StartPc} {d : Draw} (h : BlockInv s) (hp : s.sqr.pc = .p3 u)
    (hs : renderStart u d s = .next t) :
    (∃ v x, t = (s.setDma x).setPc (.p3 v) ∧ (v = .t2 ∨ v = .t3) ∧ x.active = false ∧ x.error = false ∧
      x.addrLatched = true ∧ x.conblkAd = s.regs.cbPa) ∨
    t = (s.setDma { startedDma s.cfg s.dma with active := true, loaded := false, pos := 0 }).setPc .p4 ∧
      s.dma.conblkAd = s.regs.cbPa := by
  obtain ⟨hok, -, -, hblock, hdma, -⟩ := id h
  obtain ⟨-, cb, buf, hheld⟩ : s.engine = .rendering ∧ ∃ cb buf, Held s cb buf := hblock.atLabel hp
  have ha : s.dma.active = false := hdma.1 (by rw [hp]; rfl)
  have herr : s.dma.error = false := hdma.2.1 (by rw [hp]; rfl)
  unfold renderStart at hs
  cases u with
  | t1 =>
    rw [startStep_t1 _ _ _ ha] at hs
    cases hs
    exact .inl ⟨.t2, _, rfl, .inl rfl, ha, herr, rfl, rfl⟩
  | t2 =>
    obtain ⟨hl, had⟩ := hdma.2.2 (.inl hp)
    rw [startStep_t2 hok _ _ _ ha] at hs
    cases hs
    exact .inl ⟨.t3, _, rfl, .inr rfl, ha, herr, hl, had⟩
  | t3 =>
    obtain ⟨hl, had⟩ := hdma.2.2 (.inr hp)
    have haddr := hheld.addresses h
    rw [startStep_t3 hok _ _ _ ha hl (by rw [had, haddr.cbPaReg]; exact haddr.cbAligned)] at hs
    cases hs
    exact .inr ⟨rfl, had⟩

/-- P3: the pair stays held while the channel is programmed. -/
theorem renderStart_blockInv {u : StartPc} {d : Draw} (h : BlockInv s) (hp : s.sqr.pc = .p3 u)
    (hs : renderStart u d s = .next t) : BlockInv t := by
  obtain ⟨hok, hwf, hlive, hblock, -, hcap⟩ := id h
  have hb : s.engine = .rendering ∧ ∃ cb buf, Held s cb buf := hblock.atLabel hp
  rcases renderStart_result h hp hs with ⟨v, x, rfl, -, ha, herr, hl, had⟩ | ⟨rfl, -⟩
  · exact ⟨hok, hwf, hlive, hb, ⟨fun _ => ha, fun _ => herr, fun _ => ⟨hl, had⟩⟩, hcap⟩
  · exact ⟨hok, hwf, hlive, hb, .of_not_stopped rfl, hcap⟩

/-- P4: the engine is back in IDLE with the pair still held. -/
theorem renderFinish_blockInv (h : BlockInv s) (hp : s.sqr.pc = .p4) (hs : renderFinish s = .next t) : BlockInv t := by
  obtain ⟨hok, hwf, hlive, hblock, -, hcap⟩ := h
  obtain ⟨hengine, hheld⟩ : s.engine = .rendering ∧ ∃ cb buf, Held s cb buf := hblock.atLabel hp
  cases hs
  exact ⟨hok, hwf, hlive, hheld, .of_not_stopped rfl, hcap.eq_cap (.inr hengine)⟩

/-- Q1: the channel is stopped with the regions still held. -/
theorem cleanupStop_blockInv {u : StopPc} {d : Draw} (h : BlockInv s) (hp : s.sqr.pc = .q1 u)
    (hs : cleanupStop u d s = .next t) : BlockInv t := by
  obtain ⟨hok, hwf, hlive, hblock, hdma, hcap⟩ := id h
  have hb : s.engine = .shutdown ∧ ∃ cb buf, Held s cb buf := hblock.atLabel hp
  have hstop := hdma.inactive_of_stop (u := u) (.inr hp)
  rcases stopStep_result hok hstop hs with ⟨rfl, rfl⟩ | rfl | ⟨v, x, snap, err, code, rfl, hx⟩
  · exact ⟨hok, hwf, hlive, hb, .of_inactive (hstop (.inr (.inr rfl))) nofun nofun nofun, hcap⟩
  · exact h
  · exact ⟨hok, hwf, hlive, hb, hx.dmaOk rfl (.inr rfl), hcap⟩

/-- Q2: the clock is stopped with the regions still held and the channel stopped. -/
theorem cleanupClock_blockInv {c : ClkStopPc} (h : BlockInv s) (hp : s.sqr.pc = .q2 c)
    (hs : cleanupClock c s = .next t) : BlockInv t := by
  obtain ⟨hok, hwf, hlive, hblock, hdma, hcap⟩ := h
  have hb : s.engine = .shutdown ∧ ∃ cb buf, Held s cb buf := hblock.atLabel hp
  have ha : s.dma.active = false := hdma.1 (by rw [hp]; rfl)
  obtain ⟨x, pc, he, -, -, -, hpc⟩ := clkStopStep_eq c .q2 .q3 s
  cases hs
  rw [he]
  have hpc : (∃ v, pc = .q2 v) ∨ pc = .q3 := by
    rcases hpc with hpc | hpc | hpc
    · exact .inl ⟨c, hpc.trans hp⟩
    · exact .inr hpc
    · exact .inl hpc
  rcases hpc with ⟨v, rfl⟩ | rfl <;> exact ⟨hok, hwf, hlive, hb, .of_inactive ha nofun nofun nofun, hcap⟩

/-- Q3 releases the buffer, then the control block. -/
theorem releaseAll_held (hh : Held s cb buf) : releaseAll s = s.setLive ((s.live.erase buf).erase cb) := by
  have ha := hh.1
  simp [releaseAll, ha, AllocState.regions, release, State.setLive]

/-- Q3: the released regions leave the live ones, and nothing is said to be held until Q4. -/
theorem cleanupRelease_blockInv (h : BlockInv s) (hp : s.sqr.pc = .q3) (hs : cleanupRelease s = .next t) :
    BlockInv t := by
  obtain ⟨hok, hwf, hlive, hblock, hdma, hcap⟩ := h
  obtain ⟨hengine, cb, buf, hheld⟩ : s.engine = .shutdown ∧ ∃ cb buf, Held s cb buf := hblock.atLabel hp
  have ha : s.dma.active = false := hdma.1 (by rw [hp]; rfl)
  cases hs
  rw [releaseAll_held hheld]
  exact ⟨hok, hwf, (hlive.erase buf).erase cb, hengine, .of_inactive ha nofun nofun nofun, hcap⟩

/-- Q4: nothing is allocated and the registers say so. -/
theorem cleanupFinish_blockInv (h : BlockInv s) (hp : s.sqr.pc = .q4) (hs : cleanupFinish s = .next t) : BlockInv t := by
  obtain ⟨hok, hwf, hlive, hblock, -, -⟩ := h
  have hengine : s.engine = .shutdown := hblock.atLabel hp
  cases hs
  exact ⟨hok, hwf, hlive, .of_unallocated rfl (.inr hengine) ⟨rfl, rfl, rfl, rfl⟩, .of_not_stopped rfl,
    .of_zero (.inr hengine) rfl⟩

/-- Every SEQ turn keeps the block's invariant. -/
theorem seqStep_blockInv {d : Draw} (h : BlockInv s) (hs : seqStep d s = .next t) : BlockInv t := by
  cases hp : s.sqr.pc <;> simp only [seqStep, hp] at hs
  case done => cases hs; exact h
  case i1 => exact initAllocCb_blockInv h hp hs
  case i2 => exact initZeroCb_blockInv h hp hs
  case i3 => exact initCheckLen_blockInv h hp hs
  case i4 => exact initAllocBuf_blockInv h hp hs
  case i5 => exact initFillCb_blockInv h hp hs
  case i6 => exact initClock_blockInv h hp hs
  case i7 cb buf => cases hs; exact h.of_ports (h.blockOk.atLabel hp) s.clk s.fsel _ (.inr (.inr (.inl ⟨_, rfl⟩)))
  case i8 => exact initGpio_blockInv h hp hs
  case i9 => exact initSucceed_blockInv h hp hs
  case iF => exact initFail_blockInv h hp hs
  case p1 => exact renderStop_blockInv h hp hs
  case p2 => exact renderEncode_blockInv h hp hs
  case p3 => exact renderStart_blockInv h hp hs
  case p4 => exact renderFinish_blockInv h hp hs
  case q1 => exact cleanupStop_blockInv h hp hs
  case q2 => exact cleanupClock_blockInv h hp hs
  case q3 => exact cleanupRelease_blockInv h hp hs
  case q4 => exact cleanupFinish_blockInv h hp hs

/-! ## The other agents -/

/-- An error recorded in STATUS keeps the block's invariant. -/
theorem raiseError_blockInv (h : BlockInv s) (c : ErrCode) : BlockInv (raiseError c s) :=
  h.of_same ⟨rfl, rfl, rfl, raiseError_sameHeld c s, rfl⟩ rfl rfl rfl h.memWf fun _ _ => .refl rfl

/-- INIT's acceptance: the latched count is not 0 and nothing is allocated (R216). -/
theorem execInit_blockInv (h : BlockInv s) (hs : execInit s = .next t) : BlockInv t := by
  rcases execInit_next hs with ⟨c, rfl⟩ | ⟨hbusy, hengine, hcount, rfl⟩
  · exact raiseError_blockInv h c
  · obtain ⟨hok, hwf, hlive, hblock, -, hcap⟩ := h
    obtain ⟨halloc, hregs⟩ : Unallocated s := hblock.atDone (State.pc_of_not_busy hbusy) hengine
    exact ⟨hok, hwf, hlive, ⟨hengine, halloc, hregs, hcount⟩, .of_not_stopped rfl,
      .of_zero (.inl hengine) (hcap.eq_zero (.inl hengine))⟩

/-- RENDER's acceptance: the latched input is one its checks let through (R227). -/
theorem execRender_blockInv (h : BlockInv s) (hs : execRender s = .next t) : BlockInv t := by
  rcases execRender_next hs with ⟨c, rfl⟩ | ⟨hbusy, hengine, -, hlen, hoverlap, hmap, rfl⟩
  · exact raiseError_blockInv h c
  · obtain ⟨hok, hwf, hlive, hblock, -, hcap⟩ := h
    have hheld : ∃ cb buf, Held s cb buf := hblock.atDone (State.pc_of_not_busy hbusy) hengine
    have hapart : ∀ r ∈ s.alloc.regions, regionsOverlap s.inputRegion r = false := by
      simpa [State.inputOverlaps] using hoverlap
    exact ⟨hok, hwf, hlive, ⟨rfl, hheld, hlen, hapart, hmap⟩, .of_not_stopped rfl, hcap.eq_cap (.inl hengine)⟩

/-- CLEANUP's acceptance: STATE leaves IDLE, and CAPACITY with it (R236, R38). -/
theorem execCleanup_blockInv (h : BlockInv s) (hs : execCleanup s = .next t) : BlockInv t := by
  rcases execCleanup_next hs with ⟨c, rfl⟩ | ⟨hbusy, hengine, rfl⟩ | ⟨hbusy, hengine, rfl⟩
  · exact raiseError_blockInv h c
  · obtain ⟨hok, hwf, hlive, hblock, hdma, hcap⟩ := h
    have hp := State.pc_of_not_busy hbusy
    exact ⟨hok, hwf, hlive, .of_unallocated hp (.inr rfl) (hblock.atDone hp hengine), hdma,
      .of_zero (.inr rfl) (hcap.eq_zero (.inl hengine))⟩
  · obtain ⟨hok, hwf, hlive, hblock, -, -⟩ := h
    have hheld : ∃ cb buf, Held s cb buf := hblock.atDone (State.pc_of_not_busy hbusy) hengine
    exact ⟨hok, hwf, hlive, ⟨rfl, hheld⟩, .of_not_stopped rfl, .of_zero (.inr rfl) rfl⟩

/-- Every command's acceptance keeps the block's invariant. -/
theorem exec_blockInv {i : Instr} (h : BlockInv s) (hs : exec i s = .next t) : BlockInv t := by
  cases i with
  | nop =>
    rcases execNop_next hs with rfl | rfl
    · exact h
    · exact raiseError_blockInv h _
  | init => exact execInit_blockInv h hs
  | render => exact execRender_blockInv h hs
  | cleanup => exact execCleanup_blockInv h hs

/-- A byte the host may write lies in no live region (R80). -/
theorem MemSame.of_not_allocatedAt (hw : s.mem.wf = true) {a : Nat} (ha : s.allocatedAt a = false) (b : Byte) {r : Region}
    (hr : r ∈ s.live) : MemSame s (s.setMem (memWrite s.mem a b)) r := by
  apply MemSame.of_memWrite hw
  simp only [State.allocatedAt, List.any_eq_false, regionContains_iff] at ha
  have := ha r hr
  omega

/-- Every statement of the host program keeps the block's invariant. -/
theorem hostStep_blockInv (h : BlockInv s) (hs : hostStep s = .next t) : BlockInv t := by
  unfold hostStep at hs
  split at hs
  · cases hs; exact h
  · rename_i rest _
    rcases hostStmt_next hs with ⟨i, hi⟩ | ⟨r, hr, rfl⟩ | ⟨hs, rs, rfl⟩ | ⟨a, b, hm, ha, rfl⟩
    · exact exec_blockInv (s := s.setHost rest) h hi
    · exact h.of_same ⟨rfl, rfl, rfl, hr, rfl⟩ rfl rfl rfl h.memWf fun _ _ => .refl rfl
    · exact h
    · exact h.of_same ⟨rfl, rfl, rfl, ⟨rfl, rfl, rfl, rfl, rfl⟩, rfl⟩ rfl rfl rfl
        (memWrite_wf h.memWf (State.mapped_lt hm) b) fun _ hr => .of_not_allocatedAt h.memWf ha b hr

/-- The DMA agent moves while the channel is active alone, where the invariant asks nothing of the channel. -/
theorem BlockInv.setDma_of_active (h : BlockInv s) (ha : s.dma.active = true) (x : Dma) : BlockInv (s.setDma x) := by
  obtain ⟨hok, hwf, hlive, hblock, hdma, hcap⟩ := h
  exact ⟨hok, hwf, hlive, hblock, .of_not_stopped (s := s.setDma x) (hdma.not_stopped ha), hcap⟩

/-- Every turn of the DMA agent keeps the block's invariant. -/
theorem dmaStep_blockInv (h : BlockInv s) (hs : dmaStep s = .next t) : BlockInv t := by
  rcases dmaStep_next hs with rfl | ⟨ha, -, -, rfl⟩ | ⟨ha, -, -, -, -, -, rfl⟩ | ⟨ha, -, -, -, rfl⟩
  · exact h
  · exact h.setDma_of_active ha _
  · exact BlockInv.setDma_of_active (s := sinkAccept _ s) h ha _
  · exact h.setDma_of_active ha _

/-- The reset input: the block forgets its regions and rests in UNINIT (R280 to R282). -/
theorem blockReset_blockInv (h : BlockInv s) : BlockInv (blockReset s) := by
  obtain ⟨hok, hwf, hlive, -, -, -⟩ := h
  exact ⟨hok, hwf, hlive, .of_unallocated rfl (.inl rfl) ⟨rfl, rfl, rfl, rfl⟩, .of_not_stopped rfl,
    .of_zero (.inl rfl) rfl⟩

/-- The platform takes back a region the block does not hold (R282). -/
theorem platformReclaim_blockInv (h : BlockInv s) (r : Region) : BlockInv (platformReclaim r s) := by
  rcases platformReclaim_cases r s with e | ⟨-, hr, e⟩ <;> rw [e]
  · exact h
  · obtain ⟨hok, hwf, hlive, hblock, hdma, hcap⟩ := h
    have hkeep : ∀ x ∈ s.live, x ∈ s.heldRegions → x ∈ s.live.erase r := fun x hx hh =>
      (List.mem_erase_of_ne (fun e : x = r => hr (e ▸ hh))).2 hx
    exact ⟨hok, hwf, hlive.erase r, hblock.setLive hkeep, hdma, hcap⟩

/-- Every turn keeps the block's invariant, whichever agent moves. -/
theorem takeTurn_blockInv {u : Turn} (h : BlockInv s) (hs : takeTurn u s = .next t) : BlockInv t := by
  cases u with
  | host => exact hostStep_blockInv h hs
  | seq d => exact seqStep_blockInv h hs
  | dma => exact dmaStep_blockInv h hs
  | dmaError bits active =>
    cases hs
    rcases dmaErrorStep_eq bits active s with e | ⟨ha, -, e⟩ <;> rw [e]
    · exact h
    · exact h.setDma_of_active ha _
  | sink =>
    cases hs
    obtain ⟨x, e⟩ := sinkStep_eq s
    rw [e]; exact h
  | env busy =>
    cases hs
    obtain ⟨x, e⟩ := envStep_eq busy s
    rw [e]; exact h
  | blockReset => cases hs; exact blockReset_blockInv h
  | reclaim r => cases hs; exact platformReclaim_blockInv h r

/-- Using up a turn is no change the invariant sees. -/
theorem State.dropTurn_blockInv : BlockInv s.dropTurn ↔ BlockInv s := by
  obtain ⟨ts, n, e⟩ := State.dropTurn_eq s
  rw [e]; exact Iff.rfl

/-- Every step keeps the block's invariant. -/
theorem step_blockInv (h : BlockInv s) (hs : step s = .next t) : BlockInv t :=
  takeTurn_blockInv (State.dropTurn_blockInv.2 h) (step_next hs).2

/-! ## A sound transfer -/

/-- What `Inv` asks beside `BlockInv`: an active channel reads live regions with a sound control block. -/
def TransferSound (s : State) : Prop := s.dma.active = true → ∃ cb buf, TransferOk s cb buf

/-- The live regions that no running INIT holds stay so, and keep their bytes. -/
def KeepsForeign (s t : State) : Prop :=
  ∀ r ∈ s.live, r ∉ s.sqr.pc.initRegions → r ∈ t.live ∧ r ∉ t.sqr.pc.initRegions ∧ MemSame s t r

/-- `t`'s channel is in the same transfer as `s`'s. -/
def SameTransfer (s t : State) : Prop :=
  t.dma.conblkAd = s.dma.conblkAd ∧ t.dma.loaded = s.dma.loaded ∧ t.dma.pos = s.dma.pos ∧
  t.dma.src = s.dma.src ∧ t.dma.dst = s.dma.dst ∧ t.dma.len = s.dma.len

/-- An unchanged channel is in the same transfer. -/
theorem SameTransfer.of_dma (h : t.dma = s.dma) : SameTransfer s t := by
  unfold SameTransfer
  rw [h]; exact ⟨rfl, rfl, rfl, rfl, rfl, rfl⟩

/-- A channel that is not active reads nothing. -/
theorem TransferSound.of_inactive (h : s.dma.active = false) : TransferSound s := fun ha => by
  rw [h] at ha; cases ha

/-- A step that changes neither memory nor the live regions keeps those it does not begin to hold. -/
theorem KeepsForeign.of_same (hl : t.live = s.live) (hm : t.mem = s.mem)
    (hi : ∀ r ∈ t.sqr.pc.initRegions, r ∈ s.sqr.pc.initRegions) : KeepsForeign s t :=
  fun r hr hn => ⟨by rw [hl]; exact hr, fun h => hn (hi r h), .refl hm⟩

/-- A transfer goes on soundly while the regions it reads are kept. -/
theorem TransferOk.of_keepsForeign (hok : s.cfg.ok = true) (hc : t.cfg = s.cfg) (hd : SameTransfer s t)
    (hk : KeepsForeign s t) (h : TransferOk s cb buf) : TransferOk t cb buf := by
  obtain ⟨hcb, hbuf, -, -, -, hncb, hnbuf, -⟩ := id h
  obtain ⟨hcb', hncb', hmem⟩ := hk cb hcb hncb
  obtain ⟨hbuf', hnbuf', -⟩ := hk buf hbuf hnbuf
  exact h.of_same hok hc hmem (fun _ => hcb') (fun _ => hbuf') (fun _ _ => hncb') (fun _ _ => hnbuf') hd

/-- The channel's transfer, if any, goes on soundly while the live regions INIT does not hold are kept. -/
theorem TransferSound.of_keepsForeign (h : TransferSound s) (hok : s.cfg.ok = true) (hc : t.cfg = s.cfg)
    (hd : t.dma = s.dma) (hk : KeepsForeign s t) : TransferSound t := fun ha => by
  obtain ⟨cb, buf, z⟩ := h (hd ▸ ha)
  exact ⟨cb, buf, z.of_keepsForeign hok hc (.of_dma hd) hk⟩

/-- A fresh region is none of those a transfer reads. -/
theorem KeepsForeign.of_allocate {r : Region} {al : Nat} {bs : List Byte} (h : BlockInv s)
    (hr : s.allocatable r al = true) (hz : 0 < r.size) (hbs : bs.length ≤ r.size) (hc : t.cfg = s.cfg)
    (hl : t.live = r :: s.live) (hm : t.mem = memWriteList s.mem r.base bs)
    (hi : ∀ x ∈ t.sqr.pc.initRegions, x = r ∨ x ∈ s.sqr.pc.initRegions) : KeepsForeign s t := by
  obtain ⟨-, -, hfresh, hsame⟩ := h.liveOk.allocate h.memWf hr hz hbs t hc hl hm
  intro x hx hn
  exact ⟨by rw [hl]; exact List.mem_cons_of_mem _ hx, fun hx' => (hi x hx').elim (fun e => hfresh (e ▸ hx)) hn,
    hsame x hx⟩

/-- A word written to INIT's control block is in no other live region. -/
theorem KeepsForeign.of_memWrite32 {i : Nat} {v : Word} (h : BlockInv s) (hcb : CbRegion s cb) (hi8 : i < 8)
    (hin : cb ∈ s.sqr.pc.initRegions) (hl : t.live = s.live) (hm : t.mem = memWrite32 s.mem (cb.base + 4 * i) v)
    (hi : t.sqr.pc.initRegions = s.sqr.pc.initRegions) : KeepsForeign s t := by
  intro x hx hn
  have hsize := hcb.size_ge h.paramsOk
  obtain ⟨-, hend, -⟩ := h.liveOk.1 cb hcb.1
  have hapart := h.liveOk.disjoint hcb.1 hx (fun e => hn (e ▸ hin))
  refine ⟨by rw [hl]; exact hx, by rw [hi]; exact hn, ?_⟩
  have := MemSame.of_memWrite32 h.memWf x (a := cb.base + 4 * i) (v := v) (by omega) (by omega)
  intro a h1 h2
  rw [hm]; exact this a h1 h2

/-- INIT's exit gives back its own control block alone. -/
theorem initUnwind_keepsForeign (hin : cb ∈ s.sqr.pc.initRegions) : KeepsForeign s (initUnwind cb s) := fun r hr hn =>
  ⟨(List.mem_erase_of_ne (fun e : r = cb => hn (e ▸ hin))).2 hr, List.not_mem_nil, .refl rfl⟩

/-- INIT leaves the regions it does not hold alone, so those a transfer reads. -/
theorem seqStep_keepsForeign {d : Draw} (h : BlockInv s) (hi : s.sqr.pc.cmd = .init) (hs : seqStep d s = .next t) :
    KeepsForeign s t := by
  have hblock := h.blockOk
  cases hp : s.sqr.pc <;> simp only [seqStep, hp] at hs <;> simp only [hp, Pc.cmd, reduceCtorEq] at hi
  case i1 =>
    rcases initAllocCb_next hs with rfl | ⟨cb, -, hsize, halloc, rfl⟩
    · exact .of_same rfl rfl nofun
    · have h32 := (Params.ok_sizes h.paramsOk).1
      exact .of_allocate h halloc (by omega) (by rw [hsize]; exact List.length_take_le _ _) rfl rfl rfl
        fun x hx => .inl (List.mem_singleton.1 hx)
  case i2 cb i =>
    obtain ⟨-, hcb, hi8, -⟩ : Building s (.cbOnly cb) ∧ CbRegion s cb ∧ i < 8 ∧ _ := hblock.atLabel hp
    obtain ⟨-, rfl⟩ := initZeroCb_next hs
    exact .of_memWrite32 h hcb hi8 (by simp [hp, Pc.initRegions]) rfl rfl
      (by rw [hp]; show (if _ then _ else _ : Pc).initRegions = _; split_ifs <;> rfl)
  case i3 cb =>
    unfold initCheckLen at hs
    split_ifs at hs <;> cases hs
    · exact initUnwind_keepsForeign (by simp [hp, Pc.initRegions])
    · exact .of_same rfl rfl (by rw [hp]; exact fun _ => id)
  case i4 cb =>
    obtain ⟨hb, -⟩ : Building s (.cbOnly cb) ∧ _ := hblock.atLabel hp
    rcases initAllocBuf_next hs with rfl | ⟨buf, -, hsize, halloc, rfl⟩
    · exact initUnwind_keepsForeign (by simp [hp, Pc.initRegions])
    · have hpos := hb.initLen_pos h.paramsOk
      refine .of_allocate h halloc (by omega) (by rw [hsize]; exact List.length_take_le _ _) rfl rfl rfl ?_
      rw [hp]
      intro x hx
      simpa [Pc.initRegions, or_comm] using hx
  case i5 cb buf i =>
    obtain ⟨hb, hi4, -⟩ : BuildingBoth s cb buf ∧ i < 4 ∧ _ := hblock.atLabel hp
    obtain ⟨-, rfl⟩ := initFillCb_next hs
    exact .of_memWrite32 h hb.cbRegion (by omega) (by simp [hp, Pc.initRegions]) rfl rfl
      (by rw [hp]; show (if _ then _ else _ : Pc).initRegions = _; split_ifs <;> rfl)
  case i6 cb buf c =>
    obtain ⟨x, pc, he, -, hpc⟩ := clkConfigureStep_eq c (.i6 cb buf) (.i7 cb buf) s
    cases hs
    rw [he]
    refine .of_same rfl rfl (fun r hr => ?_)
    rcases hpc with rfl | rfl | ⟨v, rfl⟩
    · exact hr
    all_goals rw [hp]; exact hr
  case i7 => cases hs; exact .of_same rfl rfl (by rw [hp]; exact fun _ => id)
  case i8 cb buf g =>
    unfold initGpio at hs
    rcases gpioStep_cases g (.i8 cb buf) (.i9 cb buf) s with he | ⟨x, pc, he, hpc⟩ <;> rw [he] at hs <;> cases hs
    rcases hpc with rfl | ⟨v, rfl⟩ <;> exact .of_same rfl rfl (by rw [hp]; exact fun _ => id)
  case i9 | iF => cases hs; exact .of_same rfl rfl nofun

/-- DMA_STOP leaves a transfer as it is up to the module reset, which ends it. -/
theorem stopStep_transferSound {u : StopPc} {label : StopPc → Pc} {exit : State → State} {d : Draw}
    (h : TransferSound s) (hok : s.cfg.ok = true) (hstop : u = .s4 ∨ u = .s5 ∨ u = .s6 → s.dma.active = false)
    (hs : stopStep u label exit d s = .next t) (hlabel : ∀ v, (label v).initRegions = [])
    (hexit : ∀ v, (exit v).dma = v.dma) : TransferSound t := by
  obtain ⟨rfl, rfl⟩ | rfl | ⟨v, x, snap, err, code, rfl, ⟨rfl, -⟩ | ⟨ha, -⟩⟩ := stopStep_result hok hstop hs
  · exact .of_inactive (by rw [hexit]; exact hstop (.inr (.inr rfl)))
  · exact h
  · refine h.of_keepsForeign hok rfl rfl (.of_same rfl rfl ?_)
    intro r hr
    rw [State.setPc, State.setSqr_sqr, hlabel] at hr
    cases hr
  · exact .of_inactive ha

/-- The transfer DMA_START activates is a sound one (R201). -/
theorem renderStart_transferSound {u : StartPc} {d : Draw} (h : BlockInv s) (hp : s.sqr.pc = .p3 u)
    (hs : renderStart u d s = .next t) : TransferSound t := by
  obtain ⟨-, cb, buf, hheld⟩ : s.engine = .rendering ∧ ∃ cb buf, Held s cb buf := h.blockOk.atLabel hp
  rcases renderStart_result h hp hs with ⟨v, x, rfl, -, ha, -⟩ | ⟨rfl, had⟩
  · exact .of_inactive ha
  · obtain ⟨-, ⟨-, -, hcbPa⟩, ⟨hcb, hcbSize, halign⟩, ⟨hbuf, hbufSize, -⟩, hne, -, hholds⟩ := hheld
    have hsize4 : buf.size % 4 = 0 := by rw [hbufSize]; exact Nat.mul_mod_right _ _
    exact fun _ => ⟨cb, buf, hcb, hbuf, hcbSize, halign, hsize4, List.not_mem_nil, List.not_mem_nil, hne,
      had.trans hcbPa, hholds, fun _ => rfl, nofun⟩

/-- Every SEQ turn keeps a transfer sound, stops it or starts a sound one. -/
theorem seqStep_transferSound {d : Draw} (hb : BlockInv s) (h : TransferSound s) (hs : seqStep d s = .next t) :
    TransferSound t := by
  by_cases hi : s.sqr.pc.cmd = .init
  · obtain ⟨hcfg, -, hsame, -⟩ := seqStep_frame hs
    exact h.of_keepsForeign hb.paramsOk hcfg (hsame hi) (seqStep_keepsForeign hb hi hs)
  have hdma := hb.dmaOk
  cases hp : s.sqr.pc <;> simp only [seqStep, hp] at hs <;> simp only [hp, Pc.cmd, not_true] at hi
  case done => cases hs; exact h
  case p1 u =>
    unfold renderStop at hs
    exact stopStep_transferSound h hb.paramsOk (hdma.inactive_of_stop (.inl hp)) hs (fun _ => rfl) fun _ => rfl
  case p2 =>
    have ha := hdma.1 (by rw [hp]; rfl)
    rcases encodeStep_next hs with ⟨-, rfl⟩ | ⟨_, _, -, -, rfl⟩ <;> exact .of_inactive ha
  case p3 => exact renderStart_transferSound hb hp hs
  case p4 => cases hs; exact h.of_keepsForeign hb.paramsOk rfl rfl (.of_same rfl rfl nofun)
  case q1 u =>
    unfold cleanupStop at hs
    exact stopStep_transferSound h hb.paramsOk (hdma.inactive_of_stop (.inr hp)) hs (fun _ => rfl) fun _ => rfl
  case q2 c =>
    have ha := hdma.1 (by rw [hp]; rfl)
    obtain ⟨x, pc, he, -⟩ := clkStopStep_eq c .q2 .q3 s
    cases hs
    rw [he]; exact .of_inactive ha
  case q3 =>
    have ha := hdma.1 (by rw [hp]; rfl)
    obtain ⟨l, e⟩ := releaseAll_eq s
    cases hs
    rw [e]; exact .of_inactive ha
  case q4 =>
    have ha := hdma.1 (by rw [hp]; rfl)
    cases hs
    exact .of_inactive ha

/-- The fetch loads what INIT wrote (R182). -/
theorem TransferOk.fetch (hb : BlockInv s) (hl : s.dma.loaded = false) (h : TransferOk s cb buf) :
    TransferOk (s.setDma { s.dma with
      ti := s.cbWord 0, src := s.cbWord 1, dst := s.cbWord 2, len := s.cbWord 3, next := s.cbWord 5
      loaded := true }) cb buf := by
  obtain ⟨-, -, -, had, -⟩ := h.addresses hb
  obtain ⟨hcb, hbuf, hsize, halign, hsize4, hncb, hnbuf, hne, hconblk, hholds, hpos, -⟩ := h
  obtain ⟨-, hsrc, hdst, hlen, -⟩ := id hholds
  have hword (i : Nat) : s.cbWord i = memRead32 s.mem (cb.base + 4 * i) := by rw [State.cbWord, had]
  have hpos0 := hpos hl
  exact ⟨hcb, hbuf, hsize, halign, hsize4, hncb, hnbuf, hne, hconblk, hholds, nofun, fun _ =>
    ⟨(hword 1).trans hsrc, (hword 2).trans hdst, (hword 3).trans hlen, by show s.dma.pos % 4 = 0; omega,
      by show s.dma.pos ≤ _; omega⟩⟩

/-- A word transfer moves the position on inside the buffer (R183). -/
theorem TransferOk.transfer (hb : BlockInv s) (hl : s.dma.loaded = true) (hlt : s.dma.pos < s.dma.len.toNat) (w : Word)
    (h : TransferOk s cb buf) : TransferOk ((sinkAccept w s).setDma { s.dma with pos := s.dma.pos + 4 }) cb buf := by
  obtain ⟨-, -, -, -, hsize⟩ := h.addresses hb
  obtain ⟨hcb, hbuf, hsz, halign, hsize4, hncb, hnbuf, hne, hconblk, hholds, -, hloaded⟩ := h
  obtain ⟨hsrc, hdst, hlen, hpos4, hpos⟩ := hloaded hl
  have hlen' : s.dma.len.toNat = buf.size := by
    rw [hlen, BitVec.toNat_ofNat, Nat.mod_eq_of_lt (by omega)]
  refine ⟨hcb, hbuf, hsz, halign, hsize4, hncb, hnbuf, hne, hconblk, hholds, fun h => ?_, fun _ =>
    ⟨hsrc, hdst, hlen, by show (s.dma.pos + 4) % 4 = 0; omega, by show s.dma.pos + 4 ≤ _; omega⟩⟩
  exact absurd (hl.symm.trans h) (by simp)

/-- Every turn of the DMA agent keeps a transfer sound or ends it. -/
theorem dmaStep_transferSound (hb : BlockInv s) (h : TransferSound s) (hs : dmaStep s = .next t) : TransferSound t := by
  rcases dmaStep_next hs with rfl | ⟨ha, -, hl, rfl⟩ | ⟨ha, -, hl, hlt, -, -, rfl⟩ | ⟨ha, -, -, -, rfl⟩
  · exact h
  · obtain ⟨cb, buf, z⟩ := h ha
    exact fun _ => ⟨cb, buf, z.fetch hb hl⟩
  · obtain ⟨cb, buf, z⟩ := h ha
    exact fun _ => ⟨cb, buf, z.transfer hb hl hlt _⟩
  · exact .of_inactive rfl

/-- An acceptance touches no region, and no transfer. -/
theorem exec_keepsForeign {i : Instr} (hs : exec i s = .next t) : KeepsForeign s t := by
  have raised : ∀ c, KeepsForeign s (raiseError c s) := fun _ => .of_same rfl rfl fun _ => id
  cases i with
  | nop =>
    rcases execNop_next hs with rfl | rfl
    · exact .of_same rfl rfl fun _ => id
    · exact raised _
  | init =>
    rcases execInit_next hs with ⟨c, rfl⟩ | ⟨-, -, -, rfl⟩
    · exact raised c
    · exact .of_same rfl rfl nofun
  | render =>
    rcases execRender_next hs with ⟨c, rfl⟩ | ⟨-, -, -, -, -, -, rfl⟩
    · exact raised c
    · exact .of_same rfl rfl nofun
  | cleanup =>
    rcases execCleanup_next hs with ⟨c, rfl⟩ | ⟨-, -, rfl⟩ | ⟨-, -, rfl⟩
    · exact raised c
    · exact .of_same rfl rfl fun _ => id
    · exact .of_same rfl rfl nofun

/-- No HOST turn touches a region a transfer reads (R80). -/
theorem hostStep_transferSound (hb : BlockInv s) (h : TransferSound s) (hs : hostStep s = .next t) : TransferSound t := by
  unfold hostStep at hs
  split at hs
  · cases hs; exact h
  · rename_i rest _
    rcases hostStmt_next hs with ⟨i, hi⟩ | ⟨r, hr, rfl⟩ | ⟨hs, rs, rfl⟩ | ⟨a, b, -, ha, rfl⟩
    · obtain ⟨-, hc, hd, -⟩ := exec_frame hi
      exact TransferSound.of_keepsForeign (s := s.setHost rest) h hb.paramsOk hc hd (exec_keepsForeign hi)
    · exact h.of_keepsForeign hb.paramsOk rfl rfl (.of_same rfl rfl fun _ => id)
    · exact h
    · exact h.of_keepsForeign hb.paramsOk rfl rfl fun r hr hn => ⟨hr, hn, .of_not_allocatedAt hb.memWf ha b hr⟩

/-- A transfer stays sound while the platform takes back another region than its two (R282). -/
theorem platformReclaim_transferSound (hb : BlockInv s) (h : TransferSound s) {r : Region}
    (hr : ∀ cb buf, s.dma.active = true → TransferOk s cb buf → r ≠ cb ∧ r ≠ buf) :
    TransferSound (platformReclaim r s) := by
  rcases platformReclaim_cases r s with e | ⟨-, -, e⟩ <;> rw [e]
  · exact h
  · intro ha
    obtain ⟨cb, buf, z⟩ := h ha
    obtain ⟨hcb, hbuf⟩ := hr cb buf ha z
    exact ⟨cb, buf, z.of_same hb.paramsOk rfl (.refl rfl) (List.mem_erase_of_ne hcb.symm).2
      (List.mem_erase_of_ne hbuf.symm).2 (fun _ => id) (fun _ => id) (SameTransfer.of_dma rfl)⟩

/-- Every turn but a reclaim of what an active transfer reads keeps that transfer sound. -/
theorem takeTurn_transferSound {u : Turn} (hb : BlockInv s) (h : TransferSound s)
    (hr : ∀ r cb buf, u = .reclaim r → s.dma.active = true → TransferOk s cb buf → r ≠ cb ∧ r ≠ buf)
    (hs : takeTurn u s = .next t) : TransferSound t := by
  cases u with
  | host => exact hostStep_transferSound hb h hs
  | seq d => exact seqStep_transferSound hb h hs
  | dma => exact dmaStep_transferSound hb h hs
  | dmaError bits active =>
    cases hs
    rcases dmaErrorStep_eq bits active s with e | ⟨ha, -, e⟩ <;> rw [e]
    · exact h
    · obtain ⟨cb, buf, z⟩ := h ha
      have hsame : SameTransfer s (s.setDma { s.dma with debugErr := s.dma.debugErr ||| bits, active := active }) :=
        ⟨rfl, rfl, rfl, rfl, rfl, rfl⟩
      exact fun _ => ⟨cb, buf, z.of_keepsForeign hb.paramsOk rfl hsame (.of_same rfl rfl fun _ => id)⟩
  | sink =>
    cases hs
    obtain ⟨x, e⟩ := sinkStep_eq s
    rw [e]; exact h
  | env busy =>
    cases hs
    obtain ⟨x, e⟩ := envStep_eq busy s
    rw [e]; exact h
  | blockReset => cases hs; exact h.of_keepsForeign hb.paramsOk rfl rfl (.of_same rfl rfl nofun)
  | reclaim r => cases hs; exact platformReclaim_transferSound hb h fun cb buf => hr r cb buf rfl

/-- Using up a turn is no change of a transfer. -/
theorem State.dropTurn_transferOk : TransferOk s.dropTurn cb buf ↔ TransferOk s cb buf := by
  obtain ⟨ts, n, e⟩ := State.dropTurn_eq s
  rw [e]; exact Iff.rfl

/-- Every step but a reclaim of what an active transfer reads keeps that transfer sound. -/
theorem step_transferSound (hb : BlockInv s) (h : TransferSound s)
    (hr : ∀ r cb buf, s.nextTurn = .reclaim r → s.dma.active = true → TransferOk s cb buf → r ≠ cb ∧ r ≠ buf)
    (hs : step s = .next t) : TransferSound t := by
  obtain ⟨-, -, hd, -⟩ := s.dropTurn_frame
  refine takeTurn_transferSound (State.dropTurn_blockInv.2 hb) (fun ha => ?_) (fun r cb buf e ha z => ?_) (step_next hs).2
  · obtain ⟨cb, buf, z⟩ := h (hd ▸ ha)
    exact ⟨cb, buf, State.dropTurn_transferOk.2 z⟩
  · exact hr r cb buf e (hd ▸ ha) (State.dropTurn_transferOk.1 z)

/-! ## What follows from the invariant -/

/-- Outside CLEANUP's last step the block holds a pair, or it holds none with its registers empty and STATE neither IDLE nor
RENDERING. -/
theorem BlockOk.held_or_empty (h : BlockOk s) : (s.sqr.pc = .q4 ∧ s.engine = .shutdown) ∨ (∃ cb buf, Held s cb buf) ∨
    ((s.engine = .uninit ∨ s.engine = .shutdown) ∧ RegsEmpty s ∧ ∀ cb buf, s.alloc ≠ .pair cb buf) := by
  have building : ∀ {a}, (∀ cb buf, a ≠ .pair cb buf) → Building s a →
      (s.engine = .uninit ∨ s.engine = .shutdown) ∧ RegsEmpty s ∧ ∀ cb buf, s.alloc ≠ .pair cb buf :=
    fun ha ⟨hengine, halloc, hregs, _⟩ => ⟨.inl hengine, hregs, by rw [halloc]; exact ha⟩
  unfold BlockOk at h
  cases hp : s.sqr.pc <;> simp only [hp] at h
  case done =>
    cases hengine : s.engine <;> simp only [hengine] at h
    case uninit => exact .inr (.inr ⟨.inl rfl, h.2, by simp [h.1]⟩)
    case idle => exact .inr (.inl h)
    case shutdown => exact .inr (.inr ⟨.inr rfl, h.2, by simp [h.1]⟩)
  case i1 | iF => exact .inr (.inr (building (by simp) h))
  case i2 | i3 | i4 => exact .inr (.inr (building (by simp) h.1))
  case i5 | i6 | i7 | i8 | i9 => exact .inr (.inr (building (by simp) h.1.building))
  case p1 | p2 => exact .inr (.inl h.2.1)
  case p3 | p4 | q1 | q2 | q3 => exact .inr (.inl h.2)
  case q4 => exact .inl ⟨rfl, h⟩

/-- The capacity of a held pair fits CAPACITY's 32 bits: its buffer, `K` times as large, fits the address space (R69, R136). -/
theorem Held.cap_lt (h : BlockInv s) (hh : Held s cb buf) : cap s.cfg s.sqr.p.toNat < 2 ^ 32 := by
  have haddr := hh.addresses h
  have hend := haddr.bufEnd
  have hk := (Params.ok_constraints h.paramsOk).1
  have hsize : s.sqr.p.toNat * s.cfg.c * s.cfg.k ≤ buf.size := by
    rw [haddr.bufSize, bufLen, roundup4]; omega
  have hle : s.sqr.p.toNat * s.cfg.c * 3 ≤ s.sqr.p.toNat * s.cfg.c * s.cfg.k := Nat.mul_le_mul_left _ (by omega)
  have := haddr.bufPos
  unfold cap
  omega

/-! ## The changes of STATE (R42) -/

/-- An acceptance changes STATE as R42 gives it: RENDER from IDLE, CLEANUP from UNINIT or IDLE. -/
theorem exec_engine {i : Instr} (hs : exec i s = .next t) : t.engine = s.engine ∨
    (s.engine = .idle ∧ t.engine = .rendering ∧ t.busy = true) ∨
    ((s.engine = .uninit ∨ s.engine = .idle) ∧ t.engine = .shutdown ∧ s.busy = false) := by
  cases i with
  | nop => rcases execNop_next hs with rfl | rfl <;> exact .inl rfl
  | init => rcases execInit_next hs with ⟨c, rfl⟩ | ⟨-, -, -, rfl⟩ <;> exact .inl rfl
  | render =>
    rcases execRender_next hs with ⟨c, rfl⟩ | ⟨-, hengine, -, -, -, -, rfl⟩
    · exact .inl rfl
    · exact .inr (.inl ⟨hengine, rfl, rfl⟩)
  | cleanup =>
    rcases execCleanup_next hs with ⟨c, rfl⟩ | ⟨hbusy, hengine, rfl⟩ | ⟨hbusy, hengine, rfl⟩
    · exact .inl rfl
    · exact .inr (.inr ⟨.inl hengine, rfl, hbusy⟩)
    · exact .inr (.inr ⟨.inr hengine, rfl, hbusy⟩)

/-- DMA_STOP leaves STATE to what follows it. -/
theorem stopStep_engine {u : StopPc} {label : StopPc → Pc} {exit : State → State} {d : Draw}
    (hs : stopStep u label exit d s = .next t) (hexit : ∀ v, (exit v).engine = v.engine) : t.engine = s.engine := by
  rcases stopStep_next hs with ⟨-, x, rfl⟩ | ⟨-, rfl⟩ | ⟨x, -, -, e, -⟩ | ⟨-, rfl⟩
  · exact hexit _
  · rfl
  · rw [e]; rfl
  · rfl

/-- SEQ changes STATE at the success exit of INIT and at the end of RENDER alone, and BUSY with it (R222, R229). -/
theorem seqStep_engine {d : Draw} (hs : seqStep d s = .next t) : t.engine = s.engine ∨
    (((∃ cb buf, s.sqr.pc = .i9 cb buf) ∨ s.sqr.pc = .p4) ∧ t.engine = .idle ∧ t.busy = false) := by
  cases hp : s.sqr.pc <;> simp only [seqStep, hp] at hs
  case i9 cb buf => cases hs; exact .inr ⟨.inl ⟨cb, buf, rfl⟩, rfl, rfl⟩
  case p4 => cases hs; exact .inr ⟨.inr rfl, rfl, rfl⟩
  all_goals left
  case done | i7 | iF | q4 => cases hs; rfl
  case i1 => rcases initAllocCb_next hs with rfl | ⟨_, -, -, -, rfl⟩ <;> rfl
  case i2 => obtain ⟨-, rfl⟩ := initZeroCb_next hs; rfl
  case i3 => unfold initCheckLen at hs; split_ifs at hs <;> cases hs <;> rfl
  case i4 => rcases initAllocBuf_next hs with rfl | ⟨_, -, -, -, rfl⟩ <;> rfl
  case i5 => obtain ⟨-, rfl⟩ := initFillCb_next hs; rfl
  case i6 cb buf c =>
    obtain ⟨x, pc, e, -⟩ := clkConfigureStep_eq c (.i6 cb buf) (.i7 cb buf) s
    cases hs
    rw [e]; rfl
  case i8 cb buf g =>
    unfold initGpio at hs
    rcases gpioStep_cases g (.i8 cb buf) (.i9 cb buf) s with e | ⟨_, _, e, -⟩ <;> rw [e] at hs <;> cases hs
    rfl
  case p1 | q1 => exact stopStep_engine hs fun _ => rfl
  case p2 => rcases encodeStep_next hs with ⟨-, rfl⟩ | ⟨_, _, -, -, rfl⟩ <;> rfl
  case p3 => obtain ⟨x, e, -⟩ := startStep_next hs; rw [e]; rfl
  case q2 c => obtain ⟨x, pc, e, -⟩ := clkStopStep_eq c .q2 .q3 s; cases hs; rw [e]; rfl
  case q3 => obtain ⟨l, e⟩ := releaseAll_eq s; cases hs; rw [e]; rfl

/-- A change of STATE that R42 allows, by the turn `u`. -/
def EngineChange (u : Turn) (s t : State) : Prop :=
  (s.engine = .uninit ∧ t.engine = .idle ∧ t.busy = false) ∨
  (s.engine = .idle ∧ t.engine = .rendering ∧ t.busy = true) ∨
  (s.engine = .rendering ∧ t.engine = .idle ∧ t.busy = false) ∨
  ((s.engine = .uninit ∨ s.engine = .idle) ∧ t.engine = .shutdown ∧ s.busy = false) ∨
  (u = .blockReset ∧ t.engine = .uninit)

/-- A turn leaves STATE or changes it as R42 allows. -/
theorem takeTurn_engine {u : Turn} (h : BlockInv s) (hs : takeTurn u s = .next t) :
    t.engine = s.engine ∨ EngineChange u s t := by
  cases u with
  | host =>
    simp only [takeTurn, hostStep] at hs
    split at hs
    · cases hs; exact .inl rfl
    · rcases hostStmt_next hs with ⟨i, hi⟩ | ⟨r, -, rfl⟩ | ⟨_, _, rfl⟩ | ⟨a, b, -, -, rfl⟩
      · rcases exec_engine hi with e | e | e
        · exact .inl e
        · exact .inr (.inr (.inl e))
        · exact .inr (.inr (.inr (.inr (.inl e))))
      all_goals exact .inl rfl
  | seq d =>
    rcases seqStep_engine hs with e | ⟨⟨cb, buf, hp⟩ | hp, ht⟩
    · exact .inl e
    · obtain ⟨⟨⟨hengine, -⟩, -⟩, -⟩ : BuildingBoth s cb buf ∧ CbFilled s cb buf 4 := h.blockOk.atLabel hp
      exact .inr (.inl ⟨hengine, ht⟩)
    · obtain ⟨hengine, -⟩ : s.engine = .rendering ∧ ∃ cb buf, Held s cb buf := h.blockOk.atLabel hp
      exact .inr (.inr (.inr (.inl ⟨hengine, ht⟩)))
  | dma =>
    rcases dmaStep_next hs with rfl | ⟨-, -, -, rfl⟩ | ⟨-, -, -, -, -, -, rfl⟩ | ⟨-, -, -, -, rfl⟩ <;> exact .inl rfl
  | dmaError bits active =>
    cases hs
    rcases dmaErrorStep_eq bits active s with e | ⟨-, -, e⟩ <;> rw [e] <;> exact .inl rfl
  | sink => cases hs; obtain ⟨x, e⟩ := sinkStep_eq s; rw [e]; exact .inl rfl
  | env busy => cases hs; obtain ⟨x, e⟩ := envStep_eq busy s; rw [e]; exact .inl rfl
  | blockReset => cases hs; exact .inr (.inr (.inr (.inr (.inr ⟨rfl, rfl⟩))))
  | reclaim r =>
    cases hs
    rcases platformReclaim_cases r s with e | ⟨-, -, e⟩ <;> rw [e] <;> exact .inl rfl

end

/-! ## The obligations about the invariant -/

/-- Settles O53: each agent's turn keeps the block's invariant, and a transfer the platform leaves its regions sound. -/
theorem stepKeepsInvariant : Obligations.StepKeepsInvariant := fun _ _ hs =>
  ⟨fun hb => step_blockInv hb hs, fun ⟨hb, h⟩ hr => ⟨step_blockInv hb hs, step_transferSound hb h hr hs⟩⟩

/-- Settles O54: after reset nothing is live, nothing is held and the channel is not active. -/
theorem resetMeetsInvariant : Obligations.ResetMeetsInvariant := by
  have hparams : State.reset.cfg.ok = true := by decide
  have hlive : LiveOk State.reset := ⟨nofun, .nil⟩
  have hblock : BlockOk State.reset := .of_unallocated rfl (.inl rfl) ⟨rfl, rfl, rfl, rfl⟩
  exact ⟨⟨hparams, rfl, hlive, hblock, .of_not_stopped rfl, .of_zero (.inl rfl) rfl⟩, nofun⟩

/-- Settles O57: a turn that does not leave STATE changes it as R42 allows. -/
theorem stateTransitions : Obligations.StateTransitions := by
  intro s t h hs hne
  obtain ⟨ts, n, e⟩ := State.dropTurn_eq s
  have hturn := (step_next hs).2
  rw [e] at hturn
  exact (takeTurn_engine (s := (s.setTurns ts).setTick n) h hturn).resolve_left hne

/-- Settles O59: CAPACITY by R38, the other registers by whether the block holds a pair. -/
theorem registersFollowAllocation : Obligations.RegistersFollowAllocation := by
  intro s h
  obtain ⟨hp, hengine⟩ | ⟨cb, buf, hh⟩ | ⟨hengine, hregs, hnone⟩ := h.blockOk.held_or_empty
  · have hcap := h.capacityOk.eq_zero (.inr hengine)
    exact ⟨by simp [hengine, hcap], fun hq => absurd hp hq, fun hq => absurd hp hq⟩
  · have haddr := hh.addresses h
    obtain ⟨-, -, hbufAlign, -⟩ := hh.bufRegion
    refine ⟨?_, fun _ cb' buf' ha => ?_, fun _ hn => absurd hh.1 (hn cb buf)⟩
    · rw [h.capacityOk, apply_ite BitVec.toNat, BitVec.toNat_ofNat, Nat.mod_eq_of_lt (hh.cap_lt h)]
      rfl
    · obtain ⟨rfl, rfl⟩ : cb = cb' ∧ buf = buf' := by simpa using hh.1.symm.trans ha
      exact ⟨haddr.bufLenReg.trans haddr.bufSize, haddr.bufPaReg, haddr.cbPaReg, haddr.cbAligned,
        hbufAlign, haddr.bufSize⟩
  · have hcap := h.capacityOk.eq_zero hengine
    exact ⟨by rcases hengine with e | e <;> simp [e, hcap], fun _ cb buf ha => absurd ha (hnone cb buf), fun _ _ => hregs⟩

/-- Settles O60: INIT's turns leave the channel, and of all turns DMA_STOP's S2 and the reset input alone write the snapshot. -/
theorem initLeavesChannelStopTakesSnapshot : Obligations.InitLeavesChannelStopTakesSnapshot := by
  intro s t hs
  obtain ⟨hcfg, -, hdma, hregs, hsqr, -⟩ := s.dropTurn_frame
  have hturn := (step_next hs).2
  refine ⟨fun d hn hi => ?_, fun hne => ?_⟩
  · rw [hn] at hturn
    obtain ⟨-, -, hsame, -⟩ := seqStep_frame hturn
    rw [hsame (by rw [hsqr]; exact hi), hdma]
  · obtain ⟨-, -, hsame | ⟨d, hn, hseq⟩ | hn⟩ := takeTurn_frame hturn
    · exact absurd (hsame.trans (by rw [hregs])) hne
    · obtain ⟨-, -, -, hsame | ⟨hp, hsnap⟩⟩ := seqStep_frame hseq
      · exact absurd (hsame.trans (by rw [hregs])) hne
      · rw [hsqr] at hp
        rw [hcfg, hdma] at hsnap
        exact .inr ⟨d, hn, hp, hsnap⟩
    · exact .inl hn

end Sys2Proof.Machine

/-!
PROOFS. Physical memory (spec/20_memory.md): what a turn writes and that it stays canonical (R60), the allocator (R72), the
host's accesses to memory and to its window (R66, R76, R80), the input of a RENDER (R73, R76), and the bytes of a held pair
(R79, R162).
-/

namespace Sys2Proof.Machine

section
variable {s t : State} {cb buf r : Region}

/-! ## Canonical memory (R60) -/

/-- SEQ writes mapped bytes and words, and an allocation's bytes lie in the address space: memory stays canonical. -/
theorem seqStep_memWf {d : Draw} (hw : s.mem.wf = true) (hs : seqStep d s = .next t) : t.mem.wf = true := by
  obtain ⟨-, hmem, -⟩ := seqStep_frame hs
  rcases hmem with e | ⟨a, v, hmap, e, -⟩ | ⟨a, b, _, hmap, e, -⟩ | ⟨r, al, bs, halloc, hlen, e, -⟩ <;> rw [e]
  · exact hw
  · exact memWrite32_wf hw (State.mappedRange_le hmap (by omega)) v
  · exact memWrite_wf hw (State.mapped_lt hmap) b
  · obtain ⟨-, hend, -⟩ := (State.allocatable_iff _ _ _).1 halloc
    exact memWriteList_wf hw (by omega)

/-- Every turn keeps memory canonical: beside SEQ only the host writes it, a mapped byte. -/
theorem takeTurn_memWf {u : Turn} (hw : s.mem.wf = true) (hs : takeTurn u s = .next t) : t.mem.wf = true := by
  obtain ⟨-, e | ⟨d, -, hseq⟩ | ⟨a, b, hmap, -, e⟩, -⟩ := takeTurn_frame hs
  · rw [e]; exact hw
  · exact seqStep_memWf hw hseq
  · rw [e]; exact memWrite_wf hw (State.mapped_lt hmap) b

/-! ## Regions and mapped addresses -/

/-- The device registers one by one (R62). -/
theorem mem_deviceRegions (p : Params) (u : Region) : u ∈ deviceRegions p ↔
    u = ⟨p.hostWindowPa.toNat, 0x40⟩ ∨ u = ⟨p.pwmFifoPa.toNat, 4⟩ ∨ u ∈ p.portRegions ∨
      ∃ o ∈ p.dmaOffsets.list, u = ⟨p.dmaPa.toNat + o, 4⟩ := by
  simp only [deviceRegions, List.mem_cons, List.mem_append, List.mem_map, eq_comm (a := u)]

/-- An address of a region lies outside every region that does not overlap it. -/
theorem outside_of_not_overlap {u : Region} (h : regionsOverlap r u = false) {i : Nat} (hi : i < r.size) :
    r.base + i < u.base ∨ u.base + u.size ≤ r.base + i := by
  by_contra hin
  exact (regionsOverlap_false_iff r u).1 h i (r.base + i - u.base) hi (by omega) (by omega)

/-- No address of a device register is mapped RAM (R62, R63). -/
theorem State.mapped_of_device (hr : r ∈ deviceRegions s.cfg) {a : Nat} (hlo : r.base ≤ a) (hhi : a < r.base + r.size) :
    s.mapped a = false := by
  by_contra hmap
  simp only [State.mapped, Bool.not_eq_false, Bool.and_eq_true, List.all_eq_true, Bool.not_eq_true'] at hmap
  have hout := hmap.2 r hr
  rw [(regionContains_iff r a).2 ⟨hlo, hhi⟩] at hout
  cases hout

/-- The addresses the host must not write (R80). -/
theorem State.allocatedAt_iff (s : State) (a : Nat) :
    s.allocatedAt a = true ↔ ∃ r ∈ s.live, r.base ≤ a ∧ a < r.base + r.size := by
  simp only [State.allocatedAt, List.any_eq_true, regionContains_iff]

theorem State.inDmaRam_iff (s : State) (r : Region) :
    s.inDmaRam r = true ↔ ∃ u ∈ s.cfg.dmaRam, u.base ≤ r.base ∧ r.base + r.size ≤ u.base + u.size := by
  simp only [State.inDmaRam, List.any_eq_true, Bool.and_eq_true, decide_eq_true_eq]

/-- The input of a RENDER shares a byte with a region of the block (R73). -/
theorem State.inputOverlaps_iff (s : State) : s.inputOverlaps = true ↔
    ∃ r ∈ s.alloc.regions, ∃ i j, i < s.regs.inLen.toNat ∧ j < r.size ∧ s.regs.inAddr.toNat + i = r.base + j := by
  simp only [State.inputOverlaps, List.any_eq_true, regionsOverlap_iff, State.inputRegion]

/-! ## The host's memory port (R80) -/

section
variable (rest : List HostStmt) (addr : Word) (b : Byte)

theorem hostStmt_memw_unmapped (h : s.mapped addr.toNat = false) :
    hostStmt (.memw addr b) rest s = .fault .hostUnmapped := by
  simp [hostStmt, h]

theorem hostStmt_memw_allocated (h : s.mapped addr.toNat = true) (ha : s.allocatedAt addr.toNat = true) :
    hostStmt (.memw addr b) rest s = .fault .hostWritesBlockMemory := by
  simp [hostStmt, h, ha]

theorem hostStmt_memw_free (h : s.mapped addr.toNat = true) (ha : s.allocatedAt addr.toNat = false) :
    hostStmt (.memw addr b) rest s = .next ((s.setMem (memWrite s.mem addr.toNat b)).setHost rest) := by
  simp [hostStmt, h, ha]

end

/-! ## The host's window (R66) -/

theorem windowAccessOk_iff (off : BitVec 6) (width : Nat) :
    windowAccessOk off width = true ↔ width = 32 ∧ off.toNat % 4 = 0 := by
  simp [windowAccessOk]

/-- The only faults of a command's acceptance are the two host duties of RENDER (R227). -/
theorem exec_fault {i : Instr} {f : Fault} (h : exec i s = .fault f) : f = .inputOverlap ∨ f = .inputUnmapped := by
  cases i with
  | nop =>
    simp only [exec, execNop, discardCommand] at h
    split_ifs at h
  | init =>
    simp only [exec, execInit, discardCommand] at h
    split_ifs at h
  | render =>
    simp only [exec, execRender, discardCommand] at h
    split_ifs at h <;> cases h
    · exact .inl rfl
    · exact .inr rfl
  | cleanup =>
    simp only [exec, execCleanup, discardCommand] at h
    split_ifs at h
    cases hengine : s.engine <;> simp [hengine] at h

/-- A write at a word offset faults as the command it submits does, and otherwise not at all. -/
theorem windowWrite_fault {off : BitVec 6} {v : Word} {f : Fault} (h : windowWrite off v s = .fault f) :
    f = .inputOverlap ∨ f = .inputUnmapped := by
  simp only [windowWrite] at h
  split_ifs at h
  unfold submit at h
  split at h
  · exact exec_fault h
  all_goals cases h

/-! ## The input of a RENDER (R227) -/

/-- RENDER's acceptance past its discards: the host's two duties in their order, then the latching (R227, R228). -/
theorem exec_render_checked (hb : s.busy = false) (he : s.engine = .idle)
    (hwrap : s.regs.inAddr.toNat + s.regs.inLen.toNat ≤ Config.paSpace)
    (hcap : s.regs.inLen.toNat ≤ cap s.cfg s.sqr.p.toNat) :
    exec .render s =
      if s.inputOverlaps then .fault .inputOverlap
      else if s.mappedRange s.regs.inAddr.toNat s.regs.inLen.toNat = false then .fault .inputUnmapped
      else .next (((latchRender s).setEngine .rendering).setPc (.p1 .s1)) := by
  simp [exec, execRender, hb, he, Nat.not_lt.2 hwrap, Nat.not_lt.2 hcap]

theorem State.mappedRange_false_iff (s : State) (a n : Nat) :
    s.mappedRange a n = false ↔ ∃ i, i < n ∧ s.mapped (a + i) = false := by
  simp [State.mappedRange]

/-! ## The bytes of a held pair (R79, R162) -/

/-- A running INIT has no pair yet (R44). -/
theorem BlockOk.alloc_of_init (h : BlockOk s) (hi : s.sqr.pc.cmd = .init) : s.alloc ≠ .pair cb buf := by
  unfold BlockOk at h
  cases hp : s.sqr.pc <;> simp only [hp, Pc.cmd, reduceCtorEq] at h hi
  case i1 | iF => rw [h.2.1]; nofun
  case i2 | i3 | i4 => rw [h.1.2.1]; nofun
  case i5 | i6 | i7 | i8 | i9 => rw [h.1.building.2.1]; nofun

/-- The encoder's position lies in the render buffer at each of ENCODE's labels (R142). -/
theorem BlockInv.encode_position {e : EncodePc} (h : BlockInv s) (hh : Held s cb buf) (hp : s.sqr.pc = .p2 e) :
    s.sqr.j < buf.size := by
  obtain ⟨-, -, hinput, hpos⟩ :
    s.engine = .rendering ∧ (∃ cb buf, Held s cb buf) ∧ InputOk s ∧ EncodeOk s e := h.blockOk.atLabel hp
  rw [← (hh.addresses h).bufLenReg]
  cases e with
  | read | write _ => exact encode_position_lt h hh hinput hpos
  | zero => exact hpos

/-- All SEQ writes while a pair is held: at a label of ENCODE, the buffer's byte at the encoder's position. -/
theorem seqStep_mem_of_held {d : Draw} (h : BlockInv s) (hh : Held s cb buf) (hs : seqStep d s = .next t) :
    t.mem = s.mem ∨ ∃ e b, s.sqr.pc = .p2 e ∧ s.sqr.j < buf.size ∧
      t.mem = memWrite s.mem (buf.base + s.sqr.j) b := by
  have noInit : s.sqr.pc.cmd ≠ .init := fun hi => h.blockOk.alloc_of_init hi hh.1
  obtain ⟨-, hmem, -⟩ := seqStep_frame hs
  rcases hmem with e | ⟨_, _, -, -, hp⟩ | ⟨a, b, e, -, ht, hp, rfl⟩ | ⟨_, _, _, -, -, -, hp⟩
  · exact .inl e
  · obtain ⟨_, _, hp⟩ | ⟨_, _, _, hp⟩ := hp <;> exact absurd (by rw [hp]; rfl) noInit
  · rw [(hh.addresses h).bufPaReg] at ht
    exact .inr ⟨e, b, hp, h.encode_position hh hp, ht⟩
  · obtain hp | ⟨_, hp⟩ := hp <;> exact absurd (by rw [hp]; rfl) noInit

/-- Every turn keeps the bytes of a held control block, and any but one of ENCODE those of the render buffer. -/
theorem takeTurn_memSame_of_held {u : Turn} (h : BlockInv s) (hh : Held s cb buf) (hs : takeTurn u s = .next t) :
    MemSame s t cb ∧ (MemSame s t buf ∨ (∃ e, s.sqr.pc = .p2 e) ∧ ∃ d, u = .seq d) := by
  obtain ⟨-, hmem | ⟨d, rfl, hseq⟩ | ⟨a, b, -, hfree, hmem⟩, -⟩ := takeTurn_frame hs
  · exact ⟨.refl hmem, .inl (.refl hmem)⟩
  · rcases seqStep_mem_of_held h hh hseq with hmem | ⟨e, b, hp, hj, hmem⟩
    · exact ⟨.refl hmem, .inl (.refl hmem)⟩
    · have hapart := (hh.addresses h).apart
      refine ⟨fun x hlo hhi => ?_, .inr ⟨⟨e, hp⟩, d, rfl⟩⟩
      rw [hmem, memRead_memWrite h.memWf, if_neg (by omega)]
  · have keeps : ∀ {r}, r ∈ s.live → MemSame s t r := fun hr x hlo hhi => by
      rw [hmem]; exact MemSame.of_not_allocatedAt h.memWf hfree b hr x hlo hhi
    exact ⟨keeps hh.cbRegion.1, .inl (keeps hh.bufRegion.1)⟩

end

/-! ## The obligations about memory -/

/-- Settles O52: using up a turn leaves memory, and each agent's turn keeps it canonical. -/
theorem stepKeepsMemoryCanonical : Obligations.StepKeepsMemoryCanonical := by
  intro s t hw hs
  obtain ⟨-, hmem, -⟩ := s.dropTurn_frame
  exact takeTurn_memWf (hmem ▸ hw) (step_next hs).2

/-- Settles O14: a byte write faults, or lands at its byte, by where its address lies. -/
theorem hostMemoryWrites : Obligations.HostMemoryWrites := by
  intro s rest addr b hw
  refine ⟨fun hmap hlive => ?_, fun hmap hfree => ?_, hostStmt_memw_unmapped rest addr b,
    fun r hr => State.mapped_of_device hr⟩
  · exact hostStmt_memw_allocated rest addr b hmap ((s.allocatedAt_iff _).2 hlive)
  · have hfree' : s.allocatedAt addr.toNat = false := by
      rw [Bool.eq_false_iff, ne_eq, State.allocatedAt_iff]
      rintro ⟨r, hr, hin⟩
      exact hfree r hr hin
    exact ⟨_, hostStmt_memw_free rest addr b hmap hfree', memRead_memWrite hw addr.toNat b⟩

/-- Settles O21: past the discards RENDER checks the overlap, then the mapping. -/
theorem renderInputFaults : Obligations.RenderInputFaults := by
  intro s hb he hwrap hcap
  have hexec := exec_render_checked hb he hwrap hcap
  refine ⟨fun hshare => ?_, fun hapart hunmapped => ?_⟩
  · exact hexec.trans (if_pos (s.inputOverlaps_iff.2 hshare))
  · have hno : ¬ s.inputOverlaps = true := by
      rw [State.inputOverlaps_iff]
      rintro ⟨r, hr, i, j, hi, hj, e⟩
      exact hapart r hr i j hi hj e
    rw [hexec, if_neg hno, if_pos ((s.mappedRange_false_iff _ _).2 hunmapped)]

/-- Settles O25: each condition of R72 is one of `allocatable`, and the drawn bytes lie in the region. -/
theorem allocationContract : Obligations.AllocationContract := by
  intro d size align s t r hw h
  obtain ⟨-, rfl, halloc, rfl⟩ := allocate_some h
  obtain ⟨halign, hend, -, hdma, hlive, hdevice⟩ := (State.allocatable_iff _ _ _).1 halloc
  have outside : ∀ u ∈ deviceRegions s.cfg, ∀ i, i < r.size → r.base + i < u.base ∨ u.base + u.size ≤ r.base + i :=
    fun u hu i hi => outside_of_not_overlap (hdevice u hu) hi
  simp only [mem_deviceRegions] at outside hdevice
  have hbytes : (d.fill.take r.size).length ≤ r.size := List.length_take_le _ _
  refine ⟨rfl, halign, hend, fun u hu => (regionsOverlap_false_iff r u).1 (hlive u hu),
    outside _ (.inr (.inl rfl)), outside _ (.inl rfl), fun o ho => outside _ (.inr (.inr (.inr ⟨o, ho, rfl⟩))),
    fun u hu => (regionsOverlap_false_iff r u).1 (hdevice u (.inr (.inr (.inl hu)))), (s.inDmaRam_iff r).1 hdma,
    _, rfl, fun a ha => ?_⟩
  exact memWriteList_read_outside hw (by omega) (by omega)

/-- Settles O56: a changed byte is none of the control block's, and one of the buffer's is ENCODE's, at whose labels the
channel is stopped. -/
theorem bufferWrittenOnlyWhileStopped : Obligations.BufferWrittenOnlyWhileStopped := by
  intro s t cb buf a h hh hs hne
  obtain ⟨ts, n, hdrop⟩ := State.dropTurn_eq s
  have hturn := (step_next hs).2
  rw [hdrop] at hturn
  obtain ⟨hcb, hbuf⟩ := takeTurn_memSame_of_held (s := (s.setTurns ts).setTick n) h hh hturn
  refine ⟨fun ⟨hlo, hhi⟩ => hne (hcb a hlo hhi), fun ⟨hlo, hhi⟩ => ?_⟩
  obtain ⟨⟨e, hp⟩, hseq⟩ := hbuf.resolve_left fun hsame => hne (hsame a hlo hhi)
  have hp : s.sqr.pc = .p2 e := hp
  obtain ⟨hstopped, -⟩ := h.dmaOk
  exact ⟨hstopped (by rw [hp]; rfl), ⟨e, hp⟩, hseq⟩

/-- Settles O13: the window takes 32-bit accesses at word offsets alone, and a write it takes raises no
fault but RENDER's two. -/
theorem windowAccessWidth : Obligations.WindowAccessWidth := by
  intro s rest off width name v
  refine ⟨fun hbad => ?_, fun hok => ?_⟩
  · have hrefused : ¬ windowAccessOk off width = true := by rwa [windowAccessOk_iff]
    exact ⟨if_neg hrefused, if_neg hrefused⟩
  · have htaken := (windowAccessOk_iff off width).2 hok
    refine ⟨if_pos htaken, fun hf => ?_⟩
    have hwrite : windowWrite off v (s.setHost rest) = .fault .hostAccessWidth := (if_pos htaken).symm.trans hf
    obtain hf | hf := windowWrite_fault hwrite <;> cases hf

end Sys2Proof.Machine

/-!
PROOFS. Encodings (spec/30_encoding.md): the fields of a command word (R91), its decoding against its encoding (R92, R94, R95),
the host's write of a word to CMD and the step that performs it (R92, R211), and POLL (R96).
-/

namespace Sys2Proof

section
variable {v w : Word} {i : Instr}

/-! ## The fields of a command word (R91) -/

theorem cmdRsvd_toNat (w : Word) : (cmdRsvd w).toNat = w.toNat / 16 := by
  rw [cmdRsvd, BitVec.extractLsb'_toNat, Nat.shiftRight_eq_div_pow]
  omega

theorem cmdOp_toNat (w : Word) : (cmdOp w).toNat = w.toNat % 16 := by
  rw [cmdOp, BitVec.extractLsb'_toNat, Nat.shiftRight_zero]

theorem cmdRsvd_eq_zero_iff (w : Word) : cmdRsvd w = 0 ↔ w.toNat / 16 = 0 := by
  rw [← BitVec.toNat_inj, cmdRsvd_toNat]
  rfl

theorem cmdOp_eq_iff (w : Word) (op : BitVec 4) : cmdOp w = op ↔ w.toNat % 16 = op.toNat := by
  rw [← BitVec.toNat_inj, cmdOp_toNat]

/-- RSVD and OP cover the word. -/
theorem eq_of_cmdFields (hrsvd : cmdRsvd v = cmdRsvd w) (hop : cmdOp v = cmdOp w) : v = w := by
  rw [← BitVec.toNat_inj, cmdRsvd_toNat, cmdRsvd_toNat] at hrsvd
  rw [cmdOp_eq_iff, cmdOp_toNat] at hop
  exact BitVec.eq_of_toNat_eq (by omega)

/-! ## Decoding and encoding (R92, R94, R95) -/

/-- The decoding of R92 with both fields as numbers. -/
theorem decode_eq_ite_toNat (w : Word) : decode w =
    if w.toNat / 16 ≠ 0 then .reservedBits
    else if w.toNat % 16 = 0x0 then .command .nop
    else if w.toNat % 16 = 0x1 then .command .init
    else if w.toNat % 16 = 0x2 then .command .render
    else if w.toNat % 16 = 0x3 then .command .cleanup
    else .reservedOp := by
  simp only [decode, ne_eq, cmdRsvd_eq_zero_iff, cmdOp_eq_iff]
  rfl

theorem wordRoundTrip (i : Instr) : Laws.WordRoundTrip.Statement i :=
  match i with
  | .nop => Laws.WordRoundTrip.nop
  | .init => Laws.WordRoundTrip.init
  | .render => Laws.WordRoundTrip.render
  | .cleanup => Laws.WordRoundTrip.cleanup

@[simp] theorem cmdRsvd_encode (i : Instr) : cmdRsvd (encode i) = 0 :=
  let ⟨_, hrsvd, _⟩ := wordRoundTrip i
  hrsvd

@[simp] theorem decode_encode (i : Instr) : decode (encode i) = .command i :=
  let ⟨_, _, hdecode⟩ := wordRoundTrip i
  hdecode

/-- A word that decodes to a command has the fields of that command's word. -/
theorem cmdFields_of_decode (h : decode w = .command i) : cmdRsvd w = 0 ∧ cmdOp w = cmdOp (encode i) := by
  unfold decode at h
  split_ifs at h with hrsvd hnop hinit hrender hcleanup <;> cases h
  · exact ⟨not_not.1 hrsvd, hnop⟩
  · exact ⟨not_not.1 hrsvd, hinit⟩
  · exact ⟨not_not.1 hrsvd, hrender⟩
  · exact ⟨not_not.1 hrsvd, hcleanup⟩

theorem decode_eq_command_iff (w : Word) (i : Instr) : decode w = .command i ↔ w = encode i := by
  constructor
  · intro h
    obtain ⟨hrsvd, hop⟩ := cmdFields_of_decode h
    exact eq_of_cmdFields (hrsvd.trans (cmdRsvd_encode i).symm) hop
  · rintro rfl
    exact decode_encode i

theorem decodeTableWord_eq_some_iff (nbits n : Nat) (i : Instr) : decodeTableWord nbits n = some i ↔
    nbits ≤ 32 ∧ decode (BitVec.ofNat 32 (n % 2 ^ nbits)) = .command i := by
  unfold decodeTableWord
  split_ifs with hbits
  · cases decode (BitVec.ofNat 32 (n % 2 ^ nbits)) <;> simp [hbits]
  · simp [hbits]

/-- The table decoder reads the number of a whole word as that word (R91). -/
theorem decodeTableWord_toNat_iff (w : Word) (i : Instr) :
    decodeTableWord 32 w.toNat = some i ↔ decode w = .command i := by
  rw [decodeTableWord_eq_some_iff, Nat.mod_eq_of_lt w.isLt, BitVec.ofNat_toNat, BitVec.setWidth_eq]
  exact and_iff_right le_rfl

end

namespace Machine

section
variable {s : State} {w : Word} {i : Instr} {rest : List HostStmt}

/-! ## A word written to CMD (R92) -/

/-- Every command makes the busy check first (R92, R286). -/
theorem exec_busy (hb : s.busy = true) (i : Instr) : exec i s = discardCommand .cmdBusy s := by
  cases i <;> exact if_pos hb

theorem submit_command (h : decode w = .command i) : submit w s = exec i s := by
  rw [submit, h]

/-- While BUSY a word is discarded whatever it decodes to. -/
theorem submit_busy (hb : s.busy = true) (w : Word) : submit w s = discardCommand .cmdBusy s := by
  unfold submit
  split
  · exact exec_busy hb _
  · rw [if_pos hb]
  · rw [if_pos hb]

/-- The order of R92 past its busy check: RSVD, then OP. -/
theorem submit_not_busy (hb : s.busy = false) (w : Word) : submit w s =
    if w.toNat / 16 ≠ 0 then discardCommand .cmdReserved s
    else if w.toNat % 16 = 0x0 then exec .nop s
    else if w.toNat % 16 = 0x1 then exec .init s
    else if w.toNat % 16 = 0x2 then exec .render s
    else if w.toNat % 16 = 0x3 then exec .cleanup s
    else discardCommand .cmdReserved s := by
  simp only [submit, hb, Bool.false_eq_true, if_false, decode_eq_ite_toNat]
  split_ifs <;> rfl

/-! ## The host's statements (R96) -/

/-- A HOST turn whose next statement is a write to CMD submits the word. -/
theorem hostStep_writeCmd (h : s.host = .wr 0x00 32 w :: rest) : hostStep s = submit w (s.setHost rest) := by
  rw [hostStep, h]
  rfl

theorem hostStep_poll {off : BitVec 6} {hi lo : Nat} {v : Word} (halign : off.toNat % 4 = 0)
    (h : s.host = .poll off hi lo v :: rest) :
    hostStep s = .next (if wordField (s.windowRead off) hi lo = v.toNat then s.setHost rest else s) := by
  rw [hostStep, h]
  exact if_pos ((windowAccessOk_iff off 32).2 ⟨rfl, halign⟩)

/-- The step of a HOST turn that writes a command's word to CMD performs its acceptance (R211). -/
theorem step_writeCmd {ts : List Turn} (hok : s.cfg.ok = true) (hturns : s.turns = .host :: ts)
    (hhost : s.host = .wr 0x00 32 w :: rest) (hw : decode w = .command i) :
    step s = exec i ((s.setTurns ts).setHost rest) :=
  calc step s = hostStep (s.setTurns ts) := step_listed hok hturns
    _ = submit w ((s.setTurns ts).setHost rest) := hostStep_writeCmd hhost
    _ = exec i ((s.setTurns ts).setHost rest) := submit_command hw

end

/-! ## The obligations about encodings -/

/-- Settles O2: a word that decodes to a command agrees with that command's word in both fields. -/
theorem decodeEncodeAgree : Obligations.DecodeEncodeAgree := decode_eq_command_iff

/-- Settles O3: BUSY decides first, for commands and reserved words alike; then the word's two fields, as numbers. -/
theorem commandWordDecodingOrder : Obligations.CommandWordDecodingOrder := by
  intro w s
  show submit w s = _
  cases hb : s.busy with
  | true => exact submit_busy hb w
  | false => exact submit_not_busy hb w

/-- Settles O1: the four words are the commands' own. -/
theorem opcodeMapDecodes : Obligations.OpcodeMapDecodes :=
  ⟨decode_encode .nop, decode_encode .init, decode_encode .render, decode_encode .cleanup,
    fun i => (decodeTableWord_toNat_iff (encode i) i).2 (decode_encode i)⟩

/-- Settles O4: the turn is HOST's, its statement submits the word, and the word is the command's. -/
theorem stepRunsDecodedCommand : Obligations.StepRunsDecodedCommand :=
  fun _ _ _ _ _ hok hturns hhost hw => step_writeCmd hok hturns hhost hw

/-- Settles O5: the placed turn and write are the next ones, and using them up gives the state back. -/
theorem placedWordRunsNext : Obligations.PlacedWordRunsNext := by
  intro s w i hok hw
  obtain ⟨-, hdecode⟩ := (decodeTableWord_eq_some_iff 32 w i).1 hw
  exact step_writeCmd (s := s.withFetchWord 32 w) hok rfl rfl hdecode

/-- Settles O15: POLL's field is the shifted word cut to its width. -/
theorem pollRepeats : Obligations.PollRepeats := by
  intro s rest off hi lo v halign h
  have hpoll := hostStep_poll halign h
  rw [wordField, Nat.shiftRight_eq_div_pow] at hpoll
  exact ⟨fun heq => by rw [hpoll, if_pos heq]; rfl, fun hne => by rw [hpoll, if_neg hne]⟩

end Machine

end Sys2Proof

/-!
PROOFS. The clock, GPIO and PWM ports (spec/40_clock_gpio_ports.md): which turns change the clock's BUSY flag (R114), the
waits as holds (R193, R260), ClkStop and ClkConfigure operation by operation (R111, R113), PwmArm (R122), and
GpioSetFunction (R120, R121).
-/

namespace Sys2Proof.Machine

section
variable {s t : State} {cb buf : Region} {label : ClkStopPc → Pc} {exit : Pc}

/-! ## Which turns change BUSY (R114) -/

/-- No acceptance reaches the clock. -/
theorem exec_clk {i : Instr} (hs : exec i s = .next t) : t.clk = s.clk := by
  cases i with
  | nop => rcases execNop_next hs with rfl | rfl <;> rfl
  | init => rcases execInit_next hs with ⟨c, rfl⟩ | ⟨-, -, -, rfl⟩ <;> rfl
  | render => rcases execRender_next hs with ⟨c, rfl⟩ | ⟨-, -, -, -, -, -, rfl⟩ <;> rfl
  | cleanup => rcases execCleanup_next hs with ⟨c, rfl⟩ | ⟨-, -, rfl⟩ | ⟨-, -, rfl⟩ <;> rfl

/-- A HOST turn leaves the clock. -/
theorem hostStep_clk (hs : hostStep s = .next t) : t.clk = s.clk := by
  unfold hostStep at hs
  split at hs
  · cases hs; rfl
  · rcases hostStmt_next hs with ⟨i, hi⟩ | ⟨_, -, rfl⟩ | ⟨_, _, rfl⟩ | ⟨_, _, -, -, rfl⟩
    · exact (exec_clk hi).trans rfl
    all_goals rfl

/-- DMA_STOP leaves the clock to what follows it. -/
theorem stopStep_clk {u : StopPc} {label : StopPc → Pc} {exit : State → State} {d : Draw}
    (hs : stopStep u label exit d s = .next t) (hexit : ∀ v, (exit v).clk = v.clk) : t.clk = s.clk := by
  rcases stopStep_next hs with ⟨-, x, rfl⟩ | ⟨-, rfl⟩ | ⟨x, -, -, e, -⟩ | ⟨-, rfl⟩
  · exact hexit _
  · rfl
  · rw [e]; rfl
  · rfl

/-- SEQ reads BUSY and never changes it: the clock sequences write the clock's other fields, the other steps none. -/
theorem seqStep_clkBusy {d : Draw} (hs : seqStep d s = .next t) : t.clk.busy = s.clk.busy := by
  cases hp : s.sqr.pc <;> simp only [seqStep, hp] at hs
  case i6 cb buf c =>
    obtain ⟨x, pc, e, hbusy, -⟩ := clkConfigureStep_eq c (.i6 cb buf) (.i7 cb buf) s
    cases hs
    rw [e]; exact hbusy
  case q2 c =>
    obtain ⟨x, pc, e, hbusy, -⟩ := clkStopStep_eq c .q2 .q3 s
    cases hs
    rw [e]; exact hbusy
  all_goals suffices hclk : t.clk = s.clk by rw [hclk]
  case done | i7 | i9 | iF | p4 | q4 => cases hs; rfl
  case i1 => rcases initAllocCb_next hs with rfl | ⟨_, -, -, -, rfl⟩ <;> rfl
  case i2 => obtain ⟨-, rfl⟩ := initZeroCb_next hs; rfl
  case i3 => unfold initCheckLen at hs; split_ifs at hs <;> cases hs <;> rfl
  case i4 => rcases initAllocBuf_next hs with rfl | ⟨_, -, -, -, rfl⟩ <;> rfl
  case i5 => obtain ⟨-, rfl⟩ := initFillCb_next hs; rfl
  case i8 cb buf g =>
    unfold initGpio at hs
    rcases gpioStep_cases g (.i8 cb buf) (.i9 cb buf) s with e | ⟨_, _, e, -⟩ <;> rw [e] at hs <;> cases hs
    rfl
  case p1 | q1 => exact stopStep_clk hs fun _ => rfl
  case p2 => rcases encodeStep_next hs with ⟨-, rfl⟩ | ⟨_, _, -, -, rfl⟩ <;> rfl
  case p3 => obtain ⟨x, e, -⟩ := startStep_next hs; rw [e]; rfl
  case q3 => obtain ⟨l, e⟩ := releaseAll_eq s; cases hs; rw [e]; rfl

/-- Every agent but ENV, and the reset input, leaves BUSY (R114). -/
theorem takeTurn_clkBusy {u : Turn} (hu : ∀ b, u ≠ .env b) (hs : takeTurn u s = .next t) : t.clk.busy = s.clk.busy := by
  cases u with
  | env b => exact absurd rfl (hu b)
  | seq d => exact seqStep_clkBusy hs
  | host => rw [hostStep_clk hs]
  | dma =>
    rcases dmaStep_next hs with rfl | ⟨-, -, -, rfl⟩ | ⟨-, -, -, -, -, -, rfl⟩ | ⟨-, -, -, -, rfl⟩ <;> rfl
  | dmaError bits active =>
    cases hs
    rcases dmaErrorStep_eq bits active s with e | ⟨-, -, e⟩
    · rw [e]
    · rw [e]; rfl
  | sink => cases hs; obtain ⟨x, e⟩ := sinkStep_eq s; rw [e]; rfl
  | blockReset => cases hs; rfl
  | reclaim r =>
    cases hs
    rcases platformReclaim_cases r s with e | ⟨-, -, e⟩
    · rw [e]
    · rw [e]; rfl

/-- ENV may raise BUSY while ENAB is 1 and lower it while ENAB is 0. -/
theorem takeTurn_env {b : Bool} (h : s.clk.enab = b) :
    takeTurn (.env b) s = .next (s.setClk { s.clk with busy := b }) :=
  congrArg Host.Outcome.next (if_pos h)

/-- Against ENAB an ENV turn does nothing. -/
theorem takeTurn_env_of_ne {b : Bool} (h : s.clk.enab ≠ b) : takeTurn (.env b) s = .next s :=
  congrArg Host.Outcome.next (if_neg h)

/-- A SEQ turn at the head of a run. -/
theorem runTurns_seq {d : Draw} {ts : List Turn} (h : seqStep d s = .next t) :
    runTurns (.seq d :: ts) s = runTurns ts t :=
  runTurns_cons h

/-! ## ClkStop (R113), as a part of INIT and of CLEANUP -/

/-- At the labels `label` a SEQ turn performs ClkStop, with `exit` after it. -/
def RunsClkStop (label : ClkStopPc → Pc) (exit : Pc) : Prop :=
  ∀ (d : Draw) (c : ClkStopPc) (s : State), s.sqr.pc = label c → seqStep d s = .next (clkStopStep c label exit s)

theorem runsClkStop_init (cb buf : Region) : RunsClkStop (fun c => .i6 cb buf (.stop c)) (.i6 cb buf .div) :=
  fun _ _ _ hp => by rw [seqStep, hp]; rfl

theorem runsClkStop_cleanup : RunsClkStop .q2 .q3 :=
  fun _ _ _ hp => by rw [seqStep, hp]; rfl

/-- The wait holds while BUSY is 1. -/
theorem RunsClkStop.wait_busy (h : RunsClkStop label exit) (d : Draw) (hp : s.sqr.pc = label .waitLow)
    (hbusy : s.clk.busy = true) : seqStep d s = .next s :=
  (h d .waitLow s hp).trans (congrArg Host.Outcome.next (if_pos hbusy))

/-- The wait ends where BUSY is 0. -/
theorem RunsClkStop.wait_ends (h : RunsClkStop label exit) (d : Draw) (hp : s.sqr.pc = label .waitLow)
    (hbusy : s.clk.busy = false) : seqStep d s = .next (s.setPc exit) :=
  (h d .waitLow s hp).trans (congrArg Host.Outcome.next (if_neg (by simp [hbusy])))

/-- ENAB found 0: the wait follows the read, and nothing is written. -/
theorem RunsClkStop.read_disabled (h : RunsClkStop label exit) (d : Draw) (hp : s.sqr.pc = label .read)
    (henab : s.clk.enab = false) : seqStep d s = .next (s.setPc (label .waitLow)) := by
  rw [h d .read s hp, clkStopStep, henab]; rfl

/-- Both flags found 0: ClkStop ends without a write. -/
theorem RunsClkStop.run_disabled (h : RunsClkStop label exit) (d : Draw) (hp : s.sqr.pc = label .read)
    (henab : s.clk.enab = false) (hbusy : s.clk.busy = false) : runTurns [.seq d, .seq d] s = .next (s.setPc exit) :=
  (runTurns_seq (h.read_disabled d hp henab)).trans (runTurns_seq (h.wait_ends d rfl hbusy))

/-- ENAB found 1: the write after the read clears it. -/
theorem RunsClkStop.read_enabled (h : RunsClkStop label exit) (d : Draw) (hp : s.sqr.pc = label .read)
    (henab : s.clk.enab = true) {b : Bool} (hbusy : s.clk.busy = b) : runTurns [.seq d, .seq d] s =
      .next ((s.setClk (stoppedClk s.cfg s.clk b)).setPc (label .waitLow)) := by
  subst hbusy
  have hread : seqStep d s = .next (s.setPc (label (.write s.clk.src s.clk.mash))) := by
    rw [h d .read s hp, clkStopStep, henab]; rfl
  exact (runTurns_seq hread).trans (runTurns_seq (h d (.write s.clk.src s.clk.mash) _ rfl))

/-- With ENAB 0, ENV's lowering of BUSY ends the wait. -/
theorem RunsClkStop.wait_env (h : RunsClkStop label exit) (d : Draw) (hp : s.sqr.pc = label .waitLow)
    (henab : s.clk.enab = false) : runTurns [.env false, .seq d] s =
      .next ((s.setClk { s.clk with busy := false }).setPc exit) := by
  rw [runTurns_cons (takeTurn_env henab)]
  exact runTurns_seq (h.wait_ends d hp rfl)

/-! ## ClkConfigure (R111) past its ClkStop -/

/-- The wait holds while BUSY is 0. -/
theorem seqStep_waitHigh_not_busy (d : Draw) (hp : s.sqr.pc = .i6 cb buf .waitHigh) (hbusy : s.clk.busy = false) :
    seqStep d s = .next s := by
  rw [seqStep, hp]
  exact congrArg Host.Outcome.next (if_neg (by simp [hbusy]))

/-- The wait ends where BUSY is 1. -/
theorem seqStep_waitHigh_busy (d : Draw) (hp : s.sqr.pc = .i6 cb buf .waitHigh) (hbusy : s.clk.busy = true) :
    seqStep d s = .next (s.setPc (.i7 cb buf)) := by
  rw [seqStep, hp]
  exact congrArg Host.Outcome.next (if_pos hbusy)

/-- The divisor is written first. -/
theorem seqStep_clkDiv (d : Draw) (hp : s.sqr.pc = .i6 cb buf .div) :
    seqStep d s = .next ((s.setClk { s.clk with divi := s.cfg.clkDivisor, divf := 0 }).setPc (.i6 cb buf .source)) := by
  rw [seqStep, hp]; rfl

/-- The divisor, then the source with ENAB 0. -/
theorem runTurns_clkSource (d : Draw) (hp : s.sqr.pc = .i6 cb buf .div) {b : Bool} (hbusy : s.clk.busy = b) :
    runTurns [.seq d, .seq d] s =
      .next ((s.setClk (configuredClk s.cfg false b)).setPc (.i6 cb buf .enable)) := by
  subst hbusy
  exact runTurns_seq (seqStep_clkDiv d hp)

/-- The divisor, the source with ENAB 0, then ENAB 1. -/
theorem runTurns_clkEnable (d : Draw) (hp : s.sqr.pc = .i6 cb buf .div) {b : Bool} (hbusy : s.clk.busy = b) :
    runTurns [.seq d, .seq d, .seq d] s =
      .next ((s.setClk (configuredClk s.cfg true b)).setPc (.i6 cb buf .waitHigh)) :=
  runTurns_append (ts := [.seq d, .seq d]) (runTurns_clkSource d hp hbusy)

/-- With the clock programmed and enabled, ENV's raising of BUSY ends the wait. -/
theorem runTurns_clkStarted (d : Draw) (hp : s.sqr.pc = .i6 cb buf .div) :
    runTurns [.seq d, .seq d, .seq d, .env true, .seq d] s =
      .next ((s.setClk (configuredClk s.cfg true true)).setPc (.i7 cb buf)) :=
  calc runTurns [.seq d, .seq d, .seq d, .env true, .seq d] s
    _ = runTurns [.env true, .seq d] _ := runTurns_append (runTurns_clkEnable d hp rfl)
    _ = runTurns [.seq d] _ := runTurns_cons (takeTurn_env (b := true) rfl)
    _ = _ := runTurns_seq (seqStep_waitHigh_busy d rfl rfl)

/-! ## GpioSetFunction (R120, R121) -/

/-- The bits of a word after a field's insertion: the code's inside the field, the word's own elsewhere. -/
theorem fselInsert_getLsbD (w : Word) {sh : Nat} (code : BitVec 3) (hsh : sh + 3 ≤ 32) (i : Nat) :
    (fselInsert w sh code).getLsbD i = if sh ≤ i ∧ i < sh + 3 then code.getLsbD (i - sh) else w.getLsbD i := by
  by_cases hi : i < 32
  · have hmask : (0b111 : Word) = (BitVec.allOnes 3).zeroExtend 32 := rfl
    have hfield : ∀ v : BitVec 3, (v.zeroExtend 32 <<< sh).getLsbD i = (!decide (i < sh) && v.getLsbD (i - sh)) :=
      fun v => by simp [hi]
    rw [fselInsert, hmask, BitVec.getLsbD_or, BitVec.getLsbD_and, BitVec.getLsbD_not, hfield, hfield,
      BitVec.getLsbD_allOnes, decide_eq_true hi]
    split_ifs with h
    · simp [Nat.not_lt.2 h.1, show i - sh < 3 by omega]
    · obtain hlow | hhigh : i < sh ∨ sh + 3 ≤ i := by omega
      · simp [hlow]
      · simp [show ¬ i - sh < 3 by omega, BitVec.getLsbD_of_ge code (i - sh) (by omega)]
  · rw [if_neg (by omega), BitVec.getLsbD_of_ge _ i (by omega), BitVec.getLsbD_of_ge _ i (by omega)]

/-- The field, read as a number, is the code. -/
theorem fselInsert_field (w : Word) {sh : Nat} (code : BitVec 3) (hsh : sh + 3 ≤ 32) :
    (fselInsert w sh code).toNat / 2 ^ sh % 8 = code.toNat := by
  refine Nat.eq_of_testBit_eq fun i => ?_
  rw [show 8 = 2 ^ 3 from rfl, Nat.testBit_mod_two_pow, Nat.testBit_div_two_pow, BitVec.testBit_toNat,
    BitVec.testBit_toNat, fselInsert_getLsbD w code hsh, Nat.add_sub_cancel]
  by_cases hi : i < 3
  · rw [decide_eq_true hi, Bool.true_and, if_pos (by omega)]
  · rw [decide_eq_false hi, Bool.false_and, BitVec.getLsbD_of_ge code i (by omega)]

/-- A pin's field lies in its word. -/
theorem fselShift_le {p : Params} (h : p.ok = true) (pin : BitVec 8) : fselShift p pin + 3 ≤ 32 := by
  obtain ⟨-, -, -, hpos, hfit⟩ := Params.ok_sizes h
  have hlt : pin.toNat % p.fselPerWord < p.fselPerWord := Nat.mod_lt _ hpos
  unfold fselShift
  omega

theorem funcCode_of_lt {p : Params} {func : BitVec 8} (h : func.toNat < 6) :
    funcCode p func = some p.gpioFuncCode[func.toNat] := dif_pos h

theorem funcCode_of_ge {p : Params} {func : BitVec 8} (h : ¬ func.toNat < 6) : funcCode p func = none := dif_neg h

/-- A pin or a function out of range faults at the first operation. -/
theorem seqStep_gpio_outOfRange (d : Draw) (hp : s.sqr.pc = .i8 cb buf .read)
    (h : ¬(s.sqr.pin.toNat < s.cfg.gpioPins ∧ s.sqr.func.toNat < 6)) : seqStep d s = .fault .gpioRange := by
  rw [seqStep, hp]
  show gpioStep .read _ _ s = _
  unfold gpioStep
  by_cases hf : s.sqr.func.toNat < 6
  · rw [funcCode_of_lt hf]
    exact if_neg fun hpin => h ⟨hpin, hf⟩
  · rw [funcCode_of_ge hf]

/-- The function selects with the code of `func` in the field of `pin` (R121). -/
def fselWith (p : Params) (f : Vector Word 256) (pin : BitVec 8) (code : BitVec 3) : Vector Word 256 :=
  f.set (fselIndex p pin) (fselInsert f[fselIndex p pin] (fselShift p pin) code)

/-- With pin and function in range, the read and the write insert the function's code. -/
theorem runTurns_gpio (d : Draw) (hp : s.sqr.pc = .i8 cb buf .read) (hpin : s.sqr.pin.toNat < s.cfg.gpioPins)
    (hf : s.sqr.func.toNat < 6) : runTurns [.seq d, .seq d] s =
      .next ((s.setFsel (fselWith s.cfg s.fsel s.sqr.pin s.cfg.gpioFuncCode[s.sqr.func.toNat])).setPc (.i9 cb buf)) := by
  have hread : seqStep d s = .next (s.setPc (.i8 cb buf (.write
      (fselInsert s.fsel[fselIndex s.cfg s.sqr.pin] (fselShift s.cfg s.sqr.pin)
        s.cfg.gpioFuncCode[s.sqr.func.toNat])))) := by
    rw [seqStep, hp]
    show gpioStep .read _ _ s = _
    unfold gpioStep
    rw [funcCode_of_lt hf]
    exact if_pos hpin
  exact runTurns_seq hread

/-- Another word of the function selects is as before. -/
theorem fselWith_other (p : Params) (f : Vector Word 256) (pin : BitVec 8) (code : BitVec 3) {n : Nat} (hn : n < 256)
    (h : n ≠ pin.toNat / p.fselPerWord) : (fselWith p f pin code)[n] = f[n] :=
  Vector.getElem_set_ne _ hn h.symm

/-- The pin's word has the code inserted. -/
theorem fselWith_same (p : Params) (f : Vector Word 256) (pin : BitVec 8) (code : BitVec 3) {n : Nat} (hn : n < 256)
    (h : n = pin.toNat / p.fselPerWord) : (fselWith p f pin code)[n] = fselInsert f[n] (fselShift p pin) code := by
  subst h
  exact Vector.getElem_set_self _

end

/-! ## The obligations about the ports -/

/-- Settles O29: each wait tests the flag it awaits, and of all turns ENV's alone write the clock's BUSY. -/
theorem waitsHold : Obligations.WaitsHold := by
  intro s cb buf d
  refine ⟨seqStep_waitHigh_not_busy d, (runsClkStop_init cb buf).wait_busy d, runsClkStop_cleanup.wait_busy d,
    fun hok hp hactive herr => ?_, fun u t => takeTurn_clkBusy, fun henab => ?_, fun henab => ?_⟩
  · have hwait : ∀ label exit, stopStep .s1 label exit d s = .next s := fun label exit => by
      rw [stopStep_s1 hok, (Dma.error_false_iff s.dma).2 herr, hactive]
      rfl
    obtain hp | hp := hp
    · rw [seqStep, hp]; exact hwait .p1 enterEncode
    · rw [seqStep, hp]; exact hwait .q1 _
  · exact ⟨takeTurn_env henab, takeTurn_env_of_ne (by simp [henab])⟩
  · exact ⟨takeTurn_env henab, takeTurn_env_of_ne (by simp [henab])⟩

/-- Settles O31: the read faults out of range; else the write inserts the code into the pin's field of its word. -/
theorem gpioFunctionSet : Obligations.GpioFunctionSet := by
  intro s cb buf d hp
  refine ⟨seqStep_gpio_outOfRange d hp, fun hok hpin hf =>
    ⟨fselWith s.cfg s.fsel s.sqr.pin s.cfg.gpioFuncCode[s.sqr.func.toNat], runTurns_gpio d hp hpin hf,
      fun n hn hne => fselWith_other _ _ _ _ hn hne, fun n hn heq => ?_⟩⟩
  have hfit := fselShift_le hok s.sqr.pin
  rw [fselWith_same _ _ _ _ hn heq]
  refine ⟨fselInsert_field _ _ hfit, fun i hi => ?_⟩
  rw [fselInsert_getLsbD _ _ hfit, if_neg (by unfold fselShift; omega)]

/-- Settles O28: each run is ClkStop by the ENAB and BUSY it finds, and ClkConfigure's writes after it. -/
theorem clockSequences : Obligations.ClockSequences := by
  intro s cb buf d
  have hinit := runsClkStop_init cb buf
  have hcleanup := runsClkStop_cleanup
  refine ⟨fun hp henab hbusy => ?_, fun hp henab hbusy => ?_, fun hp henab hbusy => ?_, fun hp henab hbusy => ?_,
    fun hp henab hbusy => ?_, fun hp henab hbusy => ?_⟩
  · have hstop : runTurns [.seq d, .seq d] s = .next (s.setPc (.i6 cb buf .div)) :=
      hinit.run_disabled d hp henab hbusy
    exact ⟨hstop, (runTurns_append hstop).trans (runTurns_seq (seqStep_clkDiv d rfl)),
      (runTurns_append hstop).trans (runTurns_clkSource d rfl hbusy),
      (runTurns_append hstop).trans (runTurns_clkEnable d rfl hbusy),
      (runTurns_append hstop).trans (runTurns_clkStarted d rfl)⟩
  · have hclear := hinit.read_enabled d hp henab hbusy
    have hstop := (runTurns_append hclear).trans (hinit.wait_env d rfl rfl)
    exact ⟨hclear, hstop, (runTurns_append hstop).trans (runTurns_seq (seqStep_clkDiv d rfl)),
      (runTurns_append hstop).trans (runTurns_clkStarted d rfl)⟩
  · calc runTurns [.seq d, .seq d, .seq d, .env false, .seq d] s
      _ = runTurns [.seq d, .env false, .seq d] _ := runTurns_append (hcleanup.read_enabled d hp henab hbusy)
      _ = runTurns [.env false, .seq d] _ := runTurns_seq (hcleanup.wait_busy d rfl rfl)
      _ = _ := hcleanup.wait_env d rfl rfl
  · calc runTurns [.seq d, .seq d, .seq d] s
      _ = runTurns [.seq d] _ := runTurns_append (hcleanup.read_enabled d hp henab hbusy)
      _ = _ := runTurns_seq (hcleanup.wait_ends d rfl rfl)
  · calc runTurns [.seq d, .seq d, .env false, .seq d] s
      _ = runTurns [.seq d, .env false, .seq d] _ := runTurns_seq (hcleanup.read_disabled d hp henab)
      _ = runTurns [.env false, .seq d] _ := runTurns_seq (hcleanup.wait_busy d rfl hbusy)
      _ = _ := hcleanup.wait_env d rfl henab
  · exact hcleanup.run_disabled d hp henab hbusy

/-- Settles O30: I7 is PwmArm. -/
theorem pwmArmed : Obligations.PwmArmed := by
  intro s cb buf d hp
  rw [seqStep, hp]
  rfl

end Sys2Proof.Machine

/-!
PROOFS. The pixel encoder (spec/41_pixel_encoder.md): the expansion of a byte as the symbols of its bits (R131 to R135), the
buffer's length (R136, R137), the regions of an encoding (R140, R146), the wire's bits (R141, R189), and ENCODE, position by
position (R142, R143).
-/

namespace Sys2Proof.Machine

/-! ## Bits, most significant first -/

/-- The `w` low bits of a number, the most significant first: the order in which the wire carries them (R141). -/
def msbBits (w n : Nat) : List Bool := (List.range w).map fun i => n.testBit (w - 1 - i)

/-- The high bits come before the low ones. -/
theorem msbBits_add (v w n : Nat) : msbBits (v + w) n = msbBits v (n >>> w) ++ msbBits w n := by
  simp only [msbBits, List.range_add, List.map_append, List.map_map]
  congr 1
  · refine List.map_congr_left fun i hi => ?_
    have hi : i < v := List.mem_range.1 hi
    rw [Nat.testBit_shiftRight, show v + w - 1 - i = w + (v - 1 - i) by omega]
  · refine List.map_congr_left fun i _ => ?_
    rw [Function.comp_apply, show v + w - 1 - (v + i) = w - 1 - i by omega]

/-- A `w`-bit number appended below another gives its bits after the other's. -/
theorem msbBits_mul_add (v w e : Nat) {x : Nat} (hx : x < 2 ^ w) :
    msbBits (v + w) (e * 2 ^ w + x) = msbBits v e ++ msbBits w x := by
  have hhigh : (e * 2 ^ w + x) >>> w = e := by
    rw [Nat.shiftRight_eq_div_pow, Nat.mul_comm, Nat.mul_add_div (Nat.two_pow_pos w), Nat.div_eq_of_lt hx, Nat.add_zero]
  have hlow : msbBits w (e * 2 ^ w + x) = msbBits w x := by
    refine List.map_congr_left fun i hi => ?_
    have hi : i < w := List.mem_range.1 hi
    rw [Nat.mul_comm, Nat.testBit_two_pow_mul_add e hx, if_pos (by omega)]
  rw [msbBits_add, hhigh, hlow]

/-- Numbers of `w` bits concatenated by a fold, as `E(x)` is, give their bits one after another. -/
theorem msbBits_foldl {α : Type} (w : Nat) (f : α → Nat) (hf : ∀ a, f a < 2 ^ w) (l : List α) (v e : Nat) :
    msbBits (v + l.length * w) (l.foldl (fun e a => e * 2 ^ w + f a) e) =
      msbBits v e ++ l.flatMap fun a => msbBits w (f a) := by
  induction l generalizing v e with
  | nil => simp
  | cons a l ih =>
    rw [List.length_cons, Nat.add_one_mul, Nat.add_comm (l.length * w), ← Nat.add_assoc, List.foldl_cons, ih,
      msbBits_mul_add v w e (hf a), List.flatMap_cons, List.append_assoc]

/-- The bytes of a number, the most significant first, give its bits. -/
theorem msbBits_bytes (m n : Nat) :
    ((List.range m).flatMap fun i => msbBits 8 (n >>> (8 * m - 8 - 8 * i))) = msbBits (8 * m) n := by
  induction m generalizing n with
  | zero => rfl
  | succ m ih =>
    have hhigh : ∀ i ∈ List.range m, msbBits 8 (n >>> (8 * (m + 1) - 8 - 8 * i)) =
        msbBits 8 (n >>> 8 >>> (8 * m - 8 - 8 * i)) := fun i hi => by
      have hi : i < m := List.mem_range.1 hi
      rw [← Nat.shiftRight_add, show 8 * (m + 1) - 8 - 8 * i = 8 + (8 * m - 8 - 8 * i) by omega]
    rw [List.range_succ, List.flatMap_append, List.flatMap_congr hhigh, ih, List.flatMap_singleton,
      show 8 * (m + 1) - 8 - 8 * m = 0 by omega, Nat.shiftRight_zero, Nat.mul_add_one, msbBits_add]

/-- The low eight bits of a number, as a byte's. -/
theorem byteBits_ofNat (n : Nat) : byteBits (BitVec.ofNat 8 n) = msbBits 8 n := by
  refine List.map_congr_left (l := List.range 8) (f := fun i => (BitVec.ofNat 8 n).getLsbD (7 - i)) fun i _ => ?_
  rw [BitVec.getLsbD_ofNat, decide_eq_true (by omega), Bool.true_and]

/-! ## Symbols (R131 to R133) -/

/-- The leading ones of a bit's symbol fit the symbol (R132). -/
theorem symbolOnes_le {p : Params} (h : p.ok = true) (b : Bool) : (if b then p.aHigh else p.aLow) ≤ p.k := by
  obtain ⟨hk, -, hlt, hhigh, -⟩ := Params.ok_constraints h
  cases b <;> simp <;> omega

theorem sym_eq (p : Params) (b : Bool) : sym p b = symbolOf p.k (if b then p.aHigh else p.aLow) := by
  cases b <;> rfl

/-- A symbol has `K` bits. -/
theorem symbolOf_lt {k a : Nat} (h : a ≤ k) : symbolOf k a < 2 ^ k := by
  rw [symbolOf, Nat.one_shiftLeft, Nat.shiftLeft_eq]
  calc (2 ^ a - 1) * 2 ^ (k - a)
    _ < 2 ^ a * 2 ^ (k - a) :=
      Nat.mul_lt_mul_of_pos_right (Nat.sub_lt (Nat.two_pow_pos a) Nat.one_pos) (Nat.two_pow_pos _)
    _ = 2 ^ k := by rw [← Nat.pow_add, Nat.add_sub_cancel' h]

/-- The bits of a symbol's number are its ones, then its zeros. -/
theorem msbBits_symbolOf {k a : Nat} (h : a ≤ k) :
    msbBits k (symbolOf k a) = List.replicate a true ++ List.replicate (k - a) false := by
  have hbit : ∀ i < k, (symbolOf k a).testBit (k - 1 - i) = decide (i < a) := fun i hi => by
    rw [symbolOf, Nat.one_shiftLeft, Nat.testBit_shiftLeft, Nat.testBit_two_pow_sub_one, ← Bool.decide_and, decide_eq_decide]
    omega
  apply List.ext_getElem
  · simp [msbBits, h]
  · intro i hi _
    have hi : i < k := by simpa [msbBits] using hi
    simp only [msbBits, List.getElem_map, List.getElem_range, hbit i hi, List.getElem_append, List.length_replicate,
      List.getElem_replicate]
    split_ifs with ha <;> simp [ha]

theorem msbBits_sym {p : Params} (h : p.ok = true) (b : Bool) : msbBits p.k (sym p b) = symbolBits p b := by
  rw [sym_eq, msbBits_symbolOf (symbolOnes_le h b)]
  rfl

theorem sym_lt {p : Params} (h : p.ok = true) (b : Bool) : sym p b < 2 ^ p.k := by
  rw [sym_eq]
  exact symbolOf_lt (symbolOnes_le h b)

/-! ## The length of a buffer (R136) -/

/-- Rounding up gives a multiple of 4 and adds at most 3. -/
theorem bufLen_bounds (p : Params) (n : Nat) : bufLen p n % 4 = 0 ∧ n * p.c * p.k + p.r ≤ bufLen p n ∧
    bufLen p n ≤ n * p.c * p.k + p.r + 3 := by
  unfold bufLen roundup4
  omega

theorem bufLen_le_of_le (p : Params) {n m : Nat} (h : n ≤ m) : bufLen p n ≤ bufLen p m := by
  have hgroups : n * p.c * p.k ≤ m * p.c * p.k := Nat.mul_le_mul_right _ (Nat.mul_le_mul_right _ h)
  have hn := bufLen_bounds p n
  have hm := bufLen_bounds p m
  omega

/-- The groups of an accepted input and the padding fit the buffer (R138, R139). -/
theorem groups_le_bufLen {p : Params} {len n : Nat} (h : len ≤ cap p n) : len * p.k + p.r ≤ bufLen p n := by
  have hgroups : len * p.k ≤ n * p.c * p.k := Nat.mul_le_mul_right _ h
  have hn := bufLen_bounds p n
  omega

/-! ## The encoding of an input (R146) -/

theorem expandBytes_length (p : Params) (x : Byte) : (expandBytes p x).length = p.k := by simp [expandBytes]

/-- Where every group has `k` members, the place `j` of the whole is the place `j % k` of the group `j / k`. -/
theorem getElem?_flatMap_of_length {α β : Type} {f : α → List β} {k : Nat} (hf : ∀ a, (f a).length = k) (hk : 0 < k)
    (l : List α) (j : Nat) : (l.flatMap f)[j]? = l[j / k]?.bind fun a => (f a)[j % k]? := by
  induction l generalizing j with
  | nil => simp
  | cons a l ih =>
    rw [List.flatMap_cons, List.getElem?_append, hf]
    split_ifs with hj
    · rw [Nat.div_eq_of_lt hj, Nat.mod_eq_of_lt hj]
      rfl
    · obtain ⟨i, rfl⟩ := Nat.exists_eq_add_of_le (Nat.le_of_not_lt hj)
      rw [Nat.add_sub_cancel_left, ih, Nat.add_div_left _ hk, Nat.add_mod_left]
      rfl

theorem flatMap_expandBytes_length (p : Params) (bytes : List Byte) :
    (bytes.flatMap (expandBytes p)).length = bytes.length * p.k := by
  simp [List.length_flatMap, expandBytes_length]

@[simp] theorem encodeBytes_length (p : Params) (bytes : List Byte) (len : Nat) :
    (encodeBytes p bytes len).length = len := by
  simp [encodeBytes]

/-- The waveform region: the byte at `j` is byte `j % K` of the group of input byte `j / K` (R135). -/
theorem encodeBytes_getD_waveform (p : Params) {bytes : List Byte} {len j : Nat} (hj : j < bytes.length * p.k)
    (hlen : j < len) :
    (encodeBytes p bytes len).getD j 0 = expandByte p (bytes.getD (j / p.k) 0) (j % p.k) := by
  have hk : 0 < p.k := Nat.pos_of_mul_pos_left (by omega : 0 < bytes.length * p.k)
  have hgroup : j / p.k < bytes.length := (Nat.div_lt_iff_lt_mul hk).2 hj
  rw [encodeBytes, List.getD_eq_getElem?_getD, List.getElem?_take, if_pos hlen,
    List.getElem?_append_left (by rwa [flatMap_expandBytes_length]),
    getElem?_flatMap_of_length (expandBytes_length p) hk, List.getElem?_eq_getElem hgroup]
  simp [expandBytes, Nat.mod_lt _ hk, List.getD_eq_getElem?_getD, hgroup]

/-- The tail: every byte past the groups is zero (R140). -/
theorem encodeBytes_getD_tail (p : Params) {bytes : List Byte} (len : Nat) {j : Nat} (hj : bytes.length * p.k ≤ j) :
    (encodeBytes p bytes len).getD j 0 = 0 := by
  rw [encodeBytes, List.getD_eq_getElem?_getD, List.getElem?_take,
    List.getElem?_append_right (by rwa [flatMap_expandBytes_length]), List.getElem?_replicate]
  split_ifs <;> rfl

/-! ## The bits of a word on the wire (R141, R189) -/

/-- The bytes of a word that is read are those of memory (R64). -/
theorem wordByte_memRead32 (m : Memory) (a : Nat) {i : Nat} (hi : i < 4) :
    wordByte (memRead32 m a) i = memRead m (a + i) := by
  refine BitVec.eq_of_getLsbD_eq fun j hj => ?_
  simp only [wordByte, memRead32, BitVec.getLsbD_extractLsb', BitVec.getLsbD_append, hj, decide_true, Bool.true_and]
  split_ifs <;> congr 2 <;> omega

/-- A word of memory on the wire, in either order, is the bits of its bytes. -/
theorem serialise_memRead32 (m : Memory) (a : Nat) :
    serialise .addressOrder (memRead32 m a) = waveform m a 4 ∧
    serialise .wordMsbFirst (memRead32 m a) = [3, 2, 1, 0].flatMap fun k => byteBits (memRead m (a + k)) := by
  constructor
  · exact List.flatMap_congr (l := [0, 1, 2, 3]) fun k hk => by
      rw [wordByte_memRead32 m a ((by decide : ∀ k ∈ [0, 1, 2, 3], k < 4) k hk)]
  · exact List.flatMap_congr (l := [3, 2, 1, 0]) fun k hk => by
      rw [wordByte_memRead32 m a ((by decide : ∀ k ∈ [3, 2, 1, 0], k < 4) k hk)]

theorem waveform_add (m : Memory) (a v w : Nat) : waveform m a (v + w) = waveform m a v ++ waveform m (a + v) w := by
  simp [waveform, List.range_add, List.flatMap_map, Nat.add_assoc]

/-- The waveform, word by word. -/
theorem waveform_words (m : Memory) (a n : Nat) :
    waveform m a (4 * n) = (List.range n).flatMap fun i => waveform m (a + 4 * i) 4 := by
  induction n with
  | zero => rfl
  | succ n ih => rw [Nat.mul_add_one, waveform_add, ih, List.range_succ, List.flatMap_append, List.flatMap_singleton]

/-! ## Bytes written at rising addresses -/

theorem memWriteList_concat (m : Memory) (a : Nat) (bs : List Byte) (b : Byte) :
    memWriteList m a (bs ++ [b]) = memWrite (memWriteList m a bs) (a + bs.length) b := by
  induction bs generalizing m a with
  | nil => rfl
  | cons c bs ih => rw [List.cons_append, memWriteList, ih, memWriteList, List.length_cons, Nat.add_right_comm, Nat.add_assoc]

/-- A list write leaves each of its bytes at its address. -/
theorem memRead_memWriteList {m : Memory} (h : m.wf = true) {a : Nat} {bs : List Byte}
    (ha : a + bs.length ≤ Config.paSpace) {i : Nat} (hi : i < bs.length) :
    memRead (memWriteList m a bs) (a + i) = bs.getD i 0 := by
  induction bs generalizing m a i with
  | nil => cases hi
  | cons b bs ih =>
    simp only [List.length_cons] at ha hi
    have hwf : (memWrite m a b).wf = true := memWrite_wf h (by omega) b
    cases i with
    | zero =>
      rw [memWriteList, memWriteList_read_outside hwf (by omega) (by omega), memRead_memWrite h, Nat.add_zero,
        if_pos rfl, List.getD_cons_zero]
    | succ i =>
      rw [memWriteList, List.getD_cons_succ, show a + (i + 1) = a + 1 + i by omega]
      exact ih hwf (by omega) (by omega)

section
variable {s : State} {cb buf : Region}

/-! ## The labels of ENCODE (R142) -/

theorem encodePc_read (x : Byte) (hj : s.sqr.j < s.sqr.inLen.toNat * s.cfg.k) (hstart : s.sqr.j % s.cfg.k = 0) :
    encodePc s x = .p2 .read := by
  rw [encodePc, if_pos hj, if_pos hstart]

theorem encodePc_write (x : Byte) (hj : s.sqr.j < s.sqr.inLen.toNat * s.cfg.k) (hmid : s.sqr.j % s.cfg.k ≠ 0) :
    encodePc s x = .p2 (.write x) := by
  rw [encodePc, if_pos hj, if_neg hmid]

theorem encodePc_zero (x : Byte) (hj : s.sqr.inLen.toNat * s.cfg.k ≤ s.sqr.j) (hlen : s.sqr.j < s.regs.bufLen.toNat) :
    encodePc s x = .p2 .zero := by
  rw [encodePc, if_neg (Nat.not_lt.2 hj), if_pos hlen]

theorem encodePc_end (x : Byte) (hj : s.sqr.inLen.toNat * s.cfg.k ≤ s.sqr.j) (hlen : s.regs.bufLen.toNat ≤ s.sqr.j) :
    encodePc s x = .p3 .t1 := by
  rw [encodePc, if_neg (Nat.not_lt.2 hj), if_neg (Nat.not_lt.2 hlen)]

/-- The last byte read matters to the label within its group alone. -/
theorem encodePc_congr {x y : Byte} (h : s.sqr.j < s.sqr.inLen.toNat * s.cfg.k → s.sqr.j % s.cfg.k ≠ 0 → x = y) :
    encodePc s x = encodePc s y := by
  unfold encodePc
  split_ifs with hj hstart
  · rfl
  · rw [h hj hstart]
  · rfl
  · rfl

/-! ## ENCODE, position by position (R142, R143) -/

/-- What ENCODE needs of memory: the input and the buffer are mapped and apart (R73, R76), and the groups fit the buffer. -/
structure EncodeReady (s : State) : Prop where
  memWf : s.mem.wf = true
  widthPos : 0 < s.cfg.k
  bufEnd : s.regs.bufPa.toNat + s.regs.bufLen.toNat ≤ Config.paSpace
  bufMapped : ∀ i, i < s.regs.bufLen.toNat → s.mapped (s.regs.bufPa.toNat + i) = true
  inMapped : ∀ i, i < s.sqr.inLen.toNat → s.mapped (s.sqr.inAddr.toNat + i) = true
  inApart : ∀ i, i < s.sqr.inLen.toNat → s.sqr.inAddr.toNat + i < s.regs.bufPa.toNat ∨
    s.regs.bufPa.toNat + s.regs.bufLen.toNat ≤ s.sqr.inAddr.toNat + i
  groupsFit : s.sqr.inLen.toNat * s.cfg.k ≤ s.regs.bufLen.toNat

/-- A block that holds its pair, with an input RENDER accepted, is ready for ENCODE. -/
theorem Held.encodeReady (h : BlockInv s) (hh : Held s cb buf) (hi : InputOk s) : EncodeReady s := by
  have haddr := hh.addresses h
  obtain ⟨-, hend, hmapped⟩ := h.liveOk.1 buf hh.bufRegion.1
  obtain ⟨hcap, hapart, hinput⟩ := hi
  have hapart : regionsOverlap s.latchedInput buf = false := hapart buf (by rw [hh.1]; simp [AllocState.regions])
  have hk := (Params.ok_constraints h.paramsOk).1
  have hfit := groups_le_bufLen (p := s.cfg) hcap
  constructor
  case memWf => exact h.memWf
  case widthPos => omega
  case bufEnd => rwa [haddr.bufPaReg, haddr.bufLenReg]
  case bufMapped => rw [haddr.bufPaReg, haddr.bufLenReg]; exact (s.mappedRange_iff _ _).1 hmapped
  case inMapped => exact (s.mappedRange_iff _ _).1 hinput
  case inApart => rw [haddr.bufPaReg, haddr.bufLenReg]; exact fun i hi => outside_of_not_overlap hapart hi
  case groupsFit => rw [haddr.bufLenReg, haddr.bufSize]; omega

/-- What ENCODE is to write: the encoding of the latched input, as long as the buffer (R146). -/
def State.encoding (s : State) : List Byte := encodeBytes s.cfg s.inputBytes s.regs.bufLen.toNat

theorem State.encoding_length (s : State) : s.encoding.length = s.regs.bufLen.toNat := encodeBytes_length _ _ _

theorem State.inputBytes_length (s : State) : s.inputBytes.length = s.sqr.inLen.toNat := by simp [State.inputBytes]

theorem State.inputBytes_getD (s : State) {i : Nat} (hi : i < s.sqr.inLen.toNat) :
    s.inputBytes.getD i 0 = memRead s.mem (s.sqr.inAddr.toNat + i) := by
  simp [State.inputBytes, List.getD_eq_getElem?_getD, hi]

/-- ENCODE from `s` at the position `j`: the first `j` bytes of the encoding stand in the buffer, and the label is that
position's; within a group it holds the group's input byte. -/
def encodeAt (s : State) (j : Nat) : State :=
  ((s.setMem (memWriteList s.mem s.regs.bufPa.toNat (s.encoding.take j))).setJ j).setPc
    (encodePc (s.setJ j) (s.inputBytes.getD (j / s.cfg.k) 0))

/-- ENCODE's first step is at position 0. -/
theorem encodeAt_zero (hj : s.sqr.j = 0) (hp : s.sqr.pc = encodePc s 0) : encodeAt s 0 = s := by
  have hself : s.setJ 0 = s := by rw [← hj]; rfl
  have hlabel : encodePc s (s.inputBytes.getD (0 / s.cfg.k) 0) = s.sqr.pc := by
    rw [hp]
    exact encodePc_congr fun _ hmid => absurd (by rw [hj, Nat.zero_mod]) hmid
  rw [encodeAt, hself, hlabel]
  show (s.setJ 0).setPc s.sqr.pc = s
  rw [hself]
  rfl

/-- Past the last position ENCODE goes on to DMA_START. -/
theorem encodeAt_bufLen (h : EncodeReady s) : encodeAt s s.regs.bufLen.toNat = { s with
    mem := memWriteList s.mem s.regs.bufPa.toNat s.encoding
    sqr := { s.sqr with pc := .p3 .t1, j := s.regs.bufLen.toNat } } := by
  rw [encodeAt, encodePc_end (s := s.setJ s.regs.bufLen.toNat) _ h.groupsFit (Nat.le_refl _),
    List.take_of_length_le s.encoding_length.le]
  rfl

/-- A write of the encoding's byte at the position, with the right byte for the rest of its group, moves on by one. -/
theorem encodeStore_encodeAt (h : EncodeReady s) {j : Nat} (hj : j < s.regs.bufLen.toNat) (pc : Pc) {x b : Byte}
    (hb : b = s.encoding.getD j 0)
    (hx : j + 1 < s.sqr.inLen.toNat * s.cfg.k → (j + 1) % s.cfg.k ≠ 0 → x = s.inputBytes.getD ((j + 1) / s.cfg.k) 0) :
    encodeStore x b ((encodeAt s j).setPc pc) = .next (encodeAt s (j + 1)) := by
  have hlen : j < s.encoding.length := by rwa [s.encoding_length]
  have hlabel : encodePc (s.setJ (j + 1)) x = encodePc (s.setJ (j + 1)) (s.inputBytes.getD ((j + 1) / s.cfg.k) 0) :=
    encodePc_congr hx
  have hmem : memWriteList s.mem s.regs.bufPa.toNat (s.encoding.take (j + 1)) =
      memWrite (memWriteList s.mem s.regs.bufPa.toNat (s.encoding.take j)) (s.regs.bufPa.toNat + j) b := by
    rw [← List.take_append_getElem hlen, memWriteList_concat, List.length_take_of_le hlen.le, hb,
      List.getD_eq_getElem _ _ hlen]
  rw [encodeStore_mapped x b (s := (encodeAt s j).setPc pc) (h.bufMapped j hj), encodeAt, encodeAt, hmem, ← hlabel]
  rfl

/-- The writes so far leave the input as it was. -/
theorem memRead_encodeAt_input (h : EncodeReady s) (j : Nat) {i : Nat} (hi : i < s.sqr.inLen.toNat) :
    memRead (encodeAt s j).mem (s.sqr.inAddr.toNat + i) = s.inputBytes.getD i 0 := by
  have hle : (s.encoding.take j).length ≤ s.regs.bufLen.toNat := (List.length_take_le' _ _).trans s.encoding_length.le
  have hend := h.bufEnd
  have hout := h.inApart i hi
  rw [s.inputBytes_getD hi]
  exact memWriteList_read_outside h.memWf (by omega) (by omega)

/-- At the start of a group its input byte is read. -/
theorem seqStep_encodeAt_read (h : EncodeReady s) (d : Draw) {j : Nat} (hj : j < s.sqr.inLen.toNat * s.cfg.k)
    (hstart : j % s.cfg.k = 0) : seqStep d (encodeAt s j) =
      .next ((encodeAt s j).setPc (.p2 (.write (s.inputBytes.getD (j / s.cfg.k) 0)))) := by
  have hp : (encodeAt s j).sqr.pc = .p2 .read := encodePc_read (s := s.setJ j) _ hj hstart
  rw [← memRead_encodeAt_input h j ((Nat.div_lt_iff_lt_mul h.widthPos).2 hj), seqStep, hp]
  exact encodeStep_read (s := encodeAt s j) (h.inMapped _ ((Nat.div_lt_iff_lt_mul h.widthPos).2 hj))

/-- Within a group a byte of its expansion is written. -/
theorem seqStep_encodeAt_write (h : EncodeReady s) (d : Draw) {j : Nat} (hj : j < s.sqr.inLen.toNat * s.cfg.k) :
    seqStep d ((encodeAt s j).setPc (.p2 (.write (s.inputBytes.getD (j / s.cfg.k) 0)))) = .next (encodeAt s (j + 1)) := by
  have hlen := Nat.lt_of_lt_of_le hj h.groupsFit
  refine encodeStore_encodeAt h hlen (.p2 (.write (s.inputBytes.getD (j / s.cfg.k) 0))) ?_ fun _ hmid => ?_
  · exact (encodeBytes_getD_waveform _ (by rwa [s.inputBytes_length]) hlen).symm
  · rw [Nat.succ_div, if_neg (fun hd => hmid (Nat.mod_eq_zero_of_dvd hd)), Nat.add_zero]

/-- Past the groups a zero is written. -/
theorem seqStep_encodeAt_zero (h : EncodeReady s) (d : Draw) {j : Nat} (hj : s.sqr.inLen.toNat * s.cfg.k ≤ j)
    (hlen : j < s.regs.bufLen.toNat) : seqStep d (encodeAt s j) = .next (encodeAt s (j + 1)) := by
  have hp : (encodeAt s j).sqr.pc = .p2 .zero := encodePc_zero (s := s.setJ j) _ hj hlen
  have hbyte : s.encoding.getD j 0 = 0 := encodeBytes_getD_tail _ _ (by rwa [s.inputBytes_length])
  rw [← State.setPc_self hp]
  exact encodeStore_encodeAt h hlen (.p2 .zero) hbyte.symm fun hj' => by omega

/-- One position takes a read and a write at the start of a group, and one write elsewhere. -/
theorem runTurns_encodeAt_succ (h : EncodeReady s) {j : Nat} (hlen : j < s.regs.bufLen.toNat) {ds : List Draw}
    (hds : ds.length = if j < s.sqr.inLen.toNat * s.cfg.k ∧ j % s.cfg.k = 0 then 2 else 1) :
    runTurns (ds.map .seq) (encodeAt s j) = .next (encodeAt s (j + 1)) := by
  split_ifs at hds with hread
  · obtain ⟨hj, hstart⟩ := hread
    obtain ⟨d, e, rfl⟩ := List.length_eq_two.1 hds
    exact (runTurns_seq (seqStep_encodeAt_read h d hj hstart)).trans (runTurns_seq (seqStep_encodeAt_write h e hj))
  · obtain ⟨d, rfl⟩ := List.length_eq_one_iff.1 hds
    refine runTurns_seq (ts := []) ?_
    by_cases hj : j < s.sqr.inLen.toNat * s.cfg.k
    · have hp : (encodeAt s j).sqr.pc = .p2 (.write (s.inputBytes.getD (j / s.cfg.k) 0)) :=
        encodePc_write (s := s.setJ j) _ hj fun hstart => hread ⟨hj, hstart⟩
      rw [← State.setPc_self hp]
      exact seqStep_encodeAt_write h d hj
    · exact seqStep_encodeAt_zero h d (Nat.not_lt.1 hj) hlen

/-- ENCODE's turns up to the position `j`, with `n` input bytes and groups of `k`: one for each byte written and one for each
input byte read, the group of `j` not yet begun (R143). -/
def encodeTurns (k n j : Nat) : Nat := j + min n ((j + k - 1) / k)

theorem encodeTurns_zero {k : Nat} (hk : 0 < k) (n : Nat) : encodeTurns k n 0 = 0 := by
  rw [encodeTurns, Nat.div_eq_of_lt (by omega), Nat.min_zero]

theorem encodeTurns_succ {k : Nat} (hk : 0 < k) (n j : Nat) :
    encodeTurns k n (j + 1) = encodeTurns k n j + if j < n * k ∧ j % k = 0 then 2 else 1 := by
  obtain ⟨q, r, hr, rfl⟩ : ∃ q r, r < k ∧ j = k * q + r :=
    ⟨j / k, j % k, Nat.mod_lt _ hk, (Nat.div_add_mod j k).symm⟩
  have hquot : ∀ i < k, (k * q + i) / k = q := fun i hi => by rw [Nat.mul_add_div hk, Nat.div_eq_of_lt hi, Nat.add_zero]
  have hafter : (k * q + r + 1 + k - 1) / k = q + 1 := by
    rw [show k * q + r + 1 + k - 1 = k * q + r + k by omega, Nat.add_div_right _ hk, hquot r hr]
  have hbefore : (k * q + r + k - 1) / k = if r = 0 then q else q + 1 := by
    split_ifs with hstart
    · rw [show k * q + r + k - 1 = k * q + (k - 1) by omega, hquot _ (by omega)]
    · rw [show k * q + r + k - 1 = k * q + (r - 1) + k by omega, Nat.add_div_right _ hk, hquot _ (by omega)]
  have hgroup : k * q + r < n * k ↔ q < n := by rw [← Nat.div_lt_iff_lt_mul hk, hquot r hr]
  simp only [encodeTurns, hafter, hbefore, hgroup, Nat.mul_add_mod, Nat.mod_eq_of_lt hr]
  split_ifs <;> omega

/-- In all, ENCODE reads each input byte and writes each byte of the buffer once (R144). -/
theorem encodeTurns_of_le {k n len : Nat} (hk : 0 < k) (h : n * k ≤ len) : encodeTurns k n len = n + len := by
  have : n ≤ (len + k - 1) / k := (Nat.le_div_iff_mul_le hk).2 (by omega)
  rw [encodeTurns, Nat.min_eq_left this, Nat.add_comm]

/-- ENCODE's run from its first position to the position `j`. -/
theorem runTurns_encode (h : EncodeReady s) {j : Nat} (hj : j ≤ s.regs.bufLen.toNat) {ds : List Draw}
    (hds : ds.length = encodeTurns s.cfg.k s.sqr.inLen.toNat j) :
    runTurns (ds.map .seq) (encodeAt s 0) = .next (encodeAt s j) := by
  induction j generalizing ds with
  | zero =>
    rw [encodeTurns_zero h.widthPos] at hds
    rw [List.length_eq_zero_iff.1 hds]
    rfl
  | succ j ih =>
    rw [encodeTurns_succ h.widthPos] at hds
    rw [← List.take_append_drop (encodeTurns s.cfg.k s.sqr.inLen.toNat j) ds, List.map_append,
      runTurns_append (ih (by omega) (by rw [List.length_take]; omega))]
    exact runTurns_encodeAt_succ h hj (by rw [List.length_drop]; omega)

end

/-! ## The obligations about the encoder -/

/-- Settles O37: each position's read and write keep to `encodeAt`, which at the buffer's end holds the whole encoding. -/
theorem encodeWritesBuffer : Obligations.EncodeWritesBuffer := by
  intro s cb buf ds h hh _ hi hj hp hds
  have hready := hh.encodeReady h hi
  have haddr := hh.addresses h
  have hrun := runTurns_encode hready (Nat.le_refl _) (ds := ds)
    (by rw [encodeTurns_of_le hready.widthPos hready.groupsFit, haddr.bufLenReg, hds])
  rw [encodeAt_zero hj hp, encodeAt_bufLen hready, State.encoding, haddr.bufPaReg, haddr.bufLenReg] at hrun
  have hend : buf.base + (encodeBytes s.cfg s.inputBytes buf.size).length ≤ Config.paSpace := by
    rw [encodeBytes_length]; exact haddr.bufEnd
  refine ⟨_, _, hrun, fun i hi => ?_, fun a ha => ?_⟩
  · exact memRead_memWriteList h.memWf hend (by rwa [encodeBytes_length])
  · exact memWriteList_read_outside h.memWf hend (by rwa [encodeBytes_length])

/-- Settles O33: both sides are the bits of `E(x)`, cut into bytes on the one side and into symbols on the other. -/
theorem expansionIsSymbols : Obligations.ExpansionIsSymbols := by
  intro p x h
  have hsymbols : msbBits (8 * p.k) (expand p x) =
      [7, 6, 5, 4, 3, 2, 1, 0].flatMap fun i => msbBits p.k (sym p (x.getLsbD i)) := by
    have hfold := msbBits_foldl p.k (fun i => sym p (x.getLsbD i)) (fun i => sym_lt h _) [7, 6, 5, 4, 3, 2, 1, 0] 0 0
    rwa [Nat.zero_add] at hfold
  calc (expandBytes p x).flatMap byteBits
    _ = (List.range p.k).flatMap fun i => msbBits 8 (expand p x >>> (8 * p.k - 8 - 8 * i)) := by
      simp only [expandBytes, List.flatMap_map, expandByte, byteBits_ofNat]
    _ = msbBits (8 * p.k) (expand p x) := msbBits_bytes p.k _
    _ = [7, 6, 5, 4, 3, 2, 1, 0].flatMap fun i => symbolBits p (x.getLsbD i) := by simp only [hsymbols, msbBits_sym h]
    _ = (byteBits x).flatMap (symbolBits p) := by rw [byteBits, List.flatMap_map]

/-- Settles O36: the groups fill the waveform region and zeros the tail, which the capacity leaves `R` bytes at least. -/
theorem encodingRegions : Obligations.EncodingRegions := by
  intro p bytes n h hcap
  have hfit := groups_le_bufLen hcap
  refine ⟨encodeBytes_length _ _ _, fun i k hi hk => ?_, fun j hj => encodeBytes_getD_tail p _ hj, hfit⟩
  have hj : i * p.k + k < bytes.length * p.k :=
    calc i * p.k + k < (i + 1) * p.k := by rw [Nat.add_one_mul]; omega
      _ ≤ bytes.length * p.k := Nat.mul_le_mul_right _ hi
  have hdiv : (i * p.k + k) / p.k = i := by
    rw [Nat.mul_comm, Nat.mul_add_div (by omega), Nat.div_eq_of_lt hk, Nat.add_zero]
  have hmod : (i * p.k + k) % p.k = k := by rw [Nat.mul_add_mod_self_right, Nat.mod_eq_of_lt hk]
  rw [encodeBytes_getD_waveform p hj (by omega), hdiv, hmod]

/-- Settles O46: each word's bits are those of its bytes in memory, in the order's turn. -/
theorem wireIsWaveform : Obligations.WireIsWaveform := by
  intro m a n
  constructor
  · rw [waveform_words]
    exact List.flatMap_congr fun i _ => (serialise_memRead32 m _).1
  · exact List.flatMap_congr fun i _ => (serialise_memRead32 m _).2

/-- Settles O34: `1 ≤ A_LOW < A_HIGH ≤ 2` leaves one choice. -/
theorem symbolsForcedForThree : Obligations.SymbolsForcedForThree := by
  intro p h hk
  obtain ⟨-, hlow, hlt, hhigh, -⟩ := Params.ok_constraints h
  have haHigh : p.aHigh = 2 := by omega
  have haLow : p.aLow = 1 := by omega
  simp [sym, symbolOf, hk, haHigh, haLow]

/-- Settles O35: rounding up to a multiple of 4 adds at most 3 and keeps the order. -/
theorem bufferLength : Obligations.BufferLength := by
  intro p n m
  obtain ⟨halign, hlow, hhigh⟩ := bufLen_bounds p n
  exact ⟨halign, fun h => bufLen_le_of_le p h.le, hlow, hhigh⟩

end Sys2Proof.Machine

/-!
PROOFS. The DMA channel (spec/42_dma_engine.md): its registers (R171 to R178), the turns of its agent (R181 to R187), the sink
(R186), DMA_STOP and DMA_START as wholes (R191 to R201), a whole transfer (R182 to R185), and that the block's own sequences
raise none of the channel's faults (R202, R255).
-/

namespace Sys2Proof.Machine

section
variable {s t : State} {cb buf : Region} {label : StopPc → Pc} {exit : State → State}

/-! ## Registers (R171 to R178) -/

/-- A read of CS: each field at its place, and 0 in the reserved bits (R172, R174). -/
theorem csRead_fields {p : Params} (h : p.ok = true) (d : Dma) (w : Word) :
    let rd := fun b => (csRead p.csLayout d w).getLsbD (p.csLayout.pos b)
    rd .active = d.active ∧ rd .ended = d.ended ∧ rd .intr = d.intr ∧ (rd .error = true ↔ d.debugErr ≠ 0) ∧
      (∀ i, rd (.priority i) = d.priority.getLsbD i) ∧ (∀ i, rd (.panicPriority i) = d.panicPriority.getLsbD i) ∧
      rd .waitWrites = d.waitWrites ∧ rd .disDebug = d.disDebug ∧ rd .abort = false ∧ rd .reset = false ∧
      (∀ b ∈ [CsBit.dreq, .paused, .dreqStops, .outstanding], rd b = w.getLsbD (p.csLayout.pos b)) ∧
      ∀ n, (∀ b, p.csLayout.pos b ≠ n) → (csRead p.csLayout d w).getLsbD n = false := by
  intro rd
  have hfield (b : CsBit) : rd b = _ := csWord_field h _ b
  refine ⟨hfield _, hfield _, hfield _, ?_, fun i => hfield _, fun i => hfield _, hfield _, hfield _, hfield _, hfield _,
    ?_, fun n hn => csWord_reserved _ _ hn⟩
  · rw [hfield]; exact d.error_iff
  · simp only [List.mem_cons, List.not_mem_nil, or_false]
    rintro b (rfl | rfl | rfl | rfl) <;> exact hfield _

/-- A bit of DEBUG that is no error bit reads as drawn (R173). -/
theorem debugRead_other (l : DebugLayout) (d : Dma) (w : Word) {n : Nat} (h : ∀ i, l.pos i ≠ n) :
    (debugRead l d w).getLsbD n = w.getLsbD n := by
  rw [debugRead, fieldWord_other fun i _ => h i]
  by_cases hn : n < 32
  · simp [hn]
  · rw [BitVec.getLsbD_of_ge w n (by omega)]; simp

/-- An error bit stays set where it is not written 1 (R177). -/
theorem debugErr_cleared (l : DebugLayout) (e : BitVec 3) (v : Word) (i : Fin 3) :
    (e &&& ~~~(debugErrOf l v)).getLsbD i = (e.getLsbD i && !v.getLsbD (l.pos i)) := by
  rw [BitVec.getLsbD_and, BitVec.getLsbD_not, debugErrOf_getLsbD]
  simp [i.isLt]

section
variable {v : Word} (w : Word) (hr : v.getLsbD (s.cfg.csLayout.pos .reset) = false)
include hr

theorem csWrite_abort (hab : v.getLsbD (s.cfg.csLayout.pos .abort) = true) :
    csWrite v w s = .fault .dmaAbortUnmodelled := by
  simp [csWrite, hr, hab]

variable (hab : v.getLsbD (s.cfg.csLayout.pos .abort) = false)
include hab

theorem csWrite_pause (hv : v.getLsbD (s.cfg.csLayout.pos .active) = false) (ha : s.dma.active = true) :
    csWrite v w s = .fault .dmaPauseUnmodelled := by
  simp [csWrite, hr, hab, hv, ha]

/-- A write that leaves ACTIVE as it is (R175). -/
theorem csWrite_keepsActive (hv : v.getLsbD (s.cfg.csLayout.pos .active) = s.dma.active) :
    csWrite v w s = .next (s.setDma (csFields s.cfg.csLayout v s.dma)) := by
  cases ha : s.dma.active <;> simp [csWrite, hr, hab, hv, ha]

/-- A write that sets ACTIVE of a channel that is not active (R175). -/
theorem csWrite_activates (hv : v.getLsbD (s.cfg.csLayout.pos .active) = true) (ha : s.dma.active = false) :
    csWrite v w s = activate (s.setDma (csFields s.cfg.csLayout v s.dma)) := by
  simp [csWrite, hr, hab, hv, ha]

end

/-! ## The turns of the DMA agent (R181 to R187) -/

/-- R181: an inactive or an errored channel has no step. -/
theorem dmaStep_stopped (h : s.dma.active = false ∨ s.dma.debugErr ≠ 0) : dmaStep s = .next s :=
  if_pos (h.imp_right s.dma.error_iff.2)

theorem dmaErrorStep_stopped (bits : BitVec 3) (a : Bool) (h : s.dma.active = false ∨ s.dma.debugErr ≠ 0) :
    dmaErrorStep bits a s = s := by
  refine if_neg ?_
  rintro ⟨ha, he, -⟩
  rw [Dma.error_false_iff] at he
  rcases h with h | h
  · rw [h] at ha; cases ha
  · exact h he

section
variable (ha : s.dma.active = true) (he : s.dma.debugErr = 0)
include ha he

/-- The channel has a step to take. -/
theorem not_stopped_of_active : ¬ (s.dma.active = false ∨ s.dma.error = true) := by
  simp [ha, (Dma.error_false_iff _).2 he]

theorem dmaStep_fetch (hl : s.dma.loaded = false) : dmaStep s = dmaFetch s := by
  rw [dmaStep, if_neg (not_stopped_of_active ha he), if_pos hl]

variable (hl : s.dma.loaded = true)
include hl

theorem dmaStep_loaded : dmaStep s =
    if s.dma.pos < s.dma.len.toNat then if s.sinkReady then dmaTransfer s else .next s
    else if s.dma.pos = s.dma.len.toNat then .next (dmaComplete s) else .next s := by
  rw [dmaStep, if_neg (not_stopped_of_active ha he), if_neg (by simp [hl])]

theorem dmaStep_transfer (hlt : s.dma.pos < s.dma.len.toNat) (hsink : s.sinkReady = true) :
    dmaStep s = dmaTransfer s := by
  rw [dmaStep_loaded ha he hl, if_pos hlt, if_pos hsink]

/-- R183: the transfer waits while the sink cannot accept. -/
theorem dmaStep_wait (hlt : s.dma.pos < s.dma.len.toNat) (hsink : ¬ s.sinkReady = true) : dmaStep s = .next s := by
  rw [dmaStep_loaded ha he hl, if_pos hlt, if_neg hsink]

theorem dmaStep_complete (hend : s.dma.pos = s.dma.len.toNat) : dmaStep s = .next (dmaComplete s) := by
  rw [dmaStep_loaded ha he hl, if_neg hend.not_lt, if_pos hend]

end

/-- The sink accepts a word while it is armed and its queue has room (R186). -/
theorem State.sinkReady_iff (s : State) :
    s.sinkReady = true ↔ s.pwm.armed = true ∧ s.pwm.fifo.length < s.cfg.fifoDepth := by
  simp [State.sinkReady]

/-- The channel with its control block loaded (R182). -/
def State.fetched (s : State) : State := s.setDma { s.dma with
  ti := s.cbWord 0, src := s.cbWord 1, dst := s.cbWord 2, len := s.cbWord 3, next := s.cbWord 5, loaded := true }

section
variable (hm : s.mappedRange s.dma.conblkAd.toNat 32 = true)
include hm

/-- The fetch of mapped words: its stops in their order, else the loading (R182). -/
theorem dmaFetch_mapped : dmaFetch s =
    if s.cbWord 0 ≠ s.cfg.tiValue then .refused .dmaTiUnmodelled
    else if s.cbWord 5 ≠ 0 then .fault .dmaChain
    else if (s.cbWord 3).toNat % 4 ≠ 0 then .fault .dmaLenUnaligned
    else .next s.fetched := by
  rw [dmaFetch, if_neg (by rw [cbWordBytes, hm]; simp)]
  rfl

theorem dmaFetch_otherTi (hti : s.cbWord 0 ≠ s.cfg.tiValue) : dmaFetch s = .refused .dmaTiUnmodelled := by
  rw [dmaFetch_mapped hm, if_pos hti]

variable (hti : s.cbWord 0 = s.cfg.tiValue)
include hti

theorem dmaFetch_chained (hnext : s.cbWord 5 ≠ 0) : dmaFetch s = .fault .dmaChain := by
  rw [dmaFetch_mapped hm, if_neg (not_not.2 hti), if_pos hnext]

variable (hnext : s.cbWord 5 = 0)
include hnext

theorem dmaFetch_unaligned (hlen : (s.cbWord 3).toNat % 4 ≠ 0) : dmaFetch s = .fault .dmaLenUnaligned := by
  rw [dmaFetch_mapped hm, if_neg (not_not.2 hti), if_neg (not_not.2 hnext), if_pos hlen]

theorem dmaFetch_loads (hlen : (s.cbWord 3).toNat % 4 = 0) : dmaFetch s = .next s.fetched := by
  rw [dmaFetch_mapped hm, if_neg (not_not.2 hti), if_neg (not_not.2 hnext), if_neg (not_not.2 hlen)]

end

section
variable (hm : s.mappedRange (s.dma.src.toNat + s.dma.pos) 4 = true)
include hm

/-- The transfer of a mapped word to the sink (R183). -/
theorem dmaTransfer_sink (hdst : s.dma.dst = s.cfg.pwmFifoPa) : dmaTransfer s =
    .next ((sinkAccept (memRead32 s.mem (s.dma.src.toNat + s.dma.pos)) s).setDma
      { s.dma with pos := s.dma.pos + 4 }) := by
  simp [dmaTransfer, hm, hdst]

theorem dmaTransfer_elsewhere (hdst : s.dma.dst ≠ s.cfg.pwmFifoPa) :
    dmaTransfer s = .refused .dmaDestUnmodelled := by
  simp [dmaTransfer, hm, hdst]

end

/-! ## DMA_STOP as a whole (R191 to R195), as a part of RENDER and of CLEANUP -/

/-- At the labels `label` a SEQ turn performs DMA_STOP, with `exit` after it. -/
def RunsStop (label : StopPc → Pc) (exit : State → State) : Prop :=
  ∀ (d : Draw) (c : StopPc) (s : State), s.sqr.pc = label c → seqStep d s = stopStep c label exit d s

theorem runsStop_render : RunsStop .p1 enterEncode := fun _ _ _ hp => by rw [seqStep, hp]; rfl

theorem runsStop_cleanup : RunsStop .q1 (fun u => u.setPc (.q2 .read)) := fun _ _ _ hp => by rw [seqStep, hp]; rfl

/-- The Idle channel DMA_STOP leaves, with the fields R194 names. -/
def stoppedDma (d : Dma) : Dma := { d with
  active := false, ended := false, intr := false, priority := 0, panicPriority := 0, waitWrites := false
  disDebug := false, conblkAd := 0, addrLatched := false, loaded := false, pos := 0, debugErr := 0 }

theorem stoppedDma_phase (d : Dma) : (stoppedDma d).phase = .idle := rfl

/-- The registers after DMA_STOP: an errored channel leaves the snapshot, DMAERR and code 4 (R192). -/
def State.stopRegs (s : State) : HostRegs :=
  if s.dma.debugErr = 0 then s.regs
  else { s.regs with debugSnap := debugErrWord s.cfg.debugLayout s.dma.debugErr, dmaErr := true, errCode := 4 }

/-- The state `exit` follows: the channel is stopped, and S6 has just been performed. -/
def stoppedState (label : StopPc → Pc) (s : State) : State :=
  ((s.setRegs s.stopRegs).setDma (stoppedDma s.dma)).setPc (label .s6)

theorem State.stopRegs_clear (h : s.dma.debugErr = 0) : s.stopRegs = s.regs := if_pos h

theorem State.stopRegs_bufLen (s : State) : s.stopRegs.bufLen = s.regs.bufLen := by
  unfold State.stopRegs
  split_ifs <;> rfl

/-- Where ENCODE begins does not depend on what DMA_STOP writes. -/
theorem encodePc_stoppedState (label : StopPc → Pc) (s : State) (x : Byte) :
    encodePc ((stoppedState label s).setJ 0) x = encodePc (s.setJ 0) x := by
  have hlen : ((stoppedState label s).setJ 0).regs.bufLen = (s.setJ 0).regs.bufLen := s.stopRegs_bufLen
  rw [encodePc, hlen]
  rfl

/-- DMA_STOP at the label `v` after the module reset, which has cleared all of the channel but the error bits it drew
from `d` (R178). -/
def afterReset (label : StopPc → Pc) (d : Draw) (s : State) (v : StopPc) : State :=
  (s.setDma (channelReset s.dma (d.word.extractLsb' 0 3))).setPc (label v)

/-- S3 to S6: the module reset stops the channel, S5 finds nothing left to clear, and S6 clears the error bits. -/
theorem RunsStop.run_reset (h : RunsStop label exit) (hok : s.cfg.ok = true) (hp : s.sqr.pc = label .s3) {ds : List Draw}
    (hds : ds.length = 4) :
    runTurns (ds.map .seq) s = .next (exit ((s.setDma (stoppedDma s.dma)).setPc (label .s6))) := by
  obtain ⟨d₃, d₄, d₅, d₆, rfl⟩ := List.length_eq_four.1 hds
  have hs3 : seqStep d₃ s = .next (afterReset label d₃ s .s4) := (h d₃ .s3 s hp).trans (stopStep_s3 hok label exit d₃)
  have hs4 : seqStep d₄ (afterReset label d₃ s .s4) = .next (afterReset label d₃ s .s5) := h d₄ .s4 _ rfl
  have hs5 : seqStep d₅ (afterReset label d₃ s .s5) = .next (afterReset label d₃ s .s6) :=
    (h d₅ .s5 _ rfl).trans (stopStep_s5 (s := afterReset label d₃ s .s5) hok label exit d₅ rfl)
  have hs6 : seqStep d₆ (afterReset label d₃ s .s6) = .next (exit ((s.setDma (stoppedDma s.dma)).setPc (label .s6))) :=
    (h d₆ .s6 _ rfl).trans (stopStep_s6 (s := afterReset label d₃ s .s6) hok label exit d₆)
  exact (runTurns_seq hs3).trans <| (runTurns_seq hs4).trans <| (runTurns_seq hs5).trans (runTurns_seq hs6)

/-- The whole DMA_STOP of a channel that is not active or is errored: S2 is performed where it is errored (R191). -/
theorem RunsStop.run (h : RunsStop label exit) (hok : s.cfg.ok = true) (hp : s.sqr.pc = label .s1)
    (hstop : s.dma.active = false ∨ s.dma.debugErr ≠ 0) {ds : List Draw}
    (hds : ds.length = if s.dma.debugErr = 0 then 5 else 6) :
    runTurns (ds.map .seq) s = .next (exit (stoppedState label s)) := by
  have hs1 (d : Draw) := (h d .s1 s hp).trans (stopStep_s1 hok label exit d)
  by_cases he : s.dma.debugErr = 0
  · have ha : s.dma.active = false := hstop.resolve_right (not_not.2 he)
    rw [if_pos he] at hds
    obtain ⟨d₁, ds, rfl⟩ := List.exists_cons_of_length_eq_add_one hds
    simp only [(Dma.error_false_iff _).2 he, ha, Bool.false_eq_true, if_false] at hs1
    rw [stoppedState, State.stopRegs_clear he]
    exact (runTurns_seq (hs1 d₁)).trans (h.run_reset (s := s.setPc (label .s3)) hok rfl (Nat.succ.inj hds))
  · rw [if_neg he] at hds
    obtain ⟨d₁, ds, rfl⟩ := List.exists_cons_of_length_eq_add_one hds
    obtain ⟨d₂, ds, rfl⟩ := List.exists_cons_of_length_eq_add_one (Nat.succ.inj hds)
    simp only [(Dma.error_iff _).2 he, if_true] at hs1
    have hs2 : seqStep d₂ (s.setPc (label .s2)) = .next ((s.setRegs s.stopRegs).setPc (label .s3)) := by
      rw [h d₂ .s2 _ rfl, stopStep_s2, State.stopRegs, if_neg he]; rfl
    exact (runTurns_seq (hs1 d₁)).trans <| (runTurns_seq hs2).trans <|
      h.run_reset (s := (s.setRegs s.stopRegs).setPc (label .s3)) hok rfl (Nat.succ.inj (Nat.succ.inj hds))

/-- R195: a second DMA_STOP, begun where the first one ended, changes nothing, if what follows them leaves the channel and
does the same again on its own result. -/
theorem RunsStop.idempotent (h : RunsStop label exit) (hok : s.cfg.ok = true)
    (hkeeps : ∀ x, (exit x).cfg = x.cfg ∧ (exit x).dma = x.dma) (hagain : ∀ x pc, exit ((exit x).setPc pc) = exit x)
    (ht : t = exit (stoppedState label s)) {es : List Draw} (hes : es.length = 5) :
    runTurns (es.map .seq) (t.setPc (label .s1)) = .next t := by
  obtain ⟨hcfg, hdma⟩ := hkeeps (stoppedState label s)
  rw [← ht] at hcfg hdma
  have hidle : t.dma = stoppedDma s.dma := hdma
  have hclear : (t.setPc (label .s1)).dma.debugErr = 0 := by show t.dma.debugErr = 0; rw [hidle]; rfl
  have hinactive : (t.setPc (label .s1)).dma.active = false := by show t.dma.active = false; rw [hidle]; rfl
  have hsame : stoppedState label (t.setPc (label .s1)) = t.setPc (label .s6) := by
    have hstopped : stoppedDma t.dma = t.dma := by rw [hidle]; rfl
    rw [stoppedState, State.stopRegs_clear hclear]
    show (t.setDma (stoppedDma t.dma)).setPc (label .s6) = _
    rw [hstopped]
    rfl
  have hrun := h.run (s := t.setPc (label .s1)) (ds := es) (by show t.cfg.ok = true; rw [hcfg]; exact hok) rfl
    (.inl hinactive) (hes.trans (if_pos hclear).symm)
  rw [hrun, hsame, ht, hagain]

/-! ## DMA_START as a whole (R201) -/

/-- T1 to T3: the address, the flags, the activation. -/
theorem runTurns_start (hok : s.cfg.ok = true) (hp : s.sqr.pc = .p3 .t1) (ha : s.dma.active = false)
    (halign : s.regs.cbPa.toNat % s.cfg.cbAlign = 0) {ds : List Draw} (hds : ds.length = 3) :
    runTurns (ds.map .seq) s = .next ((s.setDma { startedDma s.cfg s.dma with
      active := true, loaded := false, pos := 0, conblkAd := s.regs.cbPa, addrLatched := true }).setPc .p4) := by
  have hseq (d : Draw) (u : StartPc) {v : State} (hv : v.sqr.pc = .p3 u) : seqStep d v = startStep u .p3 .p4 d v := by
    rw [seqStep, hv]; rfl
  obtain ⟨d₁, d₂, d₃, rfl⟩ := List.length_eq_three.1 hds
  let u₁ := (s.setDma { s.dma with conblkAd := s.regs.cbPa, addrLatched := true }).setPc (.p3 .t2)
  let u₂ := (u₁.setDma (startedDma s.cfg u₁.dma)).setPc (.p3 .t3)
  have ht1 : seqStep d₁ s = .next u₁ := (hseq d₁ .t1 hp).trans (startStep_t1 _ _ _ ha)
  have ht2 : seqStep d₂ u₁ = .next u₂ := (hseq d₂ .t2 rfl).trans (startStep_t2 (s := u₁) hok _ _ _ ha)
  exact (runTurns_seq ht1).trans <| (runTurns_seq ht2).trans <|
    runTurns_seq ((hseq d₃ .t3 rfl).trans (startStep_t3 (s := u₂) hok _ _ _ ha rfl halign))

/-! ## A whole transfer (R182 to R185) -/

/-- What a loaded transfer to the sink needs: mapped source bytes, whole words, and room for all of them in the armed sink. -/
structure TransferReady (s : State) : Prop where
  active : s.dma.active = true
  noError : s.dma.debugErr = 0
  loaded : s.dma.loaded = true
  toSink : s.dma.dst = s.cfg.pwmFifoPa
  atStart : s.dma.pos = 0
  wholeWords : s.dma.len.toNat % 4 = 0
  mapped : s.mappedRange s.dma.src.toNat s.dma.len.toNat = true
  armed : s.pwm.armed = true
  room : s.pwm.fifo.length + s.dma.len.toNat / 4 ≤ s.cfg.fifoDepth

/-- The first `n` words of the transfer's source. -/
def State.sourceWords (s : State) (n : Nat) : List Word :=
  (List.range n).map fun i => memRead32 s.mem (s.dma.src.toNat + 4 * i)

theorem State.sourceWords_succ (s : State) (n : Nat) :
    s.sourceWords (n + 1) = s.sourceWords n ++ [memRead32 s.mem (s.dma.src.toNat + 4 * n)] := by
  simp [State.sourceWords, List.range_succ]

theorem State.sourceWords_length (s : State) (n : Nat) : (s.sourceWords n).length = n := by simp [State.sourceWords]

/-- The transfer from `s` after `n` words. -/
def transferAt (s : State) (n : Nat) : State :=
  (s.setPwm { s.pwm with fifo := s.pwm.fifo ++ s.sourceWords n }).setDma { s.dma with pos := 4 * n }

theorem transferAt_zero (h : s.dma.pos = 0) : transferAt s 0 = s := by
  rw [transferAt, show 4 * 0 = s.dma.pos from h.symm, show s.sourceWords 0 = [] from rfl, List.append_nil]
  rfl

/-- One turn hands the sink the next word. -/
theorem dmaStep_transferAt (h : TransferReady s) {n : Nat} (hn : n < s.dma.len.toNat / 4) :
    dmaStep (transferAt s n) = .next (transferAt s (n + 1)) := by
  have hroom := h.room
  have hlt : (transferAt s n).dma.pos < (transferAt s n).dma.len.toNat := by
    show 4 * n < s.dma.len.toNat; omega
  have hsink : (transferAt s n).sinkReady = true := by
    refine (State.sinkReady_iff _).2 ⟨h.armed, ?_⟩
    show (s.pwm.fifo ++ s.sourceWords n).length < s.cfg.fifoDepth
    rw [List.length_append, s.sourceWords_length]; omega
  have hm : s.mappedRange (s.dma.src.toNat + 4 * n) 4 = true := State.mappedRange_sub h.mapped (by omega) (by omega)
  rw [dmaStep_transfer (s := transferAt s n) h.active h.noError h.loaded hlt hsink,
    dmaTransfer_sink (s := transferAt s n) hm h.toSink, transferAt, transferAt,
    s.sourceWords_succ, ← List.append_assoc]
  rfl

theorem runTurns_transferAt (h : TransferReady s) {n : Nat} (hn : n ≤ s.dma.len.toNat / 4) :
    runTurns (List.replicate n .dma) s = .next (transferAt s n) := by
  induction n with
  | zero => exact congrArg Host.Outcome.next (transferAt_zero h.atStart).symm
  | succ n ih =>
    rw [List.replicate_succ', runTurns_append (ih (by omega))]
    exact runTurns_cons (dmaStep_transferAt h hn)

/-- A loaded transfer, to its end: every word, then completion. -/
theorem runTurns_wholeTransfer (h : TransferReady s) : runTurns (List.replicate (s.dma.len.toNat / 4 + 1) .dma) s =
    .next (dmaComplete (transferAt s (s.dma.len.toNat / 4))) := by
  have hend : 4 * (s.dma.len.toNat / 4) = s.dma.len.toNat := Nat.mul_div_cancel' (Nat.dvd_of_mod_eq_zero h.wholeWords)
  rw [List.replicate_succ', runTurns_append (runTurns_transferAt h (Nat.le_refl _))]
  exact runTurns_cons (dmaStep_complete (s := transferAt s _) h.active h.noError h.loaded hend)

section
variable (had : s.dma.conblkAd.toNat = cb.base) (hholds : CbHolds s cb buf) (hlt : buf.size < 2 ^ 32)
include had

theorem State.cbWord_at (i : Nat) : s.cbWord i = memRead32 s.mem (cb.base + 4 * i) := by rw [State.cbWord, had]

include hholds hlt

/-- The fetch of a control block that INIT wrote does not stop (R161, R182). -/
theorem dmaFetch_of_cbHolds (hm : s.mappedRange cb.base 32 = true) (h4 : buf.size % 4 = 0) :
    dmaFetch s = .next s.fetched := by
  obtain ⟨hti, -, -, hlen, hzero⟩ := hholds
  refine dmaFetch_loads (by rwa [had]) ((s.cbWord_at had 0).trans hti)
    ((s.cbWord_at had 5).trans (hzero 5 (by omega) (by omega))) ?_
  rw [s.cbWord_at had 3, hlen, BitVec.toNat_ofNat, Nat.mod_eq_of_lt hlt, h4]

/-- It loads the sink as destination, the buffer as source and its length (R161). -/
theorem fetched_of_cbHolds (hbase : buf.base < 2 ^ 32) : s.fetched.dma.dst = s.cfg.pwmFifoPa ∧
    s.fetched.dma.src.toNat = buf.base ∧ s.fetched.dma.len.toNat = buf.size := by
  obtain ⟨-, hsrc, hdst, hlen, -⟩ := hholds
  refine ⟨(s.cbWord_at had 2).trans hdst, ?_, ?_⟩
  · show (s.cbWord 1).toNat = _
    rw [s.cbWord_at had 1, hsrc, BitVec.toNat_ofNat, Nat.mod_eq_of_lt hbase]
  · show (s.cbWord 3).toNat = _
    rw [s.cbWord_at had 3, hlen, BitVec.toNat_ofNat, Nat.mod_eq_of_lt hlt]

end

/-! ## Steps that do not stop (R202, R255) -/

/-- DMA_STOP never stops where its channel is stopped from S4 on. -/
theorem stopStep_runs {u : StopPc} {d : Draw} (hok : s.cfg.ok = true)
    (hstop : u = .s4 ∨ u = .s5 ∨ u = .s6 → s.dma.active = false) : ∃ t, stopStep u label exit d s = .next t := by
  cases u with
  | s1 => exact ⟨_, stopStep_s1 hok label exit d⟩
  | s2 => exact ⟨_, stopStep_s2 label exit d s⟩
  | s3 => exact ⟨_, stopStep_s3 hok label exit d⟩
  | s4 => exact ⟨_, stopStep_s4 label exit d s⟩
  | s5 => exact ⟨_, stopStep_s5 hok label exit d (hstop (.inr (.inl rfl)))⟩
  | s6 => exact ⟨_, stopStep_s6 hok label exit d⟩

/-- P2 reads and writes mapped RAM alone (R73, R142). -/
theorem renderEncode_runs {e : EncodePc} (h : BlockInv s) (hp : s.sqr.pc = .p2 e) : ∃ t, renderEncode e s = .next t := by
  obtain ⟨-, ⟨cb, buf, hh⟩, hinput, hpos⟩ :
    s.engine = .rendering ∧ (∃ cb buf, Held s cb buf) ∧ InputOk s ∧ EncodeOk s e := h.blockOk.atLabel hp
  have hready := hh.encodeReady h hinput
  have hbuf := hready.bufMapped s.sqr.j (by rw [(hh.addresses h).bufLenReg]; exact h.encode_position hh hp)
  cases e with
  | read => exact ⟨_, encodeStep_read (hready.inMapped _ ((Nat.div_lt_iff_lt_mul hready.widthPos).2 hpos))⟩
  | write x => exact ⟨_, encodeStore_mapped x _ hbuf⟩
  | zero => exact ⟨_, encodeStore_mapped 0 0 hbuf⟩

/-- P3 writes an aligned address to a channel that is not active, then activates it (R201, R202). -/
theorem renderStart_runs {u : StartPc} {d : Draw} (h : BlockInv s) (hp : s.sqr.pc = .p3 u) :
    ∃ t, renderStart u d s = .next t := by
  obtain ⟨-, cb, buf, hh⟩ : s.engine = .rendering ∧ ∃ cb buf, Held s cb buf := h.blockOk.atLabel hp
  obtain ⟨hstopped, -, hlatched⟩ := h.dmaOk
  have ha : s.dma.active = false := hstopped (by rw [hp]; rfl)
  cases u with
  | t1 => exact ⟨_, startStep_t1 _ _ d ha⟩
  | t2 => exact ⟨_, startStep_t2 h.paramsOk _ _ d ha⟩
  | t3 =>
    obtain ⟨hl, had⟩ := hlatched (.inr hp)
    have haddr := hh.addresses h
    exact ⟨_, startStep_t3 h.paramsOk _ _ d ha hl (by rw [had, haddr.cbPaReg]; exact haddr.cbAligned)⟩

/-- The words of a control block's region are mapped RAM. -/
theorem CbRegion.mappedWord (hc : CbRegion s cb) (h : BlockInv s) {i : Nat} (hi : i < 8) :
    s.mappedRange (cb.base + 4 * i) 4 = true := by
  obtain ⟨-, -, hmapped⟩ := h.liveOk.1 cb hc.1
  have hsize := hc.size_ge h.paramsOk
  exact State.mappedRange_sub hmapped (by omega) (by omega)

/-- SEQ's one fault is the host's pin or function out of range (R121): its memory accesses are mapped, and it writes the
channel only as R175 and R176 let it. -/
theorem seqStep_fault {d : Draw} {f : Fault} (h : BlockInv s) (hs : seqStep d s = .fault f) : f = .gpioRange := by
  have noFault {r : Result} (hr : ∃ t, r = .next t) (hf : r = .fault f) : f = .gpioRange := by
    obtain ⟨t, rfl⟩ := hr; cases hf
  have hdma := h.dmaOk
  cases hp : s.sqr.pc <;> simp only [seqStep, hp] at hs
  case done | i6 | i7 | i9 | iF | p4 | q2 | q3 | q4 => cases hs
  case i1 => unfold initAllocCb at hs; split at hs <;> cases hs
  case i2 cb i =>
    obtain ⟨-, hc, hi, -⟩ : Building s (.cbOnly cb) ∧ CbRegion s cb ∧ i < 8 ∧ _ := h.blockOk.atLabel hp
    exact noFault ⟨_, initZeroCb_mapped (hc.mappedWord h hi)⟩ hs
  case i3 => unfold initCheckLen at hs; split_ifs at hs
  case i4 => unfold initAllocBuf at hs; split at hs <;> cases hs
  case i5 cb buf i =>
    obtain ⟨hb, hi, -⟩ : BuildingBoth s cb buf ∧ i < 4 ∧ _ := h.blockOk.atLabel hp
    exact noFault ⟨_, initFillCb_mapped (hb.cbRegion.mappedWord h (by omega))⟩ hs
  case i8 cb buf g =>
    unfold initGpio at hs
    rcases gpioStep_cases g (.i8 cb buf) (.i9 cb buf) s with e | ⟨_, _, e, -⟩ <;> rw [e] at hs <;> cases hs
    rfl
  case p1 => exact noFault (stopStep_runs h.paramsOk (hdma.inactive_of_stop (.inl hp))) hs
  case p2 => exact noFault (renderEncode_runs h hp) hs
  case p3 => exact noFault (renderStart_runs h hp) hs
  case q1 => exact noFault (stopStep_runs h.paramsOk (hdma.inactive_of_stop (.inr hp))) hs

/-- Every fault of a HOST turn is a broken duty of the host's (R66, R73, R76, R80). -/
theorem hostStep_fault {f : Fault} (hs : hostStep s = .fault f) : f.hostMade = true := by
  unfold hostStep at hs
  split at hs
  · cases hs
  · rename_i st rest _
    cases st with
    | wr off width v =>
      simp only [hostStmt] at hs
      split_ifs at hs
      · obtain rfl | rfl := windowWrite_fault hs <;> rfl
      · cases hs; rfl
    | rd | poll | memw | memr => simp only [hostStmt] at hs; split_ifs at hs <;> cases hs <;> rfl

/-- The agent never stops on a sound transfer: its control block is one INIT wrote, and its words lie in the buffer (R202). -/
theorem dmaStep_runs (hb : BlockInv s) (h : TransferSound s) : ∃ t, dmaStep s = .next t := by
  by_cases hstop : s.dma.active = false ∨ s.dma.debugErr ≠ 0
  · exact ⟨_, dmaStep_stopped hstop⟩
  obtain ⟨ha, he⟩ : s.dma.active = true ∧ s.dma.debugErr = 0 := by simpa using hstop
  obtain ⟨cb, buf, z⟩ := h ha
  obtain ⟨-, -, -, had, hlt⟩ := z.addresses hb
  obtain ⟨hcb, hbuf, hsize, -, h4, -, -, -, -, hholds, -, hloaded⟩ := z
  obtain ⟨-, -, hcbMapped⟩ := hb.liveOk.1 cb hcb
  obtain ⟨-, hend, hbufMapped⟩ := hb.liveOk.1 buf hbuf
  have h32 := (Params.ok_sizes hb.paramsOk).1
  cases hl : s.dma.loaded with
  | false =>
    rw [dmaStep_fetch ha he hl]
    exact ⟨_, dmaFetch_of_cbHolds had hholds hlt (State.mappedRange_sub hcbMapped (Nat.le_refl _) (by omega)) h4⟩
  | true =>
    obtain ⟨hsrc, hdst, hlen, hpos4, -⟩ := hloaded hl
    rw [dmaStep_loaded ha he hl]
    split_ifs with hpos hsink hcomplete
    · have hlen' : s.dma.len.toNat = buf.size := by rw [hlen, BitVec.toNat_ofNat, Nat.mod_eq_of_lt hlt]
      have hbase : s.dma.src.toNat = buf.base := by
        rw [hsrc, BitVec.toNat_ofNat, Nat.mod_eq_of_lt]
        have : Config.paSpace = 2 ^ 32 := rfl
        omega
      exact ⟨_, dmaTransfer_sink (State.mappedRange_sub hbufMapped (by omega) (by omega)) hdst⟩
    · exact ⟨_, rfl⟩
    · exact ⟨_, rfl⟩
    · exact ⟨_, rfl⟩

/-- Every turn from the invariant goes on, or stops on a broken host duty. -/
theorem takeTurn_onlyHostFaults {u : Turn} (hb : BlockInv s) (h : TransferSound s) :
    (∀ f, takeTurn u s = .fault f → f.hostMade = true) ∧ ∀ r, takeTurn u s ≠ .refused r := by
  constructor
  · intro f hf
    cases u with
    | host => exact hostStep_fault hf
    | seq d => rw [seqStep_fault hb hf]; rfl
    | dma => obtain ⟨t, ht⟩ := dmaStep_runs hb h; cases ht.symm.trans hf
    | dmaError | sink | env | blockReset | reclaim => cases hf
  · intro r hr
    obtain ⟨rfl, -⟩ := takeTurn_refused hr
    obtain ⟨t, ht⟩ := dmaStep_runs hb h
    cases ht.symm.trans hr

end

/-! ## The obligations about the channel -/

/-- Settles O38: each field of a word stands at its place, and a CS write goes by RESET, ABORT and ACTIVE in turn. -/
theorem channelRegisters : Obligations.ChannelRegisters := by
  intro v w s hok
  refine ⟨csRead_fields hok s.dma w, rfl,
    ⟨debugRead_field hok s.dma w, fun n hn => debugRead_other _ _ w hn⟩, fun hr => ⟨_, if_pos hr⟩,
    fun hr hab => csWrite_abort w hr hab, fun hr hab hv ha => csWrite_pause w hr hab hv ha,
    fun hr hab hv => csWrite_keepsActive w hr hab hv, fun hr hab hv ha => ?_,
    fun ha => by simp only [conblkWrite, ha]; rfl, fun ha => if_pos ha, _, rfl, debugErr_cleared _ _ v⟩
  rw [csWrite_activates w hr hab hv ha]
  refine ⟨fun hl => if_pos hl, fun hl hc => ?_, fun hl hc => ?_⟩
  · exact (if_neg (by simp [csFields, hl])).trans (if_pos hc)
  · exact (if_neg (by simp [csFields, hl])).trans (if_neg (not_not.2 hc))

/-- Settles O39: the run of DMA_STOP ends in the state its exit follows. -/
theorem stopReachesIdle : Obligations.StopReachesIdle := by
  intro s ds hok hp hstop hds
  rcases hp with hp | hp
  · refine ⟨_, runsStop_render.run hok hp hstop hds, stoppedDma_phase s.dma, ?_⟩
    rw [if_pos hp, ← encodePc_stoppedState]
    rfl
  · refine ⟨_, runsStop_cleanup.run hok hp hstop hds, stoppedDma_phase s.dma, ?_⟩
    rw [if_neg (c := s.sqr.pc = .p1 .s1) (by simp [hp])]
    rfl

/-- Settles O40: the second DMA_STOP finds the channel stopped and free of errors, and ends as the first one did. -/
theorem stopIdempotent : Obligations.StopIdempotent := by
  intro s t u ds es hok hp hds hstop ht hes hu
  rcases hp with hp | hp <;> rw [hp] at hu
  · have hfirst := ht.symm.trans (runsStop_render.run hok hp hstop hds)
    have hsecond := runsStop_render.idempotent hok (fun _ => ⟨rfl, rfl⟩) (fun _ _ => rfl) (Host.Outcome.next.inj hfirst) hes
    exact Host.Outcome.next.inj (hu.symm.trans hsecond)
  · have hfirst := ht.symm.trans (runsStop_cleanup.run hok hp hstop hds)
    have hsecond := runsStop_cleanup.idempotent hok (fun _ => ⟨rfl, rfl⟩) (fun _ _ => rfl) (Host.Outcome.next.inj hfirst) hes
    exact Host.Outcome.next.inj (hu.symm.trans hsecond)

/-- Settles O41: the run of DMA_START. -/
theorem startActivates : Obligations.StartActivates := fun _ _ hok hp ha halign hds =>
  runTurns_start hok hp ha halign hds

/-- Settles O42: the fetch's stops are tested in their order. -/
theorem controlBlockFetch : Obligations.ControlBlockFetch := by
  intro s ha he hl hm
  have hfetch : takeTurn .dma s = dmaFetch s := dmaStep_fetch ha he hl
  rw [hfetch]
  refine ⟨dmaFetch_otherTi hm, dmaFetch_chained hm, dmaFetch_unaligned hm, fun hti hnext hlen => ?_⟩
  rw [dmaFetch_loads hm hti hnext hlen, ← hti, ← hnext]
  rfl

/-- Settles O43: the transfer waits for the sink, then hands it the word if the sink is its destination. -/
theorem wordTransfer : Obligations.WordTransfer := by
  intro s ha he hl hlt hm
  have hready (harmed : s.pwm.armed = true) (hroom : s.pwm.fifo.length < s.cfg.fifoDepth) :
      takeTurn .dma s = dmaTransfer s := dmaStep_transfer ha he hl hlt (s.sinkReady_iff.2 ⟨harmed, hroom⟩)
  exact ⟨fun hdst harmed hroom => (hready harmed hroom).trans (dmaTransfer_sink hm hdst),
    fun hdst harmed hroom => (hready harmed hroom).trans (dmaTransfer_elsewhere hm hdst),
    fun hfull => dmaStep_wait ha he hl hlt (mt s.sinkReady_iff.1 hfull)⟩

/-- Settles O44: at the end of the block the agent completes, an error step sets what is drawn, and a stopped channel does
neither. -/
theorem transferEnds : Obligations.TransferEnds := by
  intro s bits a
  refine ⟨fun ha he hl hend => dmaStep_complete ha he hl hend, fun ha he hbits => ?_, fun hstop =>
    ⟨dmaStep_stopped hstop, congrArg Host.Outcome.next (dmaErrorStep_stopped bits a hstop)⟩⟩
  have herr : dmaErrorStep bits a s = s.setDma { s.dma with debugErr := s.dma.debugErr ||| bits, active := a } :=
    if_pos ⟨ha, (Dma.error_false_iff _).2 he, hbits⟩
  have hor : (0 : BitVec 3) ||| bits = bits := BitVec.zero_or
  rw [he, hor] at herr
  exact congrArg Host.Outcome.next herr

/-- Settles O45: the enabling condition of the drain, on a queue that is not empty. -/
theorem sinkDrains : Obligations.SinkDrains := by
  intro s w ws hq
  have hdrain : s.sinkCanDrain = true ↔ s.pwm.armed = true ∧ s.clk.enab = true ∧ s.clk.busy = true := by
    simp [State.sinkCanDrain, hq, and_assoc]
  have hstep : takeTurn .sink s = .next (if s.sinkCanDrain then
      s.setPwm { s.pwm with fifo := ws, wire := s.pwm.wire ++ serialise s.cfg.wireOrder w } else s) := by
    simp only [takeTurn, sinkStep, hq]
  rw [hstep]
  refine ⟨fun harmed henab hbusy => ?_, fun hoff => ?_⟩
  · rw [if_pos (hdrain.2 ⟨harmed, henab, hbusy⟩), ← harmed]; rfl
  · rw [if_neg (mt hdrain.1 hoff)]

/-- Settles O47: the fetch loads what INIT wrote, then the words go to the sink one by one, then the transfer completes. -/
theorem transferCarriesBuffer : Obligations.TransferCarriesBuffer := by
  intro s cb buf h hh ha he hl hpos had harmed hroom
  have haddr := hh.addresses h
  have hcbSize := haddr.cbSize
  have hbufEnd := haddr.bufEnd
  have hbufPos := haddr.bufPos
  have hapart := haddr.apart
  have hconblk : s.dma.conblkAd.toNat = cb.base := by rw [had, haddr.cbPaReg]
  have h4 : buf.size % 4 = 0 := by rw [haddr.bufSize]; exact (bufLen_bounds _ _).1
  obtain ⟨-, -, hcbMapped⟩ := h.liveOk.1 cb hh.cbRegion.1
  obtain ⟨-, -, hbufMapped⟩ := h.liveOk.1 buf hh.bufRegion.1
  obtain ⟨-, -, -, -, -, -, hholds⟩ := hh
  have hlt : buf.size < 2 ^ 32 := by omega
  obtain ⟨hdst, hsrc, hlen⟩ := fetched_of_cbHolds hconblk hholds hlt (by omega)
  have hready : TransferReady s.fetched := {
    active := ha, noError := he, loaded := rfl, toSink := hdst, atStart := hpos
    wholeWords := by rw [hlen, h4]
    mapped := by rw [hsrc, hlen]; exact hbufMapped
    armed := harmed
    room := by rw [hlen]; exact hroom }
  have hfetch : takeTurn .dma s = .next s.fetched := (dmaStep_fetch ha he hl).trans
    (dmaFetch_of_cbHolds hconblk hholds hlt (State.mappedRange_sub hcbMapped (Nat.le_refl _) (by omega)) h4)
  have hrun := runTurns_wholeTransfer hready
  rw [hlen] at hrun
  refine ⟨_, (runTurns_cons hfetch).trans hrun, ?_, rfl, rfl, Nat.mul_div_cancel' (Nat.dvd_of_mod_eq_zero h4), rfl, rfl, rfl,
    rfl⟩
  rw [← hsrc]
  rfl

/-- Settles O55: the turn of a step, taken from a state that meets the invariant too. -/
theorem onlyHostFaults : Obligations.OnlyHostFaults := by
  intro s ⟨hb, h⟩
  obtain ⟨ts, n, e⟩ := State.dropTurn_eq s
  have hstep : step s = takeTurn s.nextTurn ((s.setTurns ts).setTick n) := by
    rw [← e]; exact if_pos hb.paramsOk
  rw [hstep]
  exact takeTurn_onlyHostFaults (s := (s.setTurns ts).setTick n) hb h

end Sys2Proof.Machine

/-!
PROOFS. The render engine (spec/43_render_engine.md): what each command's acceptance answers (R210 to R216, R226 to R228, R235,
R236), the failures of INIT (R217, R218), the control block it writes (R219), and INIT, RENDER and CLEANUP run as wholes
(R218 to R222, R229, R237).
-/

namespace Sys2Proof.Machine

section
variable {s t u : State} {cb buf r : Region}

/-! ## Acceptance (R211, R212) -/

/-- GPIO_SEL's low byte as a number (R93). -/
theorem State.pinOperand_eq (s : State) : s.pinOperand = BitVec.ofNat 8 s.regs.gpioSel.toNat := rfl

/-- GPIO_SEL's high byte as a number (R93). -/
theorem State.funcOperand_eq (s : State) : s.funcOperand = BitVec.ofNat 8 (s.regs.gpioSel.toNat / 256) := by
  rw [State.funcOperand, BitVec.extractLsb', Nat.shiftRight_eq_div_pow]

section
variable (hb : s.busy = false)
include hb

theorem exec_nop_not_busy : exec .nop s = .next s := if_neg (by simp [hb])

/-- INIT past the busy check: STATE, then the zero count, then the latching (R215, R216). -/
theorem exec_init_not_busy : exec .init s =
    if s.engine ≠ .uninit then discardCommand .cmdState s
    else if s.regs.pixelCount = 0 then discardCommand .cmdArg s
    else .next ((latchInit s).setPc .i1) := if_neg (by simp [hb])

/-- RENDER in another STATE than IDLE (R226). -/
theorem exec_render_otherState (he : s.engine ≠ .idle) : exec .render s = discardCommand .cmdState s := by
  simp [exec, execRender, hb, he]

/-- RENDER in IDLE with an input that wraps (R227). -/
theorem exec_render_wrap (he : s.engine = .idle) (hwrap : Config.paSpace < s.regs.inAddr.toNat + s.regs.inLen.toNat) :
    exec .render s = discardCommand .cmdArg s := by
  simp [exec, execRender, hb, he, hwrap]

/-- RENDER in IDLE with an input that does not wrap and exceeds the capacity (R227). -/
theorem exec_render_oversize (he : s.engine = .idle)
    (hwrap : s.regs.inAddr.toNat + s.regs.inLen.toNat ≤ Config.paSpace)
    (hcap : cap s.cfg s.sqr.p.toNat < s.regs.inLen.toNat) : exec .render s = discardCommand .rejectOversize s := by
  simp [exec, execRender, hb, he, Nat.not_lt.2 hwrap, hcap]

/-- CLEANUP before any INIT completes at once (R236). -/
theorem exec_cleanup_uninit (he : s.engine = .uninit) : exec .cleanup s = .next (s.setEngine .shutdown) := by
  simp [exec, execCleanup, hb, he]

/-- CLEANUP in IDLE starts its sequence (R236, R38). -/
theorem exec_cleanup_idle (he : s.engine = .idle) : exec .cleanup s =
    .next (((s.setRegs { s.regs with capacity := 0 }).setEngine .shutdown).setPc (.q1 .s1)) := by
  simp [exec, execCleanup, hb, he]

/-- A second CLEANUP is discarded (R235). -/
theorem exec_cleanup_shutdown (he : s.engine = .shutdown) : exec .cleanup s = discardCommand .cmdState s := by
  simp [exec, execCleanup, hb, he]

end

/-- All a command's acceptance can do. -/
theorem exec_next {i : Instr} (h : exec i s = .next t) :
    t = s ∨ (∃ c, t = raiseError c s) ∨ (i = .init ∧ t = (latchInit s).setPc .i1) ∨
    (i = .render ∧ t = ((latchRender s).setEngine .rendering).setPc (.p1 .s1)) ∨
    (i = .cleanup ∧ (t = s.setEngine .shutdown ∨
      t = ((s.setRegs { s.regs with capacity := 0 }).setEngine .shutdown).setPc (.q1 .s1))) := by
  cases i with
  | nop =>
    obtain rfl | rfl := execNop_next h
    · exact .inl rfl
    · exact .inr (.inl ⟨_, rfl⟩)
  | init =>
    obtain hdiscard | ⟨-, -, -, ht⟩ := execInit_next h
    · exact .inr (.inl hdiscard)
    · exact .inr (.inr (.inl ⟨rfl, ht⟩))
  | render =>
    obtain hdiscard | ⟨-, -, -, -, -, -, ht⟩ := execRender_next h
    · exact .inr (.inl hdiscard)
    · exact .inr (.inr (.inr (.inl ⟨rfl, ht⟩)))
  | cleanup =>
    obtain hdiscard | ⟨-, -, ht⟩ | ⟨-, -, ht⟩ := execCleanup_next h
    · exact .inr (.inl hdiscard)
    · exact .inr (.inr (.inr (.inr ⟨rfl, .inl ht⟩)))
    · exact .inr (.inr (.inr (.inr ⟨rfl, .inr ht⟩)))

/-- An error changes the fields of STATUS alone (R250). -/
theorem raiseError_eq (c : ErrCode) (s : State) : ∃ rj af de ce, raiseError c s = { s with
    regs := { s.regs with reject := rj, allocFail := af, dmaErr := de, cmdErr := ce, errCode := c.code } } := by
  cases c <;> exact ⟨_, _, _, _, rfl⟩

/-! ## Runs of SEQ turns -/

/-- `n` SEQ turns take `s` to `t`, whatever they draw. -/
def SeqRuns (n : Nat) (s t : State) : Prop :=
  ∀ ds : List Draw, ds.length = n → runTurns (ds.map .seq) s = .next t

theorem SeqRuns.step (h : ∀ d, seqStep d s = .next t) : SeqRuns 1 s t := by
  intro ds hds
  obtain ⟨d, rfl⟩ := List.length_eq_one_iff.1 hds
  exact runTurns_seq (h d)

/-- A list of draws cut in two. -/
theorem exists_append_of_length {n k : Nat} {ds : List Draw} (h : ds.length = n + k) :
    ∃ ds₁ ds₂, ds₁.length = n ∧ ds₂.length = k ∧ ds = ds₁ ++ ds₂ :=
  ⟨ds.take n, ds.drop n, by rw [List.length_take]; omega, by rw [List.length_drop]; omega,
    (List.take_append_drop n ds).symm⟩

theorem SeqRuns.trans {n k : Nat} (h : SeqRuns n s t) (h' : SeqRuns k t u) : SeqRuns (n + k) s u := by
  intro ds hds
  obtain ⟨ds₁, ds₂, h₁, h₂, rfl⟩ := exists_append_of_length hds
  rw [List.map_append, runTurns_append (h ds₁ h₁)]
  exact h' ds₂ h₂

/-- A turn at the head of a run. -/
theorem SeqRuns.cons {n : Nat} (h : ∀ d, seqStep d s = .next t) (h' : SeqRuns n t u) : SeqRuns (n + 1) s u := by
  intro ds hds
  obtain ⟨d, ds, rfl⟩ := List.exists_cons_of_length_eq_add_one hds
  exact (runTurns_seq (h d)).trans (h' ds (Nat.succ.inj hds))

/-- A run through the states `f`, one turn from each to the next. -/
theorem SeqRuns.iterate {n : Nat} {f : Nat → State} (h : ∀ i, i < n → ∀ d, seqStep d (f i) = .next (f (i + 1))) :
    SeqRuns n (f 0) (f n) := by
  induction n with
  | zero =>
    intro ds hds
    rw [List.length_eq_zero_iff.1 hds]
    rfl
  | succ n ih => exact (ih fun i hi => h i (by omega)).trans (.step (h n (by omega)))

/-! ## Words written at rising addresses (R218, R219) -/

/-- Memory after the writes of the words `f 0` to `f (n - 1)` from `a` on. -/
def writeWords (m : Memory) (a : Nat) (f : Nat → Word) : Nat → Memory
  | 0 => m
  | n + 1 => memWrite32 (writeWords m a f n) (a + 4 * n) (f n)

/-- `m'` is `m` with the words `f 0` to `f (n - 1)` from `a` on, in canonical form. -/
structure WordsWritten (m : Memory) (a : Nat) (f : Nat → Word) (n : Nat) (m' : Memory) : Prop where
  memWf : m'.wf = true
  word : ∀ i, i < n → memRead32 m' (a + 4 * i) = f i
  outside : ∀ x, x < a ∨ a + 4 * n ≤ x → memRead m' x = memRead m x

theorem writeWords_written {m : Memory} (hw : m.wf = true) {a : Nat} (f : Nat → Word) {n : Nat}
    (ha : a + 4 * n ≤ Config.paSpace) : WordsWritten m a f n (writeWords m a f n) := by
  induction n with
  | zero => exact ⟨hw, nofun, fun _ _ => rfl⟩
  | succ n ih =>
    obtain ⟨hwf, hword, hout⟩ := ih (by omega)
    refine ⟨memWrite32_wf hwf (by omega) _, fun i hi => ?_, fun x hx => ?_⟩
    · rw [writeWords, memRead32_memWrite32_cbWord hwf (by omega)]
      split_ifs with hin
      · rw [hin]
      · exact hword i (by omega)
    · rw [writeWords, memWrite32_read_outside hwf (by omega) _ (by omega), hout x (by omega)]

/-- The bytes of words that read 0. -/
theorem memRead_of_memRead32_zero {m : Memory} {a n : Nat} (h : ∀ i, i < n → memRead32 m (a + 4 * i) = 0) {i : Nat}
    (hi : i < 4 * n) : memRead m (a + i) = 0 := by
  have hbyte : wordByte (memRead32 m (a + 4 * (i / 4))) (i % 4) = 0 := by
    rw [h (i / 4) (by omega)]
    exact BitVec.extractLsb'_zero
  rwa [wordByte_memRead32 _ _ (Nat.mod_lt _ (by omega)), show a + 4 * (i / 4) + i % 4 = a + i by omega] at hbyte

/-- Turns that write a word each, at labels that count them. -/
theorem seqRuns_writeWords (hw : s.mem.wf = true) {a n : Nat} (ha : a + 4 * n ≤ Config.paSpace) (f : Nat → Word)
    {label : Nat → Pc} (hp : s.sqr.pc = label 0)
    (hstep : ∀ i, i < n → ∀ m d, seqStep d ((s.setMem m).setPc (label i)) =
      .next ((s.setMem (memWrite32 m (a + 4 * i) (f i))).setPc (label (i + 1)))) :
    ∃ m, SeqRuns n s ((s.setMem m).setPc (label n)) ∧ WordsWritten s.mem a f n m := by
  refine ⟨writeWords s.mem a f n, ?_, writeWords_written hw f ha⟩
  have hrun := SeqRuns.iterate (f := fun i => (s.setMem (writeWords s.mem a f i)).setPc (label i))
    fun i hi d => hstep i hi (writeWords s.mem a f i) d
  have hstart : (s.setMem s.mem).setPc (label 0) = s := State.setPc_self hp
  simp only [writeWords, hstart] at hrun
  exact hrun

/-! ## The control block (R218, R219) -/

/-- The label of I2 before word `n`, or what follows I2. -/
def zeroCbLabel (cb : Region) (n : Nat) : Pc := if n < 8 then .i2 cb n else .i3 cb

/-- The label of I5 before word `n`, or what follows I5. -/
def fillCbLabel (cb buf : Region) (n : Nat) : Pc := if n < 4 then .i5 cb buf n else .i6 cb buf (.stop .read)

section
variable (hw : s.mem.wf = true) (hmap : s.mappedRange cb.base 32 = true)
include hw hmap

/-- I2: eight turns zero the eight words. -/
theorem seqRuns_zeroCb (hp : s.sqr.pc = .i2 cb 0) :
    ∃ m, SeqRuns 8 s ((s.setMem m).setPc (.i3 cb)) ∧ WordsWritten s.mem cb.base (fun _ => 0) 8 m := by
  have hend := State.mappedRange_le hmap (by omega)
  refine seqRuns_writeWords hw (by omega) _ (label := zeroCbLabel cb) hp fun i hi m d => ?_
  rw [show zeroCbLabel cb i = .i2 cb i from if_pos hi]
  exact initZeroCb_mapped (s := (s.setMem m).setPc (.i2 cb i)) (State.mappedRange_sub hmap (by omega) (by omega))

/-- I5: four turns fill the first four words. -/
theorem seqRuns_fillCb (hp : s.sqr.pc = .i5 cb buf 0) :
    ∃ m, SeqRuns 4 s ((s.setMem m).setPc (.i6 cb buf (.stop .read))) ∧
      WordsWritten s.mem cb.base (controlWord s buf) 4 m := by
  have hend := State.mappedRange_le hmap (by omega)
  refine seqRuns_writeWords hw (by omega) _ (label := fillCbLabel cb buf) hp fun i hi m d => ?_
  rw [show fillCbLabel cb buf i = .i5 cb buf i from if_pos hi]
  exact initFillCb_mapped (s := (s.setMem m).setPc (.i5 cb buf i)) (State.mappedRange_sub hmap (by omega) (by omega))

end

/-! ## INIT as a whole (R218 to R222) -/

/-- The drawn contents of a fresh region lie in it. -/
theorem State.allocatable_fill {al : Nat} (hw : s.mem.wf = true) (h : s.allocatable r al = true) (bs : List Byte) :
    (memWriteList s.mem r.base (bs.take r.size)).wf = true ∧
    ∀ x, x < r.base ∨ r.base + r.size ≤ x → memRead (memWriteList s.mem r.base (bs.take r.size)) x = memRead s.mem x := by
  obtain ⟨-, hend, -⟩ := (State.allocatable_iff _ _ _).1 h
  have hlen : (bs.take r.size).length ≤ r.size := List.length_take_le _ _
  exact ⟨memWriteList_wf hw (by omega), fun x hx => memWriteList_read_outside hw (by omega) (by omega)⟩

/-- I1 to I3: the control block is allocated and zeroed, and the buffer is not too long. -/
theorem runTurns_initCb (hok : s.cfg.ok = true) (hw : s.mem.wf = true) (hp : s.sqr.pc = .i1)
    (hsize : cb.size = s.cfg.cbBytes) (halloc : s.allocatable cb s.cfg.cbAlign = true)
    (hmax : s.initLen ≤ s.cfg.maxBufBytes) {d : Draw} (hd : d.alloc = some cb.base) {ds : List Draw}
    (hds : ds.length = 9) :
    ∃ m, runTurns (.seq d :: ds.map .seq) s =
        .next { s with
          live := cb :: s.live, mem := m, alloc := .cbOnly cb, sqr := { s.sqr with pc := .i4 cb } } ∧
      m.wf = true ∧ (∀ i, i < 8 → memRead32 m (cb.base + 4 * i) = 0) ∧
      ∀ x, x < cb.base ∨ cb.base + cb.size ≤ x → memRead m x = memRead s.mem x := by
  have h32 := (Params.ok_sizes hok).1
  obtain ⟨hfillWf, hfill⟩ := State.allocatable_fill hw halloc d.fill
  obtain ⟨-, -, hmap, -⟩ := (State.allocatable_iff _ _ _).1 halloc
  let allocated := { s with
    live := cb :: s.live, mem := memWriteList s.mem cb.base (d.fill.take cb.size)
    alloc := .cbOnly cb, sqr := { s.sqr with pc := .i2 cb 0 } }
  have hi1 : seqStep d s = .next allocated := by
    rw [seqStep, hp]
    show initAllocCb d s = _
    rw [initAllocCb, ← hsize, allocate_of_allocatable hd halloc]
    rfl
  obtain ⟨m, hzero, hwritten⟩ :=
    seqRuns_zeroCb (s := allocated) hfillWf (State.mappedRange_sub hmap (Nat.le_refl _) (by omega)) rfl
  have hi3 : ∀ e, seqStep e ((allocated.setMem m).setPc (.i3 cb)) = .next ((allocated.setMem m).setPc (.i4 cb)) := fun e =>
    if_neg (Nat.not_lt.2 hmax)
  refine ⟨m, (runTurns_seq hi1).trans (hzero.trans (.step hi3) ds hds), hwritten.memWf, hwritten.word, fun x hx => ?_⟩
  exact (hwritten.outside x (by omega)).trans (hfill x hx)

/-- I4 and I5: the buffer is allocated, apart from the zeroed control block, which is then filled. -/
theorem runTurns_initBuf (hw : s.mem.wf = true) (hp : s.sqr.pc = .i4 cb) (hcbSize : 32 ≤ cb.size)
    (hcbMap : s.mappedRange cb.base cb.size = true) (hzero : ∀ i, i < 8 → memRead32 s.mem (cb.base + 4 * i) = 0)
    (hsize : buf.size = s.initLen) (halloc : s.allocatable buf 4 = true) (hapart : regionsOverlap cb buf = false)
    {d : Draw} (hd : d.alloc = some buf.base) :
    ∃ m, (∀ ds : List Draw, ds.length = 4 → runTurns (.seq d :: ds.map .seq) s =
        .next { s with
          live := buf :: s.live, mem := m, sqr := { s.sqr with pc := .i6 cb buf (.stop .read) } }) ∧
      CbHolds (s.setMem m) cb buf ∧
      ∀ x, (x < cb.base ∨ cb.base + cb.size ≤ x) → (x < buf.base ∨ buf.base + buf.size ≤ x) →
        memRead m x = memRead s.mem x := by
  obtain ⟨hfillWf, hfill⟩ := State.allocatable_fill hw halloc d.fill
  let allocated := { s with
    live := buf :: s.live, mem := memWriteList s.mem buf.base (d.fill.take buf.size)
    sqr := { s.sqr with pc := .i5 cb buf 0 } }
  have hi4 : seqStep d s = .next allocated := by
    rw [seqStep, hp]
    show initAllocBuf cb d s = _
    rw [initAllocBuf, ← hsize, Config.bufAlign, allocate_of_allocatable hd halloc]
    rfl
  obtain ⟨m, hrun, hwritten⟩ :=
    seqRuns_fillCb (s := allocated) (buf := buf) hfillWf (State.mappedRange_sub hcbMap (Nat.le_refl _) (by omega)) rfl
  refine ⟨m, fun ds hds => (runTurns_seq hi4).trans (hrun ds hds), ⟨hwritten.word 0 (by omega), hwritten.word 1 (by omega),
    hwritten.word 2 (by omega), ?_, fun i hi hi8 => ?_⟩, fun x hcb hbuf => ?_⟩
  · rw [hsize]; exact hwritten.word 3 (by omega)
  · refine Eq.trans (memRead32_congr fun x hlo hhi => ?_) (hzero i hi8)
    have hout := outside_of_not_overlap hapart (i := x - cb.base) (by omega)
    exact (hwritten.outside x (by omega)).trans (hfill x (by omega))
  · exact (hwritten.outside x (by omega)).trans (hfill x hbuf)

/-- I6 up to its second wait, the clock found stopped (R111). -/
theorem seqRuns_clkConfigure (hp : s.sqr.pc = .i6 cb buf (.stop .read)) (henab : s.clk.enab = false)
    (hbusy : s.clk.busy = false) :
    SeqRuns 5 s { s with
      clk := configuredClk s.cfg true false, sqr := { s.sqr with pc := .i6 cb buf .waitHigh } } := by
  have hstop := runsClkStop_init cb buf
  let divided := { s with
    clk := { s.clk with divi := s.cfg.clkDivisor, divf := 0 }, sqr := { s.sqr with pc := .i6 cb buf .source } }
  let sourced := { s with clk := configuredClk s.cfg false s.clk.busy, sqr := { s.sqr with pc := .i6 cb buf .enable } }
  rw [← hbusy]
  exact .cons (fun d => hstop.read_disabled d hp henab) <| .cons (fun d => hstop.wait_ends d rfl hbusy) <|
    .cons (t := divided) (fun _ => rfl) <| .cons (t := sourced) (fun _ => rfl) <| .step fun _ => rfl

/-- The first operation of GpioSetFunction, pin and function in range (R121). -/
theorem seqStep_gpioRead (d : Draw) (hp : s.sqr.pc = .i8 cb buf .read) (hpin : s.sqr.pin.toNat < s.cfg.gpioPins)
    (hf : s.sqr.func.toNat < 6) : seqStep d s = .next (s.setPc (.i8 cb buf (.write
      (fselInsert s.fsel[fselIndex s.cfg s.sqr.pin] (fselShift s.cfg s.sqr.pin)
        s.cfg.gpioFuncCode[s.sqr.func.toNat])))) := by
  rw [seqStep, hp]
  show gpioStep .read _ _ s = _
  unfold gpioStep
  rw [funcCode_of_lt hf]
  exact if_pos hpin

/-- From I6's second wait on: the clock runs, the PWM is armed, the pin's function is selected, and INIT succeeds (R220, R222). -/
theorem seqRuns_initFinish (hp : s.sqr.pc = .i6 cb buf .waitHigh) (hbusy : s.clk.busy = true)
    (hpin : s.sqr.pin.toNat < s.cfg.gpioPins) (hf : s.sqr.func.toNat < 6) :
    SeqRuns 5 s { s with
      regs := { s.regs with
        bufLen := BitVec.ofNat 32 s.initLen, bufPa := BitVec.ofNat 32 buf.base, cbPa := BitVec.ofNat 32 cb.base
        capacity := BitVec.ofNat 32 (cap s.cfg s.sqr.p.toNat) }
      pwm := ⟨true, [], s.pwm.wire⟩
      fsel := fselWith s.cfg s.fsel s.sqr.pin s.cfg.gpioFuncCode[s.sqr.func.toNat]
      alloc := .pair cb buf, engine := .idle, sqr := { s.sqr with pc := .done } } := by
  let armed := { s with pwm := ⟨true, [], s.pwm.wire⟩, sqr := { s.sqr with pc := .i8 cb buf .read } }
  let selected := { armed with
    fsel := fselWith s.cfg s.fsel s.sqr.pin s.cfg.gpioFuncCode[s.sqr.func.toNat]
    sqr := { s.sqr with pc := .i9 cb buf } }
  exact .cons (fun d => seqStep_waitHigh_busy d hp hbusy) <| .cons (t := armed) (fun _ => rfl) <|
    .cons (fun d => seqStep_gpioRead (s := armed) d rfl hpin hf) <| .cons (t := selected) (fun _ => rfl) <|
    .step fun _ => rfl

/-! ## RENDER as a whole (R229 to R232) -/

/-- The registers of the held pair outlast DMA_STOP. -/
theorem State.stopRegs_held (s : State) : s.stopRegs.bufLen = s.regs.bufLen ∧ s.stopRegs.bufPa = s.regs.bufPa ∧
    s.stopRegs.cbPa = s.regs.cbPa := by
  unfold State.stopRegs
  split_ifs <;> exact ⟨rfl, rfl, rfl⟩

/-- A run keeps the block's invariant. -/
theorem runTurns_blockInv {ts : List Turn} (h : BlockInv s) (hs : runTurns ts s = .next t) : BlockInv t := by
  induction ts generalizing s with
  | nil => cases hs; exact h
  | cons a ts ih =>
    cases ha : takeTurn a s with
    | next u => rw [runTurns_cons ha] at hs; exact ih (takeTurn_blockInv h ha) hs
    | fault f => simp [runTurns, ha] at hs
    | refused f => simp [runTurns, ha] at hs

/-- DMA_STOP, as a run whatever is drawn. -/
theorem seqRuns_stop {label : StopPc → Pc} {exit : State → State} (h : RunsStop label exit) (hok : s.cfg.ok = true)
    (hp : s.sqr.pc = label .s1) (hstop : s.dma.active = false ∨ s.dma.debugErr ≠ 0) :
    SeqRuns (if s.dma.debugErr = 0 then 5 else 6) s (exit (stoppedState label s)) :=
  fun _ => h.run hok hp hstop

/-- P3 and P4: the fresh transfer is activated, and STATE returns to IDLE. -/
theorem seqRuns_startFinish (hok : s.cfg.ok = true) (hp : s.sqr.pc = .p3 .t1) (ha : s.dma.active = false)
    (halign : s.regs.cbPa.toNat % s.cfg.cbAlign = 0) :
    SeqRuns 4 s { s with
      dma := { startedDma s.cfg s.dma with
        active := true, loaded := false, pos := 0, conblkAd := s.regs.cbPa, addrLatched := true }
      engine := .idle, sqr := { s.sqr with pc := .done } } := by
  have hstart : SeqRuns 3 s _ := fun _ => runTurns_start hok hp ha halign
  exact hstart.trans (.step fun _ => rfl)

/-! ## CLEANUP as a whole (R237, R239) -/

/-- Q2 up to its wait, the clock found enabled (R113). -/
theorem seqRuns_clkStop (hp : s.sqr.pc = .q2 .read) (henab : s.clk.enab = true) (hbusy : s.clk.busy = true) :
    SeqRuns 2 s { s with clk := stoppedClk s.cfg s.clk true, sqr := { s.sqr with pc := .q2 .waitLow } } := by
  have hread : ∀ d, seqStep d s = .next (s.setPc (.q2 (.write s.clk.src s.clk.mash))) := fun d => by
    rw [runsClkStop_cleanup d .read s hp, clkStopStep, henab]
    rfl
  exact .cons hread <| .step fun _ => by
    rw [← hbusy]
    rfl

/-- Q3 releases the buffer, then the control block. -/
theorem releaseAll_pair (h : s.alloc = .pair cb buf) : releaseAll s = s.setLive ((s.live.erase buf).erase cb) := by
  rw [releaseAll, h]
  rfl

/-- Q2's wait with BUSY 0, Q3 and Q4. -/
theorem seqRuns_cleanupFinish (hp : s.sqr.pc = .q2 .waitLow) (hbusy : s.clk.busy = false) (h : s.alloc = .pair cb buf) :
    SeqRuns 3 s { s with
      live := (s.live.erase buf).erase cb, regs := { s.regs with bufLen := 0, bufPa := 0, cbPa := 0, capacity := 0 }
      alloc := .none, sqr := { s.sqr with pc := .done, p := 0 } } := by
  let released := { s with live := (s.live.erase buf).erase cb, sqr := { s.sqr with pc := .q4 } }
  have hrelease : ∀ d, seqStep d (s.setPc .q3) = .next released := fun d => by
    show Host.Outcome.next ((releaseAll (s.setPc .q3)).setPc .q4) = _
    rw [releaseAll_pair (s := s.setPc .q3) h]
    rfl
  exact .cons (fun d => runsClkStop_cleanup.wait_ends d hp hbusy) <| .cons hrelease <| .step fun _ => rfl

end

/-! ## The obligations about acceptance -/

/-- Settles O16: past the busy check NOP answers the state as it is. -/
theorem nopCompletes : Obligations.NopCompletes :=
  ⟨decode_encode .nop, fun _ => ⟨exec_nop_not_busy, fun hb => exec_busy hb .nop⟩⟩

/-- Settles O17: every check passes, and the bytes of GPIO_SEL are its pin and function. -/
theorem initAccepted : Obligations.InitAccepted := by
  intro s hb he hcount
  rw [exec_init_not_busy hb, if_neg (not_not.2 he), if_neg hcount, ← s.pinOperand_eq, ← s.funcOperand_eq]
  rfl

/-- Settles O18: the checks fail in their order. -/
theorem initDiscarded : Obligations.InitDiscarded := by
  intro s
  refine ⟨fun hb => exec_busy hb .init, fun hb he => ?_, fun hb he hcount => ?_⟩
  · rw [exec_init_not_busy hb, if_pos he]; rfl
  · rw [exec_init_not_busy hb, if_neg (not_not.2 he), if_pos hcount]; rfl

/-- Settles O19: past the discards both of the host's duties are kept. -/
theorem renderAccepted : Obligations.RenderAccepted := by
  intro s hb he hwrap hcap hapart hmapped
  have hno : ¬ s.inputOverlaps = true := by
    rw [State.inputOverlaps_iff]
    rintro ⟨r, hr, i, j, hi, hj, e⟩
    exact hapart r hr i j hi hj e
  have hin : ¬ s.mappedRange s.regs.inAddr.toNat s.regs.inLen.toNat = false :=
    (Bool.not_eq_false _).mpr ((s.mappedRange_iff _ _).2 hmapped)
  rw [exec_render_checked hb he hwrap hcap, if_neg hno, if_neg hin]
  rfl

/-- Settles O20: each discard's condition, those before it failing. -/
theorem renderDiscarded : Obligations.RenderDiscarded := fun _ =>
  ⟨fun hb => exec_busy hb .render, exec_render_otherState, exec_render_wrap, exec_render_oversize⟩

/-- Settles O22: the two STATEs that accept a CLEANUP. -/
theorem cleanupAccepted : Obligations.CleanupAccepted := fun _ hb =>
  ⟨exec_cleanup_uninit hb, exec_cleanup_idle hb⟩

/-- Settles O23: the busy check, then SHUTDOWN's discard. -/
theorem cleanupDiscarded : Obligations.CleanupDiscarded := fun _ =>
  ⟨fun hb => exec_busy hb .cleanup, exec_cleanup_shutdown⟩

/-- Settles O24: of all acceptance can do, an error alone changes the fields that record one, and it changes nothing else. -/
theorem commandFrame : Obligations.CommandFrame := by
  intro i s t h
  obtain rfl | ⟨c, rfl⟩ | ⟨rfl, rfl⟩ | ⟨rfl, rfl⟩ | ⟨rfl, rfl | rfl⟩ := exec_next h
  · exact ⟨⟨_, _, _, _, _, _, rfl, .inl rfl, fun hne => absurd rfl hne⟩, rfl, fun _ => ⟨rfl, rfl, rfl⟩, fun _ => ⟨rfl, rfl⟩⟩
  · obtain ⟨rj, af, de, ce, e⟩ := raiseError_eq c s
    exact ⟨⟨rj, af, de, ce, _, _, e, .inl rfl, fun _ => ⟨rfl, rfl, rfl⟩⟩, rfl, fun _ => ⟨rfl, rfl, rfl⟩, fun _ => ⟨rfl, rfl⟩⟩
  · exact ⟨⟨_, _, _, _, _, _, rfl, .inl rfl, fun hne => absurd rfl hne⟩, rfl, fun hi => absurd rfl hi, fun _ => ⟨rfl, rfl⟩⟩
  · exact ⟨⟨_, _, _, _, _, _, rfl, .inl rfl, fun hne => absurd rfl hne⟩, rfl, fun _ => ⟨rfl, rfl, rfl⟩, fun hi => absurd rfl hi⟩
  · exact ⟨⟨_, _, _, _, _, _, rfl, .inl rfl, fun hne => absurd rfl hne⟩, rfl, fun _ => ⟨rfl, rfl, rfl⟩, fun _ => ⟨rfl, rfl⟩⟩
  · exact ⟨⟨_, _, _, _, _, _, rfl, .inr ⟨rfl, rfl, rfl⟩, fun hne => absurd rfl hne⟩, rfl, fun _ => ⟨rfl, rfl, rfl⟩,
      fun _ => ⟨rfl, rfl⟩⟩

/-! ## The obligations about the sequences -/

/-- Settles O26: each failing check raises its error; from I3 on the control block is given back. -/
theorem initFailures : Obligations.InitFailures := by
  intro s cb d
  refine ⟨fun hp hd => ?_, fun hp hlen => ?_, fun hp hd => ?_, fun hp => ?_⟩ <;> rw [seqStep, hp]
  · show initAllocCb d s = _
    rw [initAllocCb, allocate_fail hd]
    rfl
  · have hlong : s.cfg.maxBufBytes < s.initLen := hlen
    show initCheckLen cb s = _
    rw [initCheckLen, if_pos hlong]
    rfl
  · show initAllocBuf cb d s = _
    rw [initAllocBuf, allocate_fail hd]
    rfl
  · rfl

/-- Settles O27: the words written one by one, and the words not written kept. -/
theorem controlBlockWritten : Obligations.ControlBlockWritten := by
  intro s cb buf ds hw hsize hmap
  have hend := State.mappedRange_le hmap (by omega)
  have hmap32 : s.mappedRange cb.base 32 = true := State.mappedRange_sub hmap (Nat.le_refl _) (by omega)
  refine ⟨fun hp hds => ?_, fun hp hds => ?_⟩
  · obtain ⟨m, hrun, hwritten⟩ := seqRuns_zeroCb hw hmap32 hp
    exact ⟨m, hrun ds hds, fun i hi => memRead_of_memRead32_zero hwritten.word (n := 8) hi, hwritten.outside⟩
  · obtain ⟨m, hrun, hwritten⟩ := seqRuns_fillCb hw hmap32 hp
    exact ⟨m, hrun ds hds, hwritten.word 0 (by omega), hwritten.word 1 (by omega), hwritten.word 2 (by omega),
      hwritten.word 3 (by omega), hwritten.outside⟩

/-- Settles O32: INIT part by part; each part leaves what the next one starts from. -/
theorem initRunsToIdle : Obligations.InitRunsToIdle := by
  intro s cb buf d₁ d₂ ds₁ ds₂ ds₃ hok hw hp henab hbusy hpin hf hcbSize hbufSize hmax hd₁ hcb hd₂ hbuf hapart h₁ h₂ h₃
  have h32 := (Params.ok_sizes hok).1
  obtain ⟨-, -, hcbMap, -⟩ := (State.allocatable_iff _ _ _).1 hcb
  obtain ⟨m, hrunCb, hwf, hzero, hout⟩ := runTurns_initCb hok hw hp hcbSize hcb (hbufSize.ge.trans hmax) hd₁ h₁
  let zeroed := { s with live := cb :: s.live, mem := m, alloc := .cbOnly cb, sqr := { s.sqr with pc := .i4 cb } }
  have hbuf' : zeroed.allocatable buf 4 = true := by
    obtain ⟨halign, hend, hmap, hdma, hlive, hdevice⟩ := (State.allocatable_iff _ _ _).1 hbuf
    exact (State.allocatable_iff _ _ _).2 ⟨halign, hend, hmap, hdma, List.forall_mem_cons.2 ⟨hapart, hlive⟩, hdevice⟩
  obtain ⟨m', hrunBuf, hholds, hout'⟩ := runTurns_initBuf (s := zeroed) hwf rfl (by omega) hcbMap hzero hbufSize hbuf'
    ((regionsOverlap_comm cb buf).trans hapart) hd₂
  let filled := { zeroed with live := buf :: zeroed.live, mem := m', sqr := { s.sqr with pc := .i6 cb buf (.stop .read) } }
  have hclk := seqRuns_clkConfigure (s := filled) rfl henab hbusy
  obtain ⟨es₁, es₂, he₁, he₂, rfl⟩ := exists_append_of_length (n := 4) (k := 5) h₂
  let clocked := { filled with clk := configuredClk s.cfg true true, sqr := { s.sqr with pc := .i6 cb buf .waitHigh } }
  have hfinish := seqRuns_initFinish (s := clocked) rfl rfl hpin hf
  have hrun := calc
    runTurns ([.seq d₁] ++ ds₁.map .seq ++ [.seq d₂] ++ (es₁ ++ es₂).map .seq ++ [.env true] ++ ds₃.map .seq) s
    _ = runTurns (.seq d₁ :: ds₁.map .seq ++
        (.seq d₂ :: es₁.map .seq ++ (es₂.map .seq ++ .env true :: ds₃.map .seq))) s := by simp
    _ = runTurns (.seq d₂ :: es₁.map .seq ++ (es₂.map .seq ++ .env true :: ds₃.map .seq)) zeroed := runTurns_append hrunCb
    _ = runTurns (es₂.map .seq ++ .env true :: ds₃.map .seq) filled := runTurns_append (hrunBuf es₁ he₁)
    _ = runTurns (.env true :: ds₃.map .seq) _ := runTurns_append (hclk es₂ he₂)
    _ = runTurns (ds₃.map .seq) clocked := runTurns_cons (takeTurn_env (b := true) rfl)
    _ = _ := hfinish ds₃ h₃
  exact ⟨_, hrun, rfl, rfl, rfl, rfl, rfl, hholds, rfl, rfl, rfl, rfl, rfl, rfl, rfl, rfl,
    fun a hcb hbuf => (hout' a hcb hbuf).trans (hout a hcb)⟩

/-- Settles O48: DMA_STOP leaves the block as ENCODE needs it, ENCODE the channel as DMA_START needs it. -/
theorem renderRunsToIdle : Obligations.RenderRunsToIdle := by
  intro s cb buf ds h hh hp hstop hds
  obtain ⟨hengine, -, hinput⟩ : s.engine = .rendering ∧ (∃ cb buf, Held s cb buf) ∧ InputOk s := h.blockOk.atLabel hp
  let stopped := enterEncode (stoppedState .p1 s)
  have hrunStop : SeqRuns (if s.dma.debugErr = 0 then 5 else 6) s stopped := seqRuns_stop runsStop_render h.paramsOk hp hstop
  have hu : BlockInv stopped := runTurns_blockInv h (hrunStop (List.replicate _ {}) List.length_replicate)
  obtain ⟨hlen, hbufPa, hcbPa⟩ := s.stopRegs_held
  have hheld : Held stopped cb buf := by
    obtain ⟨halloc, ⟨hlen', hbufPa', hcbPa'⟩, hrest⟩ := hh
    exact ⟨halloc, ⟨hlen.trans hlen', hbufPa.trans hbufPa', hcbPa.trans hcbPa'⟩, hrest⟩
  have haddr := hheld.addresses hu
  obtain ⟨ds₁, es, h₁, hes, rfl⟩ := exists_append_of_length (ds := ds) (n := if s.dma.debugErr = 0 then 5 else 6)
    (k := s.sqr.inLen.toNat + buf.size + 4) (by split_ifs at hds ⊢ <;> omega)
  obtain ⟨ds₂, ds₃, h₂, h₃, rfl⟩ := exists_append_of_length hes
  obtain ⟨m, j, hrunEncode, hbytes, hout⟩ := encodeWritesBuffer stopped cb buf ds₂ hu hheld hengine hinput rfl rfl h₂
  let encoded := { stopped with mem := m, sqr := { stopped.sqr with pc := .p3 .t1, j := j } }
  have hfinish := seqRuns_startFinish (s := encoded) h.paramsOk rfl rfl (by
    show stopped.regs.cbPa.toNat % _ = 0
    rw [haddr.cbPaReg]
    exact haddr.cbAligned) ds₃ h₃
  rw [List.map_append, runTurns_append (hrunStop ds₁ h₁), List.map_append, runTurns_append hrunEncode, hfinish]
  exact ⟨_, rfl, rfl, rfl, hbytes, hout, rfl, hcbPa, rfl, rfl, rfl, rfl, rfl, rfl, rfl, rfl⟩

/-- Settles O49: DMA_STOP, the clock's stop around ENV's turn, the release. -/
theorem cleanupRunsToShutdown : Obligations.CleanupRunsToShutdown := by
  intro s cb buf ds₁ ds₂ hok halloc hengine hp hstop henab hbusy h₁ h₂
  let stopped := { s with regs := s.stopRegs, dma := stoppedDma s.dma, sqr := { s.sqr with pc := .q2 .read } }
  have hrunStop : SeqRuns (if s.dma.debugErr = 0 then 5 else 6) s stopped := seqRuns_stop runsStop_cleanup hok hp hstop
  have hclk := hrunStop.trans (seqRuns_clkStop (s := stopped) rfl henab hbusy) ds₁ (by split_ifs at h₁ ⊢ <;> omega)
  let clockLow := { stopped with clk := stoppedClk s.cfg s.clk false, sqr := { s.sqr with pc := .q2 .waitLow } }
  have hfinish := seqRuns_cleanupFinish (s := clockLow) rfl rfl halloc ds₂ h₂
  rw [List.append_assoc, runTurns_append hclk, List.singleton_append, runTurns_cons (takeTurn_env (b := false) rfl)]
  exact ⟨_, hfinish, hengine, rfl, rfl, rfl, rfl, rfl, rfl, rfl, rfl, rfl, rfl⟩

end Sys2Proof.Machine

/-!
PROOFS. Exceptions (spec/60_exceptions.md): what recording an error changes, code by code (R250, R251).
-/

namespace Sys2Proof.Machine

/-- Settles O7: each code's row of R251 is what `setSticky` and `code` say of it, and `raiseError` writes the registers alone. -/
theorem errorRecording : Obligations.ErrorRecording :=
  fun _ => ⟨rfl, rfl, rfl, rfl, rfl, rfl, rfl, rfl⟩

end Sys2Proof.Machine

/-!
PROOFS. The reset input and what the platform may do after it (spec/70_reset_and_hazards.md, R280 to R282).
-/

namespace Sys2Proof.Machine

variable {s : State} {r : Region}

/-- The platform takes back a live region that the block has forgotten (R282). -/
theorem platformReclaim_of_forgotten (hlive : r ∈ s.live) (hheld : r ∉ s.heldRegions) :
    platformReclaim r s = s.setLive (s.live.erase r) := if_pos ⟨hlive, hheld⟩

/-- A turn that names a region not live, or one the block still holds, does nothing (R282). -/
theorem platformReclaim_of_unavailable (h : r ∉ s.live ∨ r ∈ s.heldRegions) : platformReclaim r s = s :=
  if_neg fun ⟨hlive, hheld⟩ => h.elim (· hlive) hheld

/-- Settles O51: a reset writes the block's own four fields alone; a reclaiming turn goes by whether its region is live and
no longer held. -/
theorem resetInput : Obligations.ResetInput := by
  refine fun s => ⟨rfl, fun r => ⟨fun hlive hheld => ?forgotten, fun h => ?unavailable⟩⟩
  case forgotten => exact congrArg Host.Outcome.next (platformReclaim_of_forgotten hlive hheld)
  case unavailable => exact congrArg Host.Outcome.next (platformReclaim_of_unavailable h)

end Sys2Proof.Machine
